-- ==== Sys2Proof/Word.lean ====
section
/-! DEFINITION. The words of the host bus and the complex samples of the datapath (00_scope.md R9, R11, R14). -/

namespace Sys2Proof

/-- A 32-bit data word or bus address (R9). -/
abbrev Word := BitVec 32

/-- One byte of a buffer. -/
abbrev Byte := BitVec 8

/-- A complex sample, a pair of exact integers (R14, R9). -/
structure Sample where
  i : Int
  q : Int
  deriving DecidableEq, Repr

end Sys2Proof
end

