-- ==== Sys2Proof/Config.lean ====
section
/-! DEFINITION. What is fixed for the machine: the identity, the address map, the parameters a state
carries (plain data) with this hardware's defaults, and the free values of the spec (constants without a body). -/

namespace Sys2Proof.Config

/-- R30. The constant that the ID register reads as. -/
def idValue : Word := 0x46445331

/-- R81. REG is the first 4 KiB of the bus. -/
def regBytes : Nat := 0x1000

/-- R82. INBUF offset 0. -/
def inbufBase : Nat := 0x01000000

/-- R83. OUTBUF offset 0. -/
def outbufBase : Nat := 0x02000000

/-- R84. The end of the OUTBUF window (0x0200_0000 to 0x03FF_FFFF). -/
def outbufEnd : Nat := 0x04000000

/-- R205. The parameter FIR_TAPS: the default Hamming table, or a table given row by row
(row `d - 1` holds the taps for downsample factor `d`). Log 1. -/
inductive TapTable where
  | hamming
  | rows (t : List (List Byte))
  deriving DecidableEq, Repr

/-- R242, U13. One value of the parameter ATAN_EXACT, at the arguments `(y, x)`. Log 8. -/
structure AtanPoint where
  y : Int
  x : Int
  value : Int
  deriving DecidableEq, Repr

/-- R244. The parameter LUT_TABLE: the nearest integers of the rule, or a table given entry by entry. Log 9. -/
inductive LutTable where
  | nearest
  | entries (t : List Int)
  deriving DecidableEq, Repr

/-- R244, R245. The parameters LUT_COEF, LUT_SIZE, LUT_TABLE, K_FALLBACK of the lookup arctangent. Log 9. -/
structure LutParams where
  coef : Nat
  size : Nat
  table : LutTable
  fallback : Int
  deriving DecidableEq, Repr

/-- R243. The parameters FAST_B1 to FAST_B9, rationals with the common denominator `den`: FAST_B1 is `b1 / den`. Log 9. -/
structure FastParams where
  den : Nat
  b1 : Int
  b3 : Int
  b5 : Int
  b7 : Int
  b9 : Int
  deriving DecidableEq, Repr

/-- R8. The parameters that the model takes as arguments; a state carries them and no step writes them (log 1). OUT_BUF_BYTES is
no parameter of its own: it is twice IN_BUF_BYTES (R83). -/
structure Params where
  /-- IN_BUF_BYTES. -/
  inBufBytes : Nat
  /-- FIR_TAPS. -/
  firTaps : TapTable
  /-- ATAN_EXACT: the values given one by one; at every other argument it is the nearest integer of R242 (log 8). -/
  exactPoints : List AtanPoint
  /-- LUT_COEF, LUT_SIZE, LUT_TABLE, K_FALLBACK. -/
  lut : LutParams
  /-- FAST_B1 to FAST_B9. -/
  fast : FastParams
  deriving DecidableEq, Repr

/-- R244, R245. The lookup arctangent's defaults: 14, 2^18, the nearest integers, 5215. -/
def defaultLut : LutParams := { coef := 14, size := 2 ^ 18, table := .nearest, fallback := 5215 }

/-- R243. The fast arctangent's defaults, in thousandths. -/
def defaultFast : FastParams :=
  { den := 1000, b1 := 5214490, b3 := -1722574, b5 := 939469, b7 := -443985, b9 := 108659 }

/-- R8. This hardware's defaults. -/
def defaultParams : Params :=
  { inBufBytes := 262144, firTaps := .hamming, exactPoints := [], lut := defaultLut, fast := defaultFast }

/-- R62, R393 (U1, U2). FREE VALUE: the byte that reset number `epoch` leaves at a bus address of a buffer. Log 3. -/
opaque bufferByte : (epoch address : Nat) → Byte

/-- R93 (U3). FREE VALUE: draw number `n` of a byte of OUTBUF read while busy. Log 7. -/
opaque busyByte : (n : Nat) → Byte

/-- R364 (U5). FREE VALUE: draw number `n` of the steps between a PROCESS issue and its completion. Log 4. -/
opaque processLatency : (n : Nat) → Nat

end Sys2Proof.Config
end

