-- ==== Sys2Proof/Machine/Arith.lean ====
section
/-! DEFINITION. The integer primitives of 00_scope.md R11 and R12. -/

namespace Sys2Proof.Machine

/-- R12. Quotient truncated toward zero. -/
def tdiv (n q : Int) : Int := Int.tdiv n q

/-- R12. Quotient rounded to nearest, halves away from zero; `q > 0`. -/
def rhaz (n q : Int) : Int := Int.sign n * (((n.natAbs + q.toNat / 2) / q.toNat : Nat) : Int)

/-- R12. The greatest root found by trying the bits `k - 1` down to 0 on top of `r`. -/
def isqrtFrom (v : Nat) : (k r : Nat) → Nat
  | 0, r => r
  | k + 1, r => if (r + 2 ^ k) * (r + 2 ^ k) ≤ v then isqrtFrom v k (r + 2 ^ k) else isqrtFrom v k r

/-- R12. The greatest `s` with `s * s ≤ v`. -/
def isqrt (v : Nat) : Nat := isqrtFrom v (Nat.log2 v / 2 + 1) 0

/-- R12. Saturation to the 16-bit signed range. -/
def sat16 (v : Int) : Int := min 32767 (max (-32768) v)

/-- R11. `v mod 2^32` as a word. -/
def wrap32 (v : Int) : Word := BitVec.ofInt 32 v

end Sys2Proof.Machine
end

