-- ==== Sys2Proof/Syntax.lean ====
section
/-! DEFINITION. The block's instructions (one constructor per row of spec/opcode_table.json), the codes they are read from
(30_encoding.md R120), and the names under which a code is rejected. -/

namespace Sys2Proof

/-- R120. The width of a bus transaction. -/
inductive Size where
  | byte | half | word
  deriving DecidableEq, Repr

/-- R120. `size` in bytes. -/
def Size.bytes : Size → Nat
  | .byte => 1
  | .half => 2
  | .word => 4

/-- R120. `dir`, with the data a write carries. -/
inductive Access where
  | read
  | write (data : Word)
  deriving DecidableEq, Repr

/-- R120, format BUS: one host transaction. -/
structure Transaction where
  addr : Word
  size : Size
  access : Access
  deriving DecidableEq, Repr

/-- R122. The commands that a COMMAND write can issue. -/
inductive Command where
  | nop | start | process | stop | clearStatus | softReset
  deriving DecidableEq, Repr

/-- The 22 operations of spec/opcode_table.json (R3): commands, datapath operations, bus accesses. -/
inductive Instr where
  | nop
  | start
  | process
  | stop
  | clearStatus
  | softReset
  | decimBoxcar
  | decimFir
  | demodFmExact
  | demodFmFast
  | demodFmLut
  | demodAm
  | demodUsb
  | demodLsb
  | demodRaw
  | squelch
  | deemph
  | dcblock
  | regRead (addr : Word) (size : Size)
  | regWrite (addr : Word) (size : Size) (data : Word)
  | inbufAccess (addr : Word) (size : Size) (access : Access)
  | outbufRead (addr : Word) (size : Size) (access : Access)
  deriving DecidableEq, Repr

/-- R120. What an instruction is read from: a bus transaction, a command word, or a selection pattern on CTRL
(R125 gives each datapath operation a mask and a match). -/
inductive Code where
  | bus (t : Transaction)
  | cmd (w : Word)
  | ctrl (mask pattern : Word)
  deriving DecidableEq, Repr

/-- Why a code is no instruction. -/
inductive Reject where
  /-- R84: a bus address outside the three windows. -/
  | unmapped (addr : Word)
  /-- R123: a command word other than 0 to 5. -/
  | illegalCommand (w : Word)
  /-- R125: no datapath operation is selected by this mask and match. -/
  | noSuchSelection (mask pattern : Word)
  deriving DecidableEq, Repr

/-- 10_state.md section 1: the registers by name. -/
inductive Reg where
  | id | ctrl | downsample | outputScale | sqLevel | sqThresh | deemphA | inLen | command | status | result | outLen
  | sqHits | madI | madQ | tapSum | dropCnt | stNowR | stNowJ | stPrevIndex | stPreR | stPreJ | stDeemphAvg | stDcAvg
  | coef (k : Nat)
  | reserved
  deriving DecidableEq, Repr

end Sys2Proof
end

