-- ==== Sys2Proof/WellFormed.lean ====
section
/-! DEFINITION. Which terms of Instr are instructions of the table: the address lies in the row's window (the mask and match
of spec/opcode_table.json) and a write carries no more data bits than its size has (R120). Width, alignment and the buffers'
sizes are no matter of form: the rules R88, R89, R84 give a wrong access an effect (BUS_ERR), which its meaning has. -/

namespace Sys2Proof

/-- R120: the data of a transaction is `data[8*size-1:0]`. -/
def dataFits (size : Size) (data : Word) : Bool := data.toNat < 2 ^ (8 * size.bytes)

/-- R120, for either direction. -/
def accessFits (size : Size) : Access → Bool
  | .read => true
  | .write data => dataFits size data

/-- The window of a row of the opcode table: `addr & mask = pattern`. -/
def inRow (mask pattern addr : Word) : Bool := addr &&& mask == pattern

/-- The instruction is one of the table. -/
def Instr.wellFormed : Instr → Bool
  | .nop => true
  | .start => true
  | .process => true
  | .stop => true
  | .clearStatus => true
  | .softReset => true
  | .decimBoxcar => true
  | .decimFir => true
  | .demodFmExact => true
  | .demodFmFast => true
  | .demodFmLut => true
  | .demodAm => true
  | .demodUsb => true
  | .demodLsb => true
  | .demodRaw => true
  | .squelch => true
  | .deemph => true
  | .dcblock => true
  | .regRead addr _ => inRow 0xFFFFF000 0x00000000 addr
  | .regWrite addr size data => inRow 0xFFFFF000 0x00000000 addr && dataFits size data
  | .inbufAccess addr size access => inRow 0xFF000000 0x01000000 addr && accessFits size access
  | .outbufRead addr size access => inRow 0xFE000000 0x02000000 addr && accessFits size access

end Sys2Proof
end

