-- ==== Sys2Proof/Decode.lean ====
section
/-! DEFINITION. The decoder, total on every code and rejecting by name (30_encoding.md R121 to R125), then the encoder,
the sample formats IN and OUT (R128, R129), and the reading of the opcode table's own words. -/

namespace Sys2Proof

/-- R122, R123. The command of a word written to COMMAND, if it is a legal one. -/
def decodeCommand (w : Word) : Option Command :=
  if w.extractLsb' 4 28 = 0#28 then
    if w.extractLsb' 0 4 = 0#4 then some .nop
    else if w.extractLsb' 0 4 = 1#4 then some .start
    else if w.extractLsb' 0 4 = 2#4 then some .process
    else if w.extractLsb' 0 4 = 3#4 then some .stop
    else if w.extractLsb' 0 4 = 4#4 then some .clearStatus
    else if w.extractLsb' 0 4 = 5#4 then some .softReset
    else none
  else none

/-- A command as an instruction of the table. -/
def commandInstr : Command → Instr
  | .nop => .nop
  | .start => .start
  | .process => .process
  | .stop => .stop
  | .clearStatus => .clearStatus
  | .softReset => .softReset

/-- R120: only `data[8*size-1:0]` is on the bus. -/
def busBits (size : Size) (data : Word) : Word := BitVec.ofNat 32 (data.toNat % 2 ^ (8 * size.bytes))

/-- R120, for either direction. -/
def busAccess (size : Size) : Access → Access
  | .read => .read
  | .write data => .write (busBits size data)

/-- R121. A transaction is decoded by its address into REG, INBUF, OUTBUF (R81 to R83, windows of R84) or unmapped. -/
def decodeBus (t : Transaction) : Except Reject Instr :=
  if t.addr.toNat < Config.regBytes then
    match t.access with
    | .read => .ok (.regRead t.addr t.size)
    | .write data => .ok (.regWrite t.addr t.size (busBits t.size data))
  else if Config.inbufBase ≤ t.addr.toNat ∧ t.addr.toNat < Config.outbufBase then
    .ok (.inbufAccess t.addr t.size (busAccess t.size t.access))
  else if Config.outbufBase ≤ t.addr.toNat ∧ t.addr.toNat < Config.outbufEnd then
    .ok (.outbufRead t.addr t.size (busAccess t.size t.access))
  else .error (.unmapped t.addr)

/-- R125. Mask and match on CTRL of each datapath operation. -/
def selection : Instr → Option (Word × Word)
  | .nop => none
  | .start => none
  | .process => none
  | .stop => none
  | .clearStatus => none
  | .softReset => none
  | .decimBoxcar => some (0x0001, 0x0000)
  | .decimFir => some (0x0001, 0x0001)
  | .demodFmExact => some (0x0370, 0x0000)
  | .demodFmFast => some (0x0370, 0x0100)
  | .demodFmLut => some (0x0370, 0x0200)
  | .demodAm => some (0x0070, 0x0010)
  | .demodUsb => some (0x0070, 0x0020)
  | .demodLsb => some (0x0070, 0x0030)
  | .demodRaw => some (0x0070, 0x0040)
  | .squelch => some (0x0040, 0x0000)
  | .deemph => some (0x0042, 0x0002)
  | .dcblock => some (0x0044, 0x0004)
  | .regRead _ _ => none
  | .regWrite _ _ _ => none
  | .inbufAccess _ _ _ => none
  | .outbufRead _ _ _ => none

/-- R124. The datapath operations, in the fixed order of the chain. -/
def datapathOps : List Instr :=
  [.decimBoxcar, .decimFir, .demodFmExact, .demodFmFast, .demodFmLut, .demodAm, .demodUsb, .demodLsb, .demodRaw,
    .squelch, .deemph, .dcblock]

/-- R125. Whether a CTRL word selects an operation. -/
def selects (ctrl : Word) (i : Instr) : Bool :=
  match selection i with
  | some (mask, pattern) => ctrl &&& mask == pattern
  | none => false

/-- R124, R125. The operations that a CTRL word selects, in their order. -/
def stages (ctrl : Word) : List Instr := datapathOps.filter (selects ctrl)

/-- R126. The reserved selections, which START refuses: DEMOD 5 to 7, and ATAN_SEL 3 with DEMOD 0. -/
def reservedSelection (ctrl : Word) : Bool :=
  4 < (ctrl.extractLsb' 4 3).toNat || ((ctrl.extractLsb' 4 3).toNat == 0 && (ctrl.extractLsb' 8 2).toNat == 3)

/-- The operation with a given mask and match. -/
def decodeSelection (mask pattern : Word) : Except Reject Instr :=
  match datapathOps.find? (fun i => selection i == some (mask, pattern)) with
  | some i => .ok i
  | none => .error (.noSuchSelection mask pattern)

/-- The decoder. -/
def decode : Code → Except Reject Instr
  | .bus t => decodeBus t
  | .cmd w =>
    match decodeCommand w with
    | some c => .ok (commandInstr c)
    | none => .error (.illegalCommand w)
  | .ctrl mask pattern => decodeSelection mask pattern

/-- The encoder: R122 for commands, R125 for datapath operations, R120 for bus accesses. -/
def encode : Instr → Code
  | .nop => .cmd 0x00000000
  | .start => .cmd 0x00000001
  | .process => .cmd 0x00000002
  | .stop => .cmd 0x00000003
  | .clearStatus => .cmd 0x00000004
  | .softReset => .cmd 0x00000005
  | .decimBoxcar => .ctrl 0x0001 0x0000
  | .decimFir => .ctrl 0x0001 0x0001
  | .demodFmExact => .ctrl 0x0370 0x0000
  | .demodFmFast => .ctrl 0x0370 0x0100
  | .demodFmLut => .ctrl 0x0370 0x0200
  | .demodAm => .ctrl 0x0070 0x0010
  | .demodUsb => .ctrl 0x0070 0x0020
  | .demodLsb => .ctrl 0x0070 0x0030
  | .demodRaw => .ctrl 0x0070 0x0040
  | .squelch => .ctrl 0x0040 0x0000
  | .deemph => .ctrl 0x0042 0x0002
  | .dcblock => .ctrl 0x0044 0x0004
  | .regRead addr size => .bus { addr := addr, size := size, access := .read }
  | .regWrite addr size data => .bus { addr := addr, size := size, access := .write data }
  | .inbufAccess addr size access => .bus { addr := addr, size := size, access := access }
  | .outbufRead addr size access => .bus { addr := addr, size := size, access := access }

/-- R122. The COMMAND write that issues a command word: register offset 0x020, 32 bits (R38, R89). -/
def commandWrite (w : Word) : Transaction := { addr := 0x00000020, size := .word, access := .write w }

/-- 10_state.md section 1: the registers at word offsets 0x000 to 0x05C, in order. -/
def regNames : List Reg :=
  [.id, .ctrl, .downsample, .outputScale, .sqLevel, .sqThresh, .deemphA, .inLen, .command, .status, .result, .outLen,
    .sqHits, .madI, .madQ, .tapSum, .dropCnt, .stNowR, .stNowJ, .stPrevIndex, .stPreR, .stPreJ, .stDeemphAvg, .stDcAvg]

/-- 10_state.md section 1, R48, R49: the register at a word-aligned offset. -/
def regAt (offset : Nat) : Reg :=
  if offset < 0x060 then regNames.getD (offset / 4) .reserved
  else if 0x400 ≤ offset ∧ offset < 0x800 then .coef ((offset - 0x400) / 4)
  else .reserved

/-- R128, format IN: a byte pair is a sample recentred at 127. -/
def decodeSample (i q : Byte) : Sample := { i := (i.toNat : Int) - 127, q := (q.toNat : Int) - 127 }

/-- R129, format OUT: the 16-bit two's-complement pattern of an output value. -/
def encodeOutput (v : Int) : BitVec 16 := BitVec.ofInt 16 v

/-- The value that a stored output pattern stands for (R87). -/
def decodeOutput (p : BitVec 16) : Int := p.toInt

/-- How many bits the table's mask of a datapath operation spans, in whole bytes. -/
def selectionBits (i : Instr) : Nat :=
  match selection i with
  | some (mask, _) => if mask.toNat < 2 ^ 8 then 8 else 16
  | none => 0

/-- The match value of a datapath operation, as a number. -/
def selectionValue (i : Instr) : Nat :=
  match selection i with
  | some (_, pattern) => pattern.toNat
  | none => 0

/-- The operation that a CTRL word of the table singles out: of those it selects, the one whose match value is greatest (the
first of equals); where the word has 8 or 16 bits, of those whose mask has as many. Log 12. -/
def singledOut (nbits : Nat) (ctrl : Word) : Option Instr :=
  ((stages ctrl).filter (fun i => 16 < nbits || selectionBits i == nbits)).foldl
    (fun best i =>
      match best with
      | none => some i
      | some b => if selectionValue b < selectionValue i then some i else some b) none

/-- The code that a word of the opcode table stands for. The table has three formats whose words overlap, so the length and
the value decide: 32-bit words 0 to 5 are commands; words within CTRL's fields, and shorter words, are CTRL words; the rest are
the address of a 32-bit read. Log 12. -/
def tableCode (nbits w : Nat) : Code :=
  let word : Word := BitVec.ofNat 32 w
  if 16 < nbits ∧ w < 6 then .cmd word
  else if nbits ≤ 16 ∨ word &&& 0xFFFFF880 = 0 then
    match if reservedSelection word then none else (singledOut nbits word).bind selection with
    | some (mask, pattern) => .ctrl mask pattern
    | none => .ctrl word word
  else .bus { addr := word, size := .word, access := .read }

/-- The instruction that the decoder reads from a word of the opcode table. -/
def decodeTableWord (nbits w : Nat) : Option Instr :=
  match decode (tableCode nbits w) with
  | .ok i => some i
  | .error _ => none

end Sys2Proof
end

