-- ==== Sys2Proof/Machine/State.lean ====
section
/-! DEFINITION. The state of the block, as plain data, and the state after reset (10_state.md). -/

namespace Sys2Proof.Machine

/-- R31. The fields of CTRL; bits of no field are not stored (R181). -/
structure Ctrl where
  firEn : Bool
  deemphEn : Bool
  dcEn : Bool
  multichan : Bool
  demod : BitVec 3
  atanSel : BitVec 2
  sqSrc : Bool
  deriving DecidableEq, Repr

/-- R31 to R36. The registers that are locked while the block runs, each at the width of its defined bits. -/
structure ConfigRegs where
  ctrl : Ctrl
  downsample : BitVec 9
  outputScale : BitVec 16
  sqLevel : Word
  sqThresh : Word
  deemphA : BitVec 16
  deriving DecidableEq, Repr

/-- R39. STATUS but for BUSY, which is that a PROCESS is in flight. -/
structure Status where
  running : Bool
  terminated : Bool
  cfgErr : Bool
  inputErr : Bool
  cmdErr : Bool
  busyErr : Bool
  lockErr : Bool
  busErr : Bool
  deriving DecidableEq, Repr

/-- R351. The error causes. -/
inductive Err where
  | cfg | input | cmd | busy | lock | bus
  deriving DecidableEq, Repr

/-- R40. The flags of RESULT. -/
structure BlockFlags where
  active : Bool
  muted : Bool
  hop : Bool
  term : Bool
  sqEval : Bool
  deriving DecidableEq, Repr

/-- R40, R41, R43. What the last completed PROCESS reported. -/
structure Report where
  result : BlockFlags
  outLen : Word
  madI : Word
  madQ : Word
  deriving DecidableEq, Repr

/-- R50 to R56. The datapath state (the source's ReceiverState), exact integers. -/
structure Datapath where
  nowR : Int
  nowJ : Int
  prevIndex : Nat
  preR : Int
  preJ : Int
  deemphAvg : Int
  dcAvg : Int
  hits : Nat
  taps : List Byte
  tapSum : Nat
  deriving DecidableEq, Repr

/-- R165. A PROCESS in flight: its byte length, and how many steps the engine still waits (log 4). -/
structure Job where
  len : Nat
  wait : Nat
  deriving DecidableEq, Repr

/-- R167. The lists that one PROCESS_BLOCK hands from stage to stage: recentred samples, decimated samples, output values, the
two MAD values if the squelch was evaluated, the flags. The model's own; empty between steps (log 5). -/
structure Work where
  xs : List Sample
  z : List Sample
  y : List Int
  mad : Option (Nat × Nat)
  flags : BlockFlags
  deriving DecidableEq, Repr

/-- What the outside does to the block (log 2). -/
inductive Input where
  /-- One host bus transaction (R80). -/
  | access (t : Transaction)
  /-- The platform's reset (R390). -/
  | hardwareReset
  deriving DecidableEq, Repr

/-- The bytes written since reset, by bus address, strictly rising. An unlisted address has no listed byte: what a read of it
answers is `Config.bufferByte`, a free value (log 3). -/
abbrev Memory := List Host.Cell

/-- The canonical form: addresses strictly rising. (An unlisted address reads as a free value, so no entry can be known to equal
it, and no write removes one; log 3.) -/
abbrev Memory.wf (m : Memory) : Prop := m.Pairwise (fun c e => c.1 < e.1)

/-- The state of the block and of what stands around it. -/
structure State where
  /-- R8: constant, see log 1. -/
  params : Config.Params
  /-- R31 to R36. -/
  cfg : ConfigRegs
  /-- R37. -/
  inLen : Word
  /-- R39. -/
  status : Status
  /-- R39 (BUSY), R165. -/
  inFlight : Option Job
  /-- R40, R41, R43. -/
  report : Report
  /-- R46. -/
  dropCnt : Word
  /-- R50 to R56. -/
  dp : Datapath
  /-- R58, R82, R83: INBUF and OUTBUF at their bus addresses. -/
  mem : Memory
  /-- Log 5. -/
  work : Work
  /-- Log 2. -/
  inputs : List Input
  /-- Log 6: the data of the last read. -/
  busData : Word
  /-- Log 3: number of resets. -/
  epoch : Nat
  /-- Log 4, log 7: number of free values drawn. -/
  draws : Nat
  deriving DecidableEq, Repr

/-- Why the machine stops. -/
inductive Fault where
  /-- Raised by the engine when a non-empty block would run under a reserved CTRL selection (R126). START refuses those, so no
  state that a run reaches raises it. Safe: the machine stops where the spec gives no effect. -/
  | reservedSelection
  deriving DecidableEq, Repr

/-- Why an instruction has no meaning. -/
inductive Refusal where
  /-- Raised by exec for an instruction without a meaning; no arm uses it. Safe. -/
  | notModelled (mnemonic : String)
  deriving DecidableEq, Repr

/-- The outcome of one step of this machine. -/
abbrev Outcome := Host.Outcome State Fault Refusal

/-- RESULT = 0. -/
def BlockFlags.clear : BlockFlags := { active := false, muted := false, hop := false, term := false, sqEval := false }

/-- STATUS = 0 but for BUSY. -/
def Status.clear : Status :=
  { running := false, terminated := false, cfgErr := false, inputErr := false, cmdErr := false, busyErr := false,
    lockErr := false, busErr := false }

/-- No block is in work. -/
def Work.empty : Work := { xs := [], z := [], y := [], mad := none, flags := BlockFlags.clear }

/-- R62, R394. The configuration after reset. -/
def ConfigRegs.reset : ConfigRegs :=
  { ctrl :=
      { firEn := false, deemphEn := false, dcEn := false, multichan := false, demod := 0#3, atanSel := 0#2,
        sqSrc := false },
    downsample := 1#9, outputScale := 1#16, sqLevel := 0#32, sqThresh := 0#32, deemphA := 1#16 }

/-- R62. The report registers after reset. -/
def Report.reset : Report := { result := BlockFlags.clear, outLen := 0#32, madI := 0#32, madQ := 0#32 }

/-- R62. The datapath state after reset. -/
def Datapath.reset : Datapath :=
  { nowR := 0, nowJ := 0, prevIndex := 0, preR := 0, preJ := 0, deemphAvg := 0, dcAvg := 0, hits := 0,
    taps := List.replicate 256 0#8, tapSum := 0 }

/-- R62, R391. The block right after reset, with nothing for the host to do. -/
def State.reset : State :=
  { params := Config.defaultParams, cfg := ConfigRegs.reset, inLen := 0#32, status := Status.clear,
    inFlight := none, report := Report.reset, dropCnt := 0#32, dp := Datapath.reset, mem := [],
    work := Work.empty, inputs := [], busData := 0#32, epoch := 0, draws := 0 }

end Sys2Proof.Machine
end

