-- ==== Sys2Proof/Machine/Flags.lean ====
section
/-! DEFINITION. The block's flags: STATUS (R39) and RESULT (R40), as words and as bits. No arithmetic flag exists (R60). -/

namespace Sys2Proof.Machine

/-- R39 (BUSY): a PROCESS is in flight. -/
def State.busy (s : State) : Bool := s.inFlight.isSome

/-- R39. STATUS as a word. -/
def statusWord (busy : Bool) (st : Status) : Word :=
  0#23 ++ BitVec.ofBool st.busErr ++ BitVec.ofBool st.lockErr ++ BitVec.ofBool st.busyErr ++ BitVec.ofBool st.cmdErr ++
    BitVec.ofBool st.inputErr ++ BitVec.ofBool st.cfgErr ++ BitVec.ofBool st.terminated ++ BitVec.ofBool st.running ++
    BitVec.ofBool busy

/-- R40. RESULT as a word. -/
def resultWord (f : BlockFlags) : Word :=
  0#27 ++ BitVec.ofBool f.sqEval ++ BitVec.ofBool f.term ++ BitVec.ofBool f.hop ++ BitVec.ofBool f.muted ++
    BitVec.ofBool f.active

/-- R351. Setting the sticky bit of an error cause. -/
def setErr (e : Err) (st : Status) : Status :=
  match e with
  | .cfg => { st with cfgErr := true }
  | .input => { st with inputErr := true }
  | .cmd => { st with cmdErr := true }
  | .busy => { st with busyErr := true }
  | .lock => { st with lockErr := true }
  | .bus => { st with busErr := true }

/-- R351. Whether the sticky bit of an error cause is set. -/
def errBit (e : Err) (st : Status) : Bool :=
  match e with
  | .cfg => st.cfgErr
  | .input => st.inputErr
  | .cmd => st.cmdErr
  | .busy => st.busyErr
  | .lock => st.lockErr
  | .bus => st.busErr

/-- R171. `STATUS[8:2] <- 0`. -/
def clearSticky (st : Status) : Status :=
  { st with terminated := false, cfgErr := false, inputErr := false, cmdErr := false, busyErr := false, lockErr := false,
            busErr := false }

/-- R293: the flags of an active block. -/
def flagsActive : BlockFlags := { active := true, muted := false, hop := false, term := false, sqEval := true }

/-- R293: the flags of an inactive block whose counter has not passed the threshold. -/
def flagsTolerated : BlockFlags := { active := false, muted := false, hop := false, term := false, sqEval := true }

/-- R293, R296: the flags of a hop request. -/
def flagsHop : BlockFlags := { active := false, muted := false, hop := true, term := false, sqEval := true }

/-- R293, R295, R297: the flags of a muted block, which also terminates the run or not. -/
def flagsMuted (term : Bool) : BlockFlags := { active := false, muted := true, hop := false, term := term, sqEval := true }

end Sys2Proof.Machine
end

