-- ==== Sys2Proof/Machine/Taps.lean ====
section
/-! DEFINITION. The tap table FIR_TAPS(d) of 41_decimation.md R205 and R206. -/

namespace Sys2Proof.Machine

/-- One, in the fixed-point scale of the cosine. -/
def cosOne : Nat := 10 ^ 15

/-- Pi, in the same scale, rounded. -/
def cosPi : Nat := 3141592653589793

/-- The cosine's series from term `k` on, with `terms` terms left: `term` is `t^k / (2k)!` and `t` the squared angle, all in
the scale `cosOne`. -/
def cosSeries (t : Nat) : (terms k term : Nat) → Int
  | 0, _, _ => 0
  | terms + 1, k, term =>
    (if k % 2 = 0 then (term : Int) else -(term : Int)) +
      cosSeries t terms (k + 1) (term * t / cosOne / ((2 * k + 1) * (2 * k + 2)))

/-- `cos (pi * m / n)` in the scale `cosOne`, for `m ≤ n` and `0 < n`; exact at `m = 0`. Log 13. -/
def cosScaled (m n : Nat) : Int :=
  let angle := cosPi * m / n
  cosSeries (angle * angle / cosOne) 16 0 cosOne

/-- R205 for `d ≥ 2`, with `cos(2 pi i / (d - 1)) = -cos(pi |d - 1 - 2 i| / (d - 1))`; R206 for `d = 1`. Log 13. -/
def hammingTap (d i : Nat) : Nat :=
  if d ≤ 1 then 255
  else
    let m := ((d : Int) - 1 - 2 * (i : Int)).natAbs
    (255 * (54 * (cosOne : Int) + 46 * cosScaled m (d - 1)) / (100 * (cosOne : Int))).toNat

/-- R205. Tap `i` of FIR_TAPS(d). -/
def firTap (table : Config.TapTable) (d i : Nat) : Byte :=
  match table with
  | .hamming => BitVec.ofNat 8 (hammingTap d i)
  | .rows t => (t.getD (d - 1) []).getD i 0#8

/-- R205. FIR_TAPS(d), a list of `d` taps. -/
def firTaps (table : Config.TapTable) (d : Nat) : List Byte := (List.range d).map (firTap table d)

/-- The sum of a list of taps (R56). -/
def tapTotal (taps : List Byte) : Nat := (taps.map BitVec.toNat).sum

end Sys2Proof.Machine
end

