-- ==== Sys2Proof/Machine/Operands.lean ====
section
/-! DEFINITION. Operand assembly (30_encoding.md R127), the CTRL word (R31, R120), and START's checks (R162). -/

namespace Sys2Proof.Machine

/-- R31. The fields of a word written to CTRL. -/
def ctrlOfWord (v : Word) : Ctrl :=
  { firEn := v.getLsbD 0, deemphEn := v.getLsbD 1, dcEn := v.getLsbD 2, multichan := v.getLsbD 3,
    demod := v.extractLsb' 4 3, atanSel := v.extractLsb' 8 2, sqSrc := v.getLsbD 10 }

/-- R31. CTRL as a word; bits of no field read 0 (bit 7 among them: log 10). -/
def ctrlWord (c : Ctrl) : Word :=
  0#21 ++ BitVec.ofBool c.sqSrc ++ c.atanSel ++ 0#1 ++ c.demod ++ BitVec.ofBool c.multichan ++ BitVec.ofBool c.dcEn ++
    BitVec.ofBool c.deemphEn ++ BitVec.ofBool c.firEn

/-- R127. `d`. -/
def ConfigRegs.d (c : ConfigRegs) : Nat := c.downsample.toNat

/-- R127. `scale`. -/
def ConfigRegs.scale (c : ConfigRegs) : Nat := c.outputScale.toNat

/-- R127. `level`. -/
def ConfigRegs.level (c : ConfigRegs) : Nat := c.sqLevel.toNat

/-- R127, R35. `T`. -/
def ConfigRegs.thresh (c : ConfigRegs) : Int := c.sqThresh.toInt

/-- R127. `a`. -/
def ConfigRegs.divisor (c : ConfigRegs) : Nat := c.deemphA.toNat

/-- R162. `config_ok()`: START's seven checks. -/
def configOk (p : Config.Params) (c : ConfigRegs) : Bool :=
  (1 ≤ c.d && c.d ≤ 256) &&
  c.ctrl.demod.toNat ≤ 4 &&
  (c.ctrl.demod != 0#3 || c.ctrl.atanSel.toNat ≤ 2) &&
  c.sqThresh != 0x80000000#32 &&
  !(c.ctrl.multichan && c.sqLevel == 0#32) &&
  !(c.ctrl.deemphEn && c.deemphA == 0#16) &&
  !(c.ctrl.firEn && tapTotal (firTaps p.firTaps c.d) == 0)

/-- R161, R163. The 256 taps that START latches. -/
def latchedTaps (p : Config.Params) (c : ConfigRegs) : List Byte :=
  if c.ctrl.firEn then (List.range 256).map (fun i => if i < c.d then firTap p.firTaps c.d i else 0#8)
  else List.replicate 256 0#8

/-- R161, R163. The tap sum that START latches. -/
def latchedTapSum (p : Config.Params) (c : ConfigRegs) : Nat :=
  if c.ctrl.firEn then tapTotal (firTaps p.firTaps c.d) else 0

end Sys2Proof.Machine
end

