-- ==== Sys2Proof/Machine/Ops.lean ====
section
/-! DEFINITION. The named operations over memory, registers and the state that the meanings share. -/

namespace Sys2Proof.Machine

/-- The byte listed at an address, if one is. -/
def Memory.read? : Memory → Nat → Option Byte
  | [], _ => none
  | c :: m, a => if c.1 = a then some c.2 else Memory.read? m a

/-- Writing one byte; keeps the addresses strictly rising. -/
def Memory.write : Memory → Nat → Byte → Memory
  | [], a, v => [(a, v)]
  | c :: m, a, v =>
    if a < c.1 then (a, v) :: c :: m else if a = c.1 then (a, v) :: m else c :: Memory.write m a v

/-- R85. `n` bytes as a little-endian value. -/
def assembleLE (f : Nat → Byte) : (n : Nat) → Word
  | 0 => 0#32
  | n + 1 => assembleLE f n ||| ((f n).setWidth 32 <<< (8 * n))

/-- R85. Byte `k` of a little-endian value. -/
def byteOf (w : Word) (k : Nat) : Byte := w.extractLsb' (8 * k) 8

/-- R13, R85. MemWrite: the low `n` bytes of `w` at address `a` on. -/
def Memory.storeLE (m : Memory) (a : Nat) : (n : Nat) → (w : Word) → Memory
  | 0, _ => m
  | n + 1, w => (Memory.storeLE m a n w).write (a + n) (byteOf w n)

/-- R393, R185. One byte of a buffer at a bus address: the byte written since reset, or the free value that the reset left. -/
def readByte (s : State) (a : Nat) : Byte := (s.mem.read? a).getD (Config.bufferByte s.epoch a)

/-- R13, R85. MemRead of `n` bytes at a bus address. -/
def readLE (s : State) (a n : Nat) : Word := assembleLE (fun k => readByte s (a + k)) n

/-- R93. What a read of `n` bytes of OUTBUF gives while busy: one draw a byte. -/
def drawnLE (draws n : Nat) : Word := assembleLE (fun k => Config.busyByte (draws + k)) n

/-- R13, R350. `raise Err(e)`: the one way an error is taken. It sets the sticky bit and does nothing else; there is no saved
state, no mode and no handler (R357). -/
def raise (e : Err) (s : State) : State := { s with status := setErr e s.status }

/-- What a read access answers (log 6). -/
def answer (v : Word) (s : State) : State := { s with busData := v }

/-- R84, R88, R89. An access that fails the bus checks: no effect but BUS_ERR, and a read returns 0. -/
def busError (access : Access) (s : State) : State :=
  match access with
  | .read => answer 0#32 (raise .bus s)
  | .write _ => raise .bus s

/-- R88, R89. Natural alignment. -/
def aligned (addr : Word) (size : Size) : Bool := addr.toNat % size.bytes == 0

/-- R81, R89. A REG access is inside the 4 KiB, 32-bit and aligned. -/
def regAccessOk (addr : Word) (size : Size) : Bool :=
  addr.toNat < Config.regBytes && size == .word && aligned addr .word

/-- R82, R84, R88, R185. An INBUF access is aligned and inside the buffer (every byte of it: log 11). -/
def inbufAccessOk (s : State) (addr : Word) (size : Size) : Bool :=
  aligned addr size && Config.inbufBase ≤ addr.toNat &&
    addr.toNat + size.bytes ≤ Config.inbufBase + s.params.inBufBytes

/-- R83, R84, R88, R186. An OUTBUF access is aligned and inside the buffer of twice INBUF's size. -/
def outbufAccessOk (s : State) (addr : Word) (size : Size) : Bool :=
  aligned addr size && Config.outbufBase ≤ addr.toNat &&
    addr.toNat + size.bytes ≤ Config.outbufBase + 2 * s.params.inBufBytes

/-- R180, R30 to R49. What a register reads as. -/
def readReg (r : Reg) (s : State) : Word :=
  match r with
  | .id => Config.idValue
  | .ctrl => ctrlWord s.cfg.ctrl
  | .downsample => s.cfg.downsample.setWidth 32
  | .outputScale => s.cfg.outputScale.setWidth 32
  | .sqLevel => s.cfg.sqLevel
  | .sqThresh => s.cfg.sqThresh
  | .deemphA => s.cfg.deemphA.setWidth 32
  | .inLen => s.inLen
  | .command => 0#32
  | .status => statusWord s.busy s.status
  | .result => resultWord s.report.result
  | .outLen => s.report.outLen
  | .sqHits => BitVec.ofNat 32 s.dp.hits
  | .madI => s.report.madI
  | .madQ => s.report.madQ
  | .tapSum => BitVec.ofNat 32 s.dp.tapSum
  | .dropCnt => s.dropCnt
  | .stNowR => wrap32 s.dp.nowR
  | .stNowJ => wrap32 s.dp.nowJ
  | .stPrevIndex => BitVec.ofNat 32 s.dp.prevIndex
  | .stPreR => wrap32 s.dp.preR
  | .stPreJ => wrap32 s.dp.preJ
  | .stDeemphAvg => wrap32 s.dp.deemphAvg
  | .stDcAvg => wrap32 s.dp.dcAvg
  | .coef k => (s.dp.taps.getD k 0#8).setWidth 32
  | .reserved => 0#32

/-- R181, R183. A write to a locked register: LOCK_ERR while running, else the new configuration. -/
def writeLocked (c : ConfigRegs) (s : State) : State :=
  if s.status.running then raise .lock s else { s with cfg := c }

/-- R181, R184. A write to IN_LEN. -/
def writeInLen (v : Word) (s : State) : State :=
  if s.busy then raise .busy s else { s with inLen := v }

/-- R181 to R184, but for COMMAND, which issues a command (Machine/Bus.lean): what a write to a register does. -/
def writeReg (r : Reg) (v : Word) (s : State) : State :=
  match r with
  | .ctrl => writeLocked { s.cfg with ctrl := ctrlOfWord v } s
  | .downsample => writeLocked { s.cfg with downsample := v.setWidth 9 } s
  | .outputScale => writeLocked { s.cfg with outputScale := v.setWidth 16 } s
  | .sqLevel => writeLocked { s.cfg with sqLevel := v } s
  | .sqThresh => writeLocked { s.cfg with sqThresh := v } s
  | .deemphA => writeLocked { s.cfg with deemphA := v.setWidth 16 } s
  | .inLen => writeInLen v s
  | .id => s
  | .command => s
  | .status => s
  | .result => s
  | .outLen => s
  | .sqHits => s
  | .madI => s
  | .madQ => s
  | .tapSum => s
  | .dropCnt => s
  | .stNowR => s
  | .stNowJ => s
  | .stPrevIndex => s
  | .stPreR => s
  | .stPreJ => s
  | .stDeemphAvg => s
  | .stDcAvg => s
  | .coef _ => s
  | .reserved => s

/-- R390, R62. A reset: every piece of the block's state takes its reset value, and the buffers hold new unspecified bytes. What
is not the block's own is kept: the parameters, the host's pending accesses and last answer, the count of draws. -/
def resetBlock (s : State) : State :=
  { State.reset with params := s.params, inputs := s.inputs, busData := s.busData, epoch := s.epoch + 1, draws := s.draws }

/-- R161, R164. What a successful START does. -/
def startRun (s : State) : State :=
  { s with
    dp := { Datapath.reset with taps := latchedTaps s.params s.cfg, tapSum := latchedTapSum s.params s.cfg },
    report := Report.reset,
    status := { s.status with terminated := false, running := true } }

/-- R128. The `n` recentred samples at INBUF offset `2 * k` on. -/
def inputSamples (s : State) : (k n : Nat) → List Sample
  | _, 0 => []
  | k, n + 1 =>
    decodeSample (readByte s (Config.inbufBase + 2 * k)) (readByte s (Config.inbufBase + 2 * k + 1)) ::
      inputSamples s (k + 1) n

/-- R168, R87. The output values stored from bus address `a` on, 16 bits each. -/
def storeOutputs (m : Memory) (a : Nat) : List Int → Memory
  | [] => m
  | v :: y => storeOutputs (m.storeLE a 2 ((encodeOutput v).setWidth 32)) (a + 2) y

end Sys2Proof.Machine
end

