-- ==== Sys2Proof/Machine/Commands.lean ====
section
/-! DEFINITION. The host commands (40_host_commands.md section 1). A busy block is checked before a command's own checks (R174). -/

namespace Sys2Proof.Machine

/-- R46. DROP_CNT plus one, saturating. -/
def incSaturating (w : Word) : Word := if w = 0xFFFFFFFF#32 then w else w + 1#32

/-- R165. The engine takes a block; its latency is the next free value (R364, log 4). -/
def issueBlock (s : State) : State :=
  { s with inFlight := some { len := s.inLen.toNat, wait := Config.processLatency s.draws }, draws := s.draws + 1 }

/-- R166. Whether PROCESS accepts IN_LEN. -/
def lengthOk (s : State) : Bool := s.inLen.toNat % 2 == 0 && s.inLen.toNat ≤ s.params.inBufBytes

/-- R160. NOP. -/
def execNop (s : State) : Outcome := .next s

/-- R161, R162, R174. START. -/
def execStart (s : State) : Outcome :=
  if s.busy then .next (raise .busy s)
  else if s.status.running then .next (raise .cmd s)
  else if configOk s.params s.cfg then .next (startRun s)
  else .next (raise .cfg s)

/-- R165, R166, R174. PROCESS. -/
def execProcess (s : State) : Outcome :=
  if s.busy then .next { s with dropCnt := incSaturating s.dropCnt }
  else if s.status.running = false then .next (raise .cmd s)
  else if lengthOk s then .next (issueBlock s)
  else .next (raise .input s)

/-- R170, R174. STOP. -/
def execStop (s : State) : Outcome :=
  if s.busy then .next (raise .busy s)
  else .next { s with status := { s.status with running := false } }

/-- R171. CLEAR_STATUS. -/
def execClearStatus (s : State) : Outcome := .next { s with status := clearSticky s.status }

/-- R172. SOFT_RESET. -/
def execSoftReset (s : State) : Outcome := .next (resetBlock s)

end Sys2Proof.Machine
end

