-- ==== Sys2Proof/Machine/Bus.lean ====
section
/-! DEFINITION. Host bus accesses (40_host_commands.md section 2), in the check order of 60_exceptions.md R355. -/

namespace Sys2Proof.Machine

/-- R38, R122, R173. A word written to COMMAND: the command it encodes, or CMD_ERR. -/
def issueCommand (w : Word) (s : State) : Outcome :=
  match decodeCommand w with
  | some .nop => execNop s
  | some .start => execStart s
  | some .process => execProcess s
  | some .stop => execStop s
  | some .clearStatus => execClearStatus s
  | some .softReset => execSoftReset s
  | none => .next (raise .cmd s)

/-- R180, R89. REG_READ. -/
def execRegRead (addr : Word) (size : Size) (s : State) : Outcome :=
  if regAccessOk addr size then .next (answer (readReg (regAt addr.toNat) s) s) else .next (busError .read s)

/-- R181, R89. REG_WRITE. -/
def execRegWrite (addr : Word) (size : Size) (data : Word) (s : State) : Outcome :=
  if regAccessOk addr size then
    if regAt addr.toNat = .command then issueCommand data s else .next (writeReg (regAt addr.toNat) data s)
  else .next (busError (.write data) s)

/-- R185, R84, R88, R92. INBUF_ACCESS, read or write. -/
def execInbufAccess (addr : Word) (size : Size) (access : Access) (s : State) : Outcome :=
  if inbufAccessOk s addr size then
    match access with
    | .read => .next (answer (readLE s addr.toNat size.bytes) s)
    | .write data =>
      if s.busy then .next (raise .busy s)
      else .next { s with mem := s.mem.storeLE addr.toNat size.bytes data }
  else .next (busError access s)

/-- R186, R83, R84, R88, R93. OUTBUF_READ; a write raises BUS_ERR. -/
def execOutbufRead (addr : Word) (size : Size) (access : Access) (s : State) : Outcome :=
  match access with
  | .read =>
    if outbufAccessOk s addr size then
      if s.busy then .next { answer (drawnLE s.draws size.bytes) s with draws := s.draws + size.bytes }
      else .next (answer (readLE s addr.toNat size.bytes) s)
    else .next (busError .read s)
  | .write data => .next (busError (.write data) s)

end Sys2Proof.Machine
end

