-- ==== Sys2Proof/Machine/Decimation.lean ====
section
/-! DEFINITION. The two decimators (41_decimation.md): accumulate and dump over windows of `d` samples. -/

namespace Sys2Proof.Machine

/-- R50, R51. The accumulators and the phase index. -/
structure Accum where
  r : Int
  j : Int
  p : Nat
  deriving DecidableEq, Repr

/-- R201, R203. The loop of both decimators: sample at phase `p` weighted by `weight p`, a completed sum turned into an output
by `dump`. -/
def accumulate (d : Nat) (weight : Nat → Int) (dump : Int → Int) : (acc : Accum) → List Sample → List Sample × Accum
  | acc, [] => ([], acc)
  | acc, x :: xs =>
    let r := acc.r + x.i * weight acc.p
    let j := acc.j + x.q * weight acc.p
    if acc.p + 1 = d then
      let rest := accumulate d weight dump { r := 0, j := 0, p := 0 } xs
      ({ i := dump r, q := dump j } :: rest.1, rest.2)
    else accumulate d weight dump { r := r, j := j, p := acc.p + 1 } xs

/-- The accumulators of a state. -/
def accumOf (s : State) : Accum := { r := s.dp.nowR, j := s.dp.nowJ, p := s.dp.prevIndex }

/-- R201. Boxcar: every weight 1, the sum unscaled (R202). -/
def boxcar (d : Nat) (acc : Accum) (xs : List Sample) : List Sample × Accum :=
  accumulate d (fun _ => 1) (fun v => v) acc xs

/-- R207. The weight at a phase index. -/
def tapWeight (taps : List Byte) (p : Nat) : Int := ((taps.getD p 0#8).toNat : Int)

/-- R204. Gain normalisation: multiply by `d` first, then divide by the tap sum, toward zero. -/
def firGain (d tapSum : Nat) (v : Int) : Int := tdiv (v * (d : Int)) (tapSum : Int)

/-- R203. FIR: the sample at phase `p` weighted by tap `p` (R207). -/
def fir (d : Nat) (taps : List Byte) (tapSum : Nat) (acc : Accum) (xs : List Sample) : List Sample × Accum :=
  accumulate d (tapWeight taps) (firGain d tapSum) acc xs

/-- The decimated list and the accumulators after it, put into the state. -/
def putDecimated (out : List Sample × Accum) (s : State) : State :=
  { s with
    dp := { s.dp with nowR := out.2.r, nowJ := out.2.j, prevIndex := out.2.p },
    work := { s.work with z := out.1 } }

/-- R201. DECIM_BOXCAR. -/
def execDecimBoxcar (s : State) : Outcome := .next (putDecimated (boxcar s.cfg.d (accumOf s) s.work.xs) s)

/-- R203. DECIM_FIR. -/
def execDecimFir (s : State) : Outcome :=
  .next (putDecimated (fir s.cfg.d s.dp.taps s.dp.tapSum (accumOf s) s.work.xs) s)

end Sys2Proof.Machine
end

