-- ==== Sys2Proof/Machine/Arctan.lean ====
section
/-! DEFINITION. The three arctangents of 42_demodulators.md R241 to R246, on exact integers. Angles are in units of which pi
has 16384. -/

namespace Sys2Proof.Machine

/-- For a point `(a, b)` of the upper half plane at the angle `t` (in [0, pi]): the whole part of `2^n * t / pi`. Doubling the
angle squares the complex number, so the count is exact whatever the size of the integers. -/
def halfTurns : (n : Nat) → (a b : Int) → Nat
  | 0, a, b => if b = 0 ∧ a < 0 then 1 else 0
  | n + 1, a, b =>
    if 0 < a then halfTurns n (a * a - b * b) (2 * a * b) else 2 ^ n + halfTurns n (b * b - a * a) (-(2 * a * b))

/-- R246. The sign of the quadrant correction. -/
def ySign (y : Int) : Int := if y < 0 then -1 else 1

/-- R242, R244. The integer nearest to `(2^14 / pi) * atan2 y x`, for `(y, x)` not both 0. Log 8. -/
def nearestAngle (y x : Int) : Int := ySign y * (((halfTurns 15 x y.natAbs + 1) / 2 : Nat) : Int)

/-- R242, R241. ATAN_EXACT: the parameter's value at `(y, x)` if one is given, else the nearest integer; 0 at the origin. Log 8. -/
def atanExact (p : Config.Params) (y x : Int) : Int :=
  if x = 0 ∧ y = 0 then 0
  else
    match p.exactPoints.find? (fun t => t.y == y && t.x == x) with
    | some t => t.value
    | none => nearestAngle y x

/-- R246. QUAD. -/
def quad (a0 y x : Int) : Int := ySign y * (if 0 ≤ x then a0 else 16384 - a0)

/-- R243. The numerator of `P(n / q)` over `den * q^9`. -/
def fastNumerator (c : Config.FastParams) (n q : Int) : Int :=
  n * (c.b1 * q ^ 8 + c.b3 * (n ^ 2 * q ^ 6) + c.b5 * (n ^ 4 * q ^ 4) + c.b7 * (n ^ 6 * q ^ 2) + c.b9 * n ^ 8)

/-- R243, R12. `rhazQ(P(n / q))` for `q > 0`: rounding a fraction is rhaz of its numerator by its denominator. -/
def fastRounded (c : Config.FastParams) (n q : Int) : Int := rhaz (fastNumerator c n q) ((c.den : Int) * q ^ 9)

/-- R243, R241. ATAN_FAST. -/
def atanFast (p : Config.Params) (y x : Int) : Int :=
  if x = 0 ∧ y = 0 then 0
  else
    let ax : Int := x.natAbs
    let ay : Int := y.natAbs
    quad (if ay ≤ ax then fastRounded p.fast ay ax else 8192 - fastRounded p.fast ax ay) y x

/-- R244. LUT_TABLE[k]: the integer nearest to `(2^14 / pi) * atan (k / 2^LUT_COEF)`, or the entry given (0 where a given table has
none). Log 9. -/
def lutEntry (c : Config.LutParams) (k : Nat) : Int :=
  match c.table with
  | .nearest => nearestAngle k (2 ^ c.coef)
  | .entries t => t.getD k 0

/-- R245. The first-quadrant angle of ATAN_LUT: the table's entry while the index is in its domain, else the linear fallback. -/
def lutAngle (c : Config.LutParams) (ay ax : Nat) : Int :=
  if 0 < ax ∧ ay * 2 ^ c.coef / ax < c.size then lutEntry c (ay * 2 ^ c.coef / ax) else 8192 - rhaz (c.fallback * ax) ay

/-- R245, R241. ATAN_LUT. -/
def atanLut (p : Config.Params) (y x : Int) : Int :=
  if x = 0 ∧ y = 0 then 0 else quad (lutAngle p.lut y.natAbs x.natAbs) y x

end Sys2Proof.Machine
end

