-- ==== Sys2Proof/Machine/Demodulators.lean ====
section
/-! DEFINITION. The demodulators (42_demodulators.md R248 to R256). -/

namespace Sys2Proof.Machine

/-- R248. The imaginary part of `z * conj p`. -/
def productIm (p z : Sample) : Int := z.q * p.i - z.i * p.q

/-- R248. The real part of `z * conj p`. -/
def productRe (p z : Sample) : Int := z.i * p.i + z.q * p.q

/-- R249. The FM outputs for decimated samples that follow the history `p`. -/
def discriminate (atan : Int → Int → Int) : (p : Sample) → List Sample → List Int
  | _, [] => []
  | p, z :: zs => atan (productIm p z) (productRe p z) :: discriminate atan z zs

/-- R52. The FM history of a state. -/
def historyOf (s : State) : Sample := { i := s.dp.preR, q := s.dp.preJ }

/-- R249. The history after a block: its last decimated sample, or the old history. -/
def historyAfter (p : Sample) (z : List Sample) : Sample := z.getLastD p

/-- R250 to R252. FM with one of the arctangents. -/
def demodFm (atan : Int → Int → Int) (s : State) : State :=
  { s with
    dp :=
      { s.dp with
        preR := (historyAfter (historyOf s) s.work.z).i,
        preJ := (historyAfter (historyOf s) s.work.z).q },
    work := { s.work with y := discriminate atan (historyOf s) s.work.z } }

/-- R253 to R255. A demodulator that turns each decimated sample into one value. -/
def demodEach (f : Sample → Int) (s : State) : State := { s with work := { s.work with y := s.work.z.map f } }

/-- R253. -/
def amValue (scale : Nat) (z : Sample) : Int :=
  sat16 ((isqrt (z.i * z.i + z.q * z.q).toNat : Int) * (scale : Int))

/-- R254. -/
def usbValue (scale : Nat) (z : Sample) : Int := sat16 ((z.i + z.q) * (scale : Int))

/-- R255. -/
def lsbValue (scale : Nat) (z : Sample) : Int := sat16 ((z.i - z.q) * (scale : Int))

/-- R256. I then Q of each sample, unscaled. -/
def rawValues : List Sample → List Int
  | [] => []
  | z :: zs => sat16 z.i :: sat16 z.q :: rawValues zs

/-- R250. DEMOD_FM_EXACT. -/
def execDemodFmExact (s : State) : Outcome := .next (demodFm (atanExact s.params) s)

/-- R251. DEMOD_FM_FAST. -/
def execDemodFmFast (s : State) : Outcome := .next (demodFm (atanFast s.params) s)

/-- R252. DEMOD_FM_LUT. -/
def execDemodFmLut (s : State) : Outcome := .next (demodFm (atanLut s.params) s)

/-- R253. DEMOD_AM. -/
def execDemodAm (s : State) : Outcome := .next (demodEach (amValue s.cfg.scale) s)

/-- R254. DEMOD_USB. -/
def execDemodUsb (s : State) : Outcome := .next (demodEach (usbValue s.cfg.scale) s)

/-- R255. DEMOD_LSB. -/
def execDemodLsb (s : State) : Outcome := .next (demodEach (lsbValue s.cfg.scale) s)

/-- R256. DEMOD_RAW; the chain has no later stage (R124), so PROCESS completes at once with RESULT 0 and MAD unchanged. -/
def execDemodRaw (s : State) : Outcome := .next { s with work := { s.work with y := rawValues s.work.z } }

end Sys2Proof.Machine
end

