-- ==== Sys2Proof/Machine/PostProcess.lean ====
section
/-! DEFINITION. De-emphasis and DC removal (44_postprocess.md). -/

namespace Sys2Proof.Machine

/-- R321. One step of the one-pole low-pass. -/
def deemphStep (a : Nat) (avg v : Int) : Int := avg + rhaz (v - avg) (a : Int)

/-- R321. The filtered values. -/
def deemphValues (a : Nat) : (avg : Int) → List Int → List Int
  | _, [] => []
  | avg, v :: y => deemphStep a avg v :: deemphValues a (deemphStep a avg v) y

/-- R321. The average after a list of values. -/
def deemphAfter (a : Nat) (avg : Int) (y : List Int) : Int := y.foldl (deemphStep a) avg

/-- R321. DEEMPH. -/
def execDeemph (s : State) : Outcome :=
  .next
    { s with
      dp := { s.dp with deemphAvg := deemphAfter s.cfg.divisor s.dp.deemphAvg s.work.y },
      work := { s.work with y := deemphValues s.cfg.divisor s.dp.deemphAvg s.work.y } }

/-- R326. The blended average of a non-empty block. -/
def dcBlend (avg : Int) (y : List Int) : Int := tdiv (tdiv y.sum (y.length : Int) + 9 * avg) 10

/-- R326, R328. DCBLOCK. -/
def execDcblock (s : State) : Outcome :=
  if s.work.y.length = 0 then .next s
  else
    .next
      { s with
        dp := { s.dp with dcAvg := dcBlend s.dp.dcAvg s.work.y },
        work := { s.work with y := s.work.y.map (fun v => sat16 (v - dcBlend s.dp.dcAvg s.work.y)) } }

end Sys2Proof.Machine
end

