-- ==== Sys2Proof/Machine/Squelch.lean ====
section
/-! DEFINITION. The squelch comparator (43_squelch.md). -/

namespace Sys2Proof.Machine

/-- R291. The mean of a rail, truncated toward zero. -/
def railMean (v : List Int) : Int := tdiv v.sum (v.length : Int)

/-- R291. The mean absolute deviation of a rail; 0 of an empty one. -/
def mad (v : List Int) : Nat :=
  if v.length = 0 then 0 else (v.map (fun x => (x - railMean v).natAbs)).sum / v.length

/-- R291. MAD_RAILS. -/
def madRails (s : List Sample) : Nat × Nat := (mad (s.map Sample.i), mad (s.map Sample.q))

/-- R292. The samples that the squelch measures: the input (PRE) or the decimated ones (POST). No later stage changes either
list, so measuring them here gives what the chain of R124 measures before or after the decimator. -/
def measured (s : State) : List Sample := if s.cfg.ctrl.sqSrc then s.work.z else s.work.xs

/-- R294. The activity test. -/
def isActive (level mi mq : Nat) : Bool := level == 0 || level < mi || level < mq

/-- R298. The counter after an inactive block. -/
def nextHits (hits mag : Nat) : Nat := min (hits + 1) (mag + 1)

/-- R293. The squelch's result put into the state: the counter, the output values, the flags, the measured values. -/
def putSquelch (hits : Nat) (y : List Int) (flags : BlockFlags) (rails : Nat × Nat) (s : State) : State :=
  { s with
    dp := { s.dp with hits := hits },
    work := { s.work with y := y, flags := flags, mad := some rails } }

/-- R295. Every value replaced by 0. -/
def muted (y : List Int) : List Int := y.map (fun _ => 0)

/-- R293. SQUELCH. -/
def execSquelch (s : State) : Outcome :=
  let rails := madRails (measured s)
  let mag := s.cfg.thresh.natAbs
  let hits := nextHits s.dp.hits mag
  if isActive s.cfg.level rails.1 rails.2 then .next (putSquelch 0 s.work.y flagsActive rails s)
  else if hits ≤ mag then .next (putSquelch hits s.work.y flagsTolerated rails s)
  else if s.cfg.ctrl.multichan then .next (putSquelch hits s.work.y flagsHop rails s)
  else .next (putSquelch hits (muted s.work.y) (flagsMuted (decide (s.cfg.thresh < 0))) rails s)

end Sys2Proof.Machine
end

