-- ==== Sys2Proof/Machine/Dispatch.lean ====
section
/-! DEFINITION. The meaning of every instruction, one arm per constructor. -/

namespace Sys2Proof.Machine

def exec (i : Instr) (s : State) : Host.Outcome State Fault Refusal :=
  match i with
  | .nop => Sys2Proof.Machine.execNop s
  | .start => Sys2Proof.Machine.execStart s
  | .process => Sys2Proof.Machine.execProcess s
  | .stop => Sys2Proof.Machine.execStop s
  | .clearStatus => Sys2Proof.Machine.execClearStatus s
  | .softReset => Sys2Proof.Machine.execSoftReset s
  | .decimBoxcar => Sys2Proof.Machine.execDecimBoxcar s
  | .decimFir => Sys2Proof.Machine.execDecimFir s
  | .demodFmExact => Sys2Proof.Machine.execDemodFmExact s
  | .demodFmFast => Sys2Proof.Machine.execDemodFmFast s
  | .demodFmLut => Sys2Proof.Machine.execDemodFmLut s
  | .demodAm => Sys2Proof.Machine.execDemodAm s
  | .demodUsb => Sys2Proof.Machine.execDemodUsb s
  | .demodLsb => Sys2Proof.Machine.execDemodLsb s
  | .demodRaw => Sys2Proof.Machine.execDemodRaw s
  | .squelch => Sys2Proof.Machine.execSquelch s
  | .deemph => Sys2Proof.Machine.execDeemph s
  | .dcblock => Sys2Proof.Machine.execDcblock s
  | .regRead addr size => Sys2Proof.Machine.execRegRead addr size s
  | .regWrite addr size data => Sys2Proof.Machine.execRegWrite addr size data s
  | .inbufAccess addr size access => Sys2Proof.Machine.execInbufAccess addr size access s
  | .outbufRead addr size access => Sys2Proof.Machine.execOutbufRead addr size access s

end Sys2Proof.Machine
end

