-- ==== Sys2Proof/Machine/Engine.lean ====
section
/-! DEFINITION. The engine: PROCESS_BLOCK (40_host_commands.md R167 to R169) and the host's accesses (R121), each one step. -/

namespace Sys2Proof.Machine

/-- R167. The block's recentred samples put in work (R128). -/
def loadBlock (len : Nat) (s : State) : State := { s with work := { Work.empty with xs := inputSamples s 0 (len / 2) } }

/-- R124. A list of datapath operations, run one after the other. -/
def runStages : List Instr → State → Outcome
  | [], s => .next s
  | i :: rest, s =>
    match exec i s with
    | .next t => runStages rest t
    | .fault r => .fault r
    | .refused r => .refused r

/-- R168. STATUS at completion: a terminating block ends the run (R297). -/
def statusAfter (flags : BlockFlags) (st : Status) : Status :=
  if flags.term then { st with running := false, terminated := true } else st

/-- R168. The report registers at completion. -/
def reportAfter (w : Work) (r : Report) : Report :=
  match w.mad with
  | some (mi, mq) =>
    { result := w.flags, outLen := BitVec.ofNat 32 w.y.length, madI := BitVec.ofNat 32 mi, madQ := BitVec.ofNat 32 mq }
  | none => { r with result := w.flags, outLen := BitVec.ofNat 32 w.y.length }

/-- R168, R102. Completion: outputs stored, registers written, BUSY cleared, all at once. -/
def completeBlock (s : State) : State :=
  { s with
    mem := storeOutputs s.mem Config.outbufBase s.work.y,
    report := reportAfter s.work s.report,
    status := statusAfter s.work.flags s.status,
    inFlight := none,
    work := Work.empty }

/-- R167, R169, R126. PROCESS_BLOCK(len): the stages that CTRL selects, in the order of R124, then completion. -/
def processBlock (len : Nat) (s : State) : Outcome :=
  if len = 0 then .next (completeBlock { s with work := Work.empty })
  else if reservedSelection (ctrlWord s.cfg.ctrl) then .fault .reservedSelection
  else
    match runStages (stages (ctrlWord s.cfg.ctrl)) (loadBlock len s) with
    | .next t => .next (completeBlock t)
    | .fault r => .fault r
    | .refused r => .refused r

/-- R121, R84. One host transaction: the instruction it decodes to, or, at an unmapped address, BUS_ERR. -/
def busTransaction (t : Transaction) (s : State) : Outcome :=
  match decode (.bus t) with
  | .ok i => exec i s
  | .error _ => .next (busError t.access s)

/-- The next thing that the outside does; with nothing to do the block keeps its state (R366). -/
def outsideStep (s : State) : Outcome :=
  match s.inputs with
  | [] => .next s
  | .access t :: rest => busTransaction t { s with inputs := rest }
  | .hardwareReset :: rest => .next (resetBlock { s with inputs := rest })

/-- The outside's next entry put in front; an engine that is about to complete waits one step more. -/
def withInput (i : Input) (s : State) : State :=
  { s with
    inputs := i :: s.inputs,
    inFlight := s.inFlight.map (fun j => { j with wait := j.wait + 1 }) }

/-- A block of one sample in flight under a CTRL word, its taps latched: what the engine needs to run the selected stages in
the very next step. Log 12. -/
def withSelection (ctrl : Word) (s : State) : State :=
  let cfg := { s.cfg with ctrl := ctrlOfWord ctrl }
  { s with
    cfg := cfg,
    dp := { s.dp with taps := latchedTaps s.params cfg, tapSum := latchedTapSum s.params cfg },
    status := { s.status with running := true },
    inLen := 2#32,
    inFlight := some { len := 2, wait := 0 },
    mem := (s.mem.write Config.inbufBase 130#8).write (Config.inbufBase + 1) 131#8 }

end Sys2Proof.Machine
end

