-- ==== Sys2Proof/Machine/Step.lean ====
section
/-! DEFINITION. One step of the machine: the engine's completion, or the outside's next access (R356). -/

namespace Sys2Proof.Machine

/-- R356, R364. While a block is in flight and its wait is over, the engine completes it; otherwise the outside acts, and a
block in flight has waited one step more. -/
def step (s : State) : Host.Outcome State Fault Refusal :=
  match s.inFlight with
  | none => outsideStep s
  | some job =>
    match job.wait with
    | 0 => processBlock job.len s
    | n + 1 => outsideStep { s with inFlight := some { job with wait := n } }

/-- The state whose very next step runs the instruction that a word of the opcode table stands for. Log 12. -/
def State.withFetchWord (s : State) (nbits w : Nat) : State :=
  match tableCode nbits w with
  | .cmd c => withInput (.access (commandWrite c)) s
  | .bus t => withInput (.access t) s
  | .ctrl _ _ => withSelection (BitVec.ofNat 32 w) s

end Sys2Proof.Machine
end

