-- ==== Sys2Proof/Safety.lean ====
section
/-! DEFINITION. What a safe state of the block is: the invariants that every step keeps, in the terms the statements use. -/

namespace Sys2Proof.Machine

/-- A recentred input component (R128). -/
def inSampleRange (v : Int) : Prop := -127 ≤ v ∧ v ≤ 128

/-- A decimated component (R212). -/
def inDecimatedRange (v : Int) : Prop := -32512 ≤ v ∧ v ≤ 32768

/-- A 16-bit signed value (R129). -/
def inOutputRange (v : Int) : Prop := -32768 ≤ v ∧ v ≤ 32767

/-- The sum of the weights of the samples that the accumulators hold: the phase index for the boxcar, the first taps for the FIR. -/
def heldWeight (s : State) : Int :=
  if s.cfg.ctrl.firEn then ((tapTotal (s.dp.taps.take s.dp.prevIndex) : Nat) : Int) else (s.dp.prevIndex : Int)

/-- An accumulator against the weight it holds (R50, R212). -/
def accumulatorRange (weight v : Int) : Prop := -127 * weight ≤ v ∧ v ≤ 128 * weight

/-- A bus address of a byte of INBUF or OUTBUF (R82, R83). -/
def inBuffers (p : Config.Params) (a : Nat) : Prop :=
  (Config.inbufBase ≤ a ∧ a < Config.inbufBase + p.inBufBytes) ∨
    (Config.outbufBase ≤ a ∧ a < Config.outbufBase + 2 * p.inBufBytes)

/-- The arctangent parameters (R8) are such that FM keeps its fixed output range, [-16384, 16384] (R9, R248). -/
structure AtanParamsOk (p : Config.Params) : Prop where
  denominator : 0 < p.fast.den
  exactRange : ∀ y x, -16384 ≤ atanExact p y x ∧ atanExact p y x ≤ 16384
  fastRange : ∀ y x, -16384 ≤ atanFast p y x ∧ atanFast p y x ≤ 16384
  lutRange : ∀ y x, -16384 ≤ atanLut p y x ∧ atanLut p y x ≤ 16384

/-- R242. The law of the parameter ATAN_EXACT: each given value is within 1/2 of the real angle. -/
def ExactLaw (p : Config.Params) : Prop :=
  ∀ t ∈ p.exactPoints, |(t.value : ℝ) - 2 ^ 14 / Real.pi * Complex.arg ((t.x : ℂ) + (t.y : ℂ) * Complex.I)| ≤ 1 / 2

/-- R244. The law of the parameter LUT_TABLE, of one entry: it is within 1/2 of the real angle of its ratio. -/
def LutLaw (c : Config.LutParams) (k : Nat) : Prop :=
  |(lutEntry c k : ℝ) - 2 ^ 14 / Real.pi * Real.arctan ((k : ℝ) / 2 ^ c.coef)| ≤ 1 / 2

/-- R245. The entry that ATAN_LUT reads for `(y, x)`, if it reads one, is within the law. -/
def LutReadLawful (c : Config.LutParams) (y x : Int) : Prop :=
  x ≠ 0 → y.natAbs * 2 ^ c.coef / x.natAbs < c.size → LutLaw c (y.natAbs * 2 ^ c.coef / x.natAbs)

/-- The control state is coherent: a legal buffer size (R8), nothing left in work, a block in flight only in a run and with the
accepted length that IN_LEN still holds (R165, R166, R184), a run only under a configuration that START accepted (R162, R105). -/
structure ControlInv (s : State) : Prop where
  bufferSize : s.params.inBufBytes % 2 = 0 ∧ 2 ≤ s.params.inBufBytes ∧ s.params.inBufBytes ≤ 2 ^ 24
  workEmpty : s.work = Work.empty
  busyRuns : s.busy = true → s.status.running = true
  jobAccepted : ∀ j, s.inFlight = some j → j.len = s.inLen.toNat ∧ j.len % 2 = 0 ∧ j.len ≤ s.params.inBufBytes
  runChecked : s.status.running = true → configOk s.params s.cfg = true

/-- The arctangent parameters are legal, the datapath state is within the ranges of R50 to R56, memory is canonical and inside the two buffers, and the report
registers are within theirs. -/
structure DatapathInv (s : State) : Prop where
  control : ControlInv s
  atanParams : AtanParamsOk s.params
  memSorted : s.mem.wf
  memInside : ∀ c ∈ s.mem, inBuffers s.params c.1
  tapsLength : s.dp.taps.length = 256
  tapSumTotal : s.dp.tapSum = tapTotal s.dp.taps
  tapsLatched : s.status.running = true →
    s.dp.taps = latchedTaps s.params s.cfg ∧ s.dp.tapSum = latchedTapSum s.params s.cfg
  phaseBound : s.dp.prevIndex ≤ 255
  phaseInWindow : s.status.running = true → s.dp.prevIndex < s.cfg.d
  nowHeld : s.status.running = true → accumulatorRange (heldWeight s) s.dp.nowR ∧ accumulatorRange (heldWeight s) s.dp.nowJ
  nowBound : accumulatorRange (255 * 255) s.dp.nowR ∧ accumulatorRange (255 * 255) s.dp.nowJ
  history : inDecimatedRange s.dp.preR ∧ inDecimatedRange s.dp.preJ
  averages : inOutputRange s.dp.deemphAvg ∧ inOutputRange s.dp.dcAvg
  hitsBound : s.dp.hits ≤ 2 ^ 31
  hitsInRun : s.status.running = true → s.dp.hits ≤ s.cfg.thresh.natAbs + 1
  outLenBound : s.report.outLen.toNat ≤ s.params.inBufBytes
  madBound : s.report.madI.toNat ≤ 65280 ∧ s.report.madQ.toNat ≤ 65280

/-- A step that the machine can take: it does not stop. -/
def Goes (s : State) : Prop := ∃ t, step s = .next t

/-- The block in flight has waited one step more. -/
def waited (j : Option Job) : Option Job := j.map (fun k => { k with wait := k.wait - 1 })

/-- The outside moves next: no block is in flight, or its wait is not over. -/
def outsideMoves (s : State) : Prop := ∀ j, s.inFlight = some j → j.wait ≠ 0

/-- The state in which the outside's next entry takes effect: the entry taken off, a block in flight having waited. -/
def taken (s : State) : State := { s with inputs := s.inputs.tail, inFlight := waited s.inFlight }

end Sys2Proof.Machine
end

