-- ==== Sys2Proof/Certificates/Slice0/Obligations.lean ====
section
/-! DEFINITION. The statements for the provers, file by file of spec/. -/

open Sys2Proof Sys2Proof.Machine
open scoped BigOperators

/-! Encodings (30_encoding.md). -/

/-- R122, R123. Command words 0 to 5 are the six commands; every other word is rejected as illegal. -/
def Obligations.CommandWordsDecodeOrAreIllegal : Prop :=
  ∀ w : Word,
    (w.toNat ≤ 5 →
      decode (.cmd w) =
        .ok ([Instr.nop, .start, .process, .stop, .clearStatus, .softReset].getD w.toNat .nop)) ∧
    (5 < w.toNat → decode (.cmd w) = .error (.illegalCommand w))

/-- R120 to R125. Decoding the encoding of a well-formed instruction gives the instruction back. -/
def Obligations.DecodeInvertsEncode : Prop :=
  ∀ i : Instr, i.wellFormed = true → decode (encode i) = .ok i

/-- R120 to R125. What the decoder accepts, of any code, is a well-formed instruction. -/
def Obligations.DecodedInstructionsAreWellFormed : Prop :=
  ∀ (c : Code) (i : Instr), decode c = .ok i → i.wellFormed = true

/-- R122, R125, R121. Words written out from the spec's encodings decode to what they stand for. -/
def Obligations.SpecWordsDecode : Prop :=
  decode (.cmd 0x00000002) = .ok .process ∧
  decode (.cmd 0x00000010) = .error (.illegalCommand 0x00000010) ∧
  decode (.ctrl 0x0370 0x0100) = .ok .demodFmFast ∧
  decode (.ctrl 0x0042 0x0002) = .ok .deemph ∧
  decode (.bus { addr := 0x00000024, size := .word, access := .read }) = .ok (.regRead 0x00000024 .word) ∧
  decode (.bus { addr := 0x01000002, size := .half, access := .write 0x807F }) =
    .ok (.inbufAccess 0x01000002 .half (.write 0x807F)) ∧
  decode (.bus { addr := 0x02000000, size := .half, access := .read }) = .ok (.outbufRead 0x02000000 .half .read)

/-- R124, R125, R126. The operations a CTRL selects are one decimator, one demodulator and, outside RAW, the squelch,
de-emphasis when enabled and DC block when enabled, in this order; the reserved selections are DEMOD 5 to 7, and ATAN_SEL 3 with
FM. -/
def Obligations.SelectedStagesFollowTheChain : Prop :=
  ∀ c : Ctrl,
    (reservedSelection (ctrlWord c) = true ↔ 5 ≤ c.demod.toNat ∨ (c.demod = 0#3 ∧ c.atanSel = 3#2)) ∧
    (reservedSelection (ctrlWord c) = false →
      stages (ctrlWord c) =
        [if c.firEn then .decimFir else .decimBoxcar,
          if c.demod = 0#3 then
            (if c.atanSel = 0#2 then .demodFmExact else if c.atanSel = 1#2 then .demodFmFast else .demodFmLut)
          else if c.demod = 1#3 then .demodAm
          else if c.demod = 2#3 then .demodUsb
          else if c.demod = 3#3 then .demodLsb
          else .demodRaw] ++
        (if c.demod = 4#3 then []
         else [.squelch] ++ (if c.deemphEn then [.deemph] else []) ++ (if c.dcEn then [.dcblock] else [])))

/-- R31, R39, R40, R181. The places of the bits of CTRL, STATUS and RESULT; a word written to CTRL reads back the bits of its
fields and 0 elsewhere. (Bit 7 of CTRL is in no field of R31: that it reads 0 is the model's choice, log 10.) -/
def Obligations.RegisterBitLayouts : Prop :=
  (∀ v : Word, ctrlWord (ctrlOfWord v) = v &&& 0x77F) ∧
  (∀ c : Ctrl,
    (ctrlWord c).getLsbD 0 = c.firEn ∧ (ctrlWord c).getLsbD 1 = c.deemphEn ∧ (ctrlWord c).getLsbD 2 = c.dcEn ∧
    (ctrlWord c).getLsbD 3 = c.multichan ∧ (ctrlWord c).extractLsb' 4 3 = c.demod ∧
    (ctrlWord c).extractLsb' 8 2 = c.atanSel ∧ (ctrlWord c).getLsbD 10 = c.sqSrc ∧ (ctrlWord c).getLsbD 7 = false ∧
    ∀ k, 11 ≤ k → (ctrlWord c).getLsbD k = false) ∧
  (∀ (busy : Bool) (st : Status),
    (statusWord busy st).getLsbD 0 = busy ∧ (statusWord busy st).getLsbD 1 = st.running ∧
    (statusWord busy st).getLsbD 2 = st.terminated ∧ (statusWord busy st).getLsbD 3 = st.cfgErr ∧
    (statusWord busy st).getLsbD 4 = st.inputErr ∧ (statusWord busy st).getLsbD 5 = st.cmdErr ∧
    (statusWord busy st).getLsbD 6 = st.busyErr ∧ (statusWord busy st).getLsbD 7 = st.lockErr ∧
    (statusWord busy st).getLsbD 8 = st.busErr ∧ ∀ k, 9 ≤ k → (statusWord busy st).getLsbD k = false) ∧
  (∀ f : BlockFlags,
    (resultWord f).getLsbD 0 = f.active ∧ (resultWord f).getLsbD 1 = f.muted ∧ (resultWord f).getLsbD 2 = f.hop ∧
    (resultWord f).getLsbD 3 = f.term ∧ (resultWord f).getLsbD 4 = f.sqEval ∧
    ∀ k, 5 ≤ k → (resultWord f).getLsbD k = false)

/-- R128. Input sample `k` of a block is the byte pair at INBUF offset `2 k`, recentred at 127, each component in
[-127, 128]. -/
def Obligations.InputSamplesAreRecentredBytes : Prop :=
  ∀ (s : State) (n k : Nat), k < n →
    ∃ x : Sample, (inputSamples s 0 n)[k]? = some x ∧
      x.i = ((readByte s (Config.inbufBase + 2 * k)).toNat : Int) - 127 ∧
      x.q = ((readByte s (Config.inbufBase + 2 * k + 1)).toNat : Int) - 127 ∧
      inSampleRange x.i ∧ inSampleRange x.q

/-! The step (R121, R167, R356, R364). -/

/-- R121, R122 (the list of accesses is the model's, log 2). When the outside moves, the step of a host access is exec of the
instruction it decodes to, on the state with the access taken off (and a block in flight having waited one step); for a COMMAND
write it is exec of the command. -/
def Obligations.StepRunsTheDecodedAccess : Prop :=
  ∀ (s : State) (t : Transaction) (rest : List Input), outsideMoves s → s.inputs = .access t :: rest →
    (∀ i, decode (.bus t) = .ok i → step s = exec i (taken s)) ∧
    (∀ (w : Word) (i : Instr), t = commandWrite w → decode (.cmd w) = .ok i → step s = exec i (taken s))

/-- R167, R102. When a non-empty block's wait is over, the step runs the stages that CTRL selects on the loaded block and
completes, all in one step. -/
def Obligations.StepRunsTheSelectedStages : Prop :=
  ∀ (s : State) (j : Job), s.inFlight = some j → j.wait = 0 → j.len ≠ 0 →
    reservedSelection (ctrlWord s.cfg.ctrl) = false →
    ∃ t, runStages (stages (ctrlWord s.cfg.ctrl)) (loadBlock j.len s) = .next t ∧ step s = .next (completeBlock t)

/-- R84. An access outside the three ranges: a read returns 0 (in `busData`, log 6), a write is ignored, and either raises
BUS_ERR. -/
def Obligations.UnmappedAccessesRaiseBusErr : Prop :=
  ∀ (s : State) (t : Transaction) (rest : List Input), outsideMoves s → s.inputs = .access t :: rest →
    0x1000 ≤ t.addr.toNat →
    ¬(0x01000000 ≤ t.addr.toNat ∧ t.addr.toNat < 0x01000000 + s.params.inBufBytes) →
    ¬(0x02000000 ≤ t.addr.toNat ∧ t.addr.toNat < 0x02000000 + 2 * s.params.inBufBytes) →
    (t.access = .read →
      step s = .next { taken s with busData := 0#32, status := { s.status with busErr := true } }) ∧
    (∀ data, t.access = .write data → step s = .next { taken s with status := { s.status with busErr := true } })

/-! Reset (10_state.md R62, 70_reset_and_hazards.md). -/

/-- R62, R391, R394. What the registers read as after reset; nothing is in flight and no byte of a buffer is written. -/
def Obligations.ResetValues : Prop :=
  (∀ p ∈ [(Reg.id, 0x46445331#32), (.ctrl, 0#32), (.downsample, 1#32), (.outputScale, 1#32), (.sqLevel, 0#32),
      (.sqThresh, 0#32), (.deemphA, 1#32), (.inLen, 0#32), (.command, 0#32), (.status, 0#32), (.result, 0#32),
      (.outLen, 0#32), (.sqHits, 0#32), (.madI, 0#32), (.madQ, 0#32), (.tapSum, 0#32), (.dropCnt, 0#32), (.stNowR, 0#32),
      (.stNowJ, 0#32), (.stPrevIndex, 0#32), (.stPreR, 0#32), (.stPreJ, 0#32), (.stDeemphAvg, 0#32), (.stDcAvg, 0#32)],
    readReg p.1 State.reset = p.2) ∧
  (∀ k, readReg (.coef k) State.reset = 0#32) ∧ State.reset.inFlight = none ∧ State.reset.mem = [] ∧
  configOk State.reset.params State.reset.cfg = true

/-! Host commands (40_host_commands.md section 1). -/

/-- R162. START's checks are the seven of the rule. -/
def Obligations.ConfigOkIsTheSevenChecks : Prop :=
  ∀ (p : Config.Params) (c : ConfigRegs),
    configOk p c = true ↔
      (1 ≤ c.downsample.toNat ∧ c.downsample.toNat ≤ 256) ∧
      c.ctrl.demod.toNat ≤ 4 ∧
      (c.ctrl.demod ≠ 0#3 ∨ c.ctrl.atanSel.toNat ≤ 2) ∧
      c.sqThresh ≠ 0x80000000#32 ∧
      ¬(c.ctrl.multichan = true ∧ c.sqLevel = 0#32) ∧
      ¬(c.ctrl.deemphEn = true ∧ c.deemphA = 0#16) ∧
      ¬(c.ctrl.firEn = true ∧
        ∑ k ∈ Finset.range c.downsample.toNat, (firTap p.firTaps c.downsample.toNat k).toNat = 0)

/-- R161. START. Refused, it sets one error bit and changes nothing else: BUSY_ERR while busy, else CMD_ERR while running, else
CFG_ERR when a check fails. Accepted, it latches the taps and their sum (with the FIR off, zeros), zeroes the datapath state and
the report registers, clears TERMINATED and sets RUNNING, and changes nothing else. -/
def Obligations.StartFollowsItsRule : Prop :=
  ∀ s : State,
    (s.busy = true → exec .start s = .next { s with status := { s.status with busyErr := true } }) ∧
    (s.busy = false → s.status.running = true →
      exec .start s = .next { s with status := { s.status with cmdErr := true } }) ∧
    (s.busy = false → s.status.running = false → configOk s.params s.cfg = false →
      exec .start s = .next { s with status := { s.status with cfgErr := true } }) ∧
    (s.busy = false → s.status.running = false → configOk s.params s.cfg = true →
      ∃ (taps : List Byte) (total : Nat),
        exec .start s =
          .next
            { s with
              dp :=
                { nowR := 0, nowJ := 0, prevIndex := 0, preR := 0, preJ := 0, deemphAvg := 0, dcAvg := 0, hits := 0,
                  taps := taps, tapSum := total },
              report :=
                { result := { active := false, muted := false, hop := false, term := false, sqEval := false },
                  outLen := 0#32, madI := 0#32, madQ := 0#32 },
              status := { s.status with terminated := false, running := true } } ∧
        taps.length = 256 ∧
        (∀ k, k < 256 →
          taps.getD k 0#8 =
            if s.cfg.ctrl.firEn = true ∧ k < s.cfg.downsample.toNat then
              firTap s.params.firTaps s.cfg.downsample.toNat k
            else 0#8) ∧
        total =
          if s.cfg.ctrl.firEn = true then
            ∑ k ∈ Finset.range s.cfg.downsample.toNat, (firTap s.params.firTaps s.cfg.downsample.toNat k).toNat
          else 0)

/-- R165. A PROCESS that is accepted puts a block of IN_LEN bytes in flight and changes nothing of the block else. When it
completes is a free value (R364); that it is counted in steps and drawn by a counter is the model's choice, log 4. -/
def Obligations.ProcessPutsABlockInFlight : Prop :=
  ∀ s : State, s.busy = false → s.status.running = true → s.inLen.toNat % 2 = 0 → s.inLen.toNat ≤ s.params.inBufBytes →
    exec .process s =
      .next
        { s with
          inFlight := some { len := s.inLen.toNat, wait := Config.processLatency s.draws },
          draws := s.draws + 1 }

/-- R165, R166. While busy a PROCESS is dropped and counted, saturating; when not running it raises CMD_ERR; an odd IN_LEN or
one above IN_BUF_BYTES raises INPUT_ERR. Nothing else changes. -/
def Obligations.ProcessDropsAndRefusals : Prop :=
  ∀ s : State,
    (s.busy = true →
      exec .process s =
        .next { s with dropCnt := BitVec.ofNat 32 (min (s.dropCnt.toNat + 1) 0xFFFFFFFF) }) ∧
    (s.busy = false → s.status.running = false →
      exec .process s = .next { s with status := { s.status with cmdErr := true } }) ∧
    (s.busy = false → s.status.running = true → (s.inLen.toNat % 2 = 1 ∨ s.params.inBufBytes < s.inLen.toNat) →
      exec .process s = .next { s with status := { s.status with inputErr := true } })

/-- R160, R170, R171. NOP changes nothing, in any state. STOP ends the run and changes nothing else; while busy it raises
BUSY_ERR. CLEAR_STATUS clears STATUS bits 8 to 2 in every state and changes nothing else. -/
def Obligations.NopStopAndClearStatus : Prop :=
  ∀ s : State,
    exec .nop s = .next s ∧
    (s.busy = false → exec .stop s = .next { s with status := { s.status with running := false } }) ∧
    (s.busy = true → exec .stop s = .next { s with status := { s.status with busyErr := true } }) ∧
    exec .clearStatus s =
      .next
        { s with
          status :=
            { running := s.status.running, terminated := false, cfgErr := false, inputErr := false, cmdErr := false,
              busyErr := false, lockErr := false, busErr := false } }

/-- R172, R390, R391. SOFT_RESET, in every state: every register reads as after reset, no block is in flight, the buffers'
contents are unspecified anew. A hardware reset has the same effect. That unspecified bytes are free values by reset number and
address, and that what lies outside the block (the host's pending accesses, its last answer, the parameters, the count of draws)
is kept, are the model's choices, logs 2, 3, 4, 6. -/
def Obligations.ResetsRestoreTheResetState : Prop :=
  (∀ s : State, ∃ t, exec .softReset s = .next t ∧
    (∀ r : Reg, readReg r t = readReg r State.reset) ∧ t.inFlight = none ∧ t.dp = Datapath.reset ∧ t.mem = [] ∧
    (∀ a, readByte t a = Config.bufferByte (s.epoch + 1) a) ∧
    t.inputs = s.inputs ∧ t.busData = s.busData ∧ t.params = s.params ∧ t.draws = s.draws ∧ t.work = Work.empty) ∧
  (∀ (s : State) (rest : List Input), outsideMoves s → s.inputs = .hardwareReset :: rest →
    step s = exec .softReset (taken s))

/-- R173, R174. A legal word written to COMMAND acts as its command; an illegal one raises CMD_ERR in every state and does
nothing else. -/
def Obligations.CommandWritesIssueCommands : Prop :=
  ∀ (s : State) (w : Word),
    (∀ i, decode (.cmd w) = .ok i → exec (.regWrite 0x020 .word w) s = exec i s) ∧
    (5 < w.toNat → exec (.regWrite 0x020 .word w) s = .next { s with status := { s.status with cmdErr := true } })

/-! Register and buffer accesses (10_state.md, 20_memory.md, 40_host_commands.md section 2). -/

/-- R180, R30 to R49. An aligned 32-bit read of REG answers the register at the offset, and changes nothing else. -/
def Obligations.RegReadAnswersTheRegister : Prop :=
  ∀ s : State,
    (∀ p ∈ [(0x000#32, 0x46445331#32), (0x004, ctrlWord s.cfg.ctrl), (0x008, s.cfg.downsample.setWidth 32),
        (0x00C, s.cfg.outputScale.setWidth 32), (0x010, s.cfg.sqLevel), (0x014, s.cfg.sqThresh),
        (0x018, s.cfg.deemphA.setWidth 32), (0x01C, s.inLen), (0x020, 0#32), (0x024, statusWord s.busy s.status),
        (0x028, resultWord s.report.result), (0x02C, s.report.outLen), (0x030, BitVec.ofNat 32 s.dp.hits),
        (0x034, s.report.madI), (0x038, s.report.madQ), (0x03C, BitVec.ofNat 32 s.dp.tapSum), (0x040, s.dropCnt),
        (0x044, BitVec.ofInt 32 s.dp.nowR), (0x048, BitVec.ofInt 32 s.dp.nowJ),
        (0x04C, BitVec.ofNat 32 s.dp.prevIndex), (0x050, BitVec.ofInt 32 s.dp.preR),
        (0x054, BitVec.ofInt 32 s.dp.preJ), (0x058, BitVec.ofInt 32 s.dp.deemphAvg),
        (0x05C, BitVec.ofInt 32 s.dp.dcAvg)],
      exec (.regRead p.1 .word) s = .next { s with busData := p.2 }) ∧
    (∀ k, k < 256 →
      exec (.regRead (BitVec.ofNat 32 (0x400 + 4 * k)) .word) s =
        .next { s with busData := (s.dp.taps.getD k 0#8).setWidth 32 }) ∧
    (∀ o, o % 4 = 0 → ((0x060 ≤ o ∧ o < 0x400) ∨ (0x800 ≤ o ∧ o < 0x1000)) →
      exec (.regRead (BitVec.ofNat 32 o) .word) s = .next { s with busData := 0#32 })

/-- R181, R31 to R36. While not running, a write to a configuration register stores its defined bits, and changes nothing
else. -/
def Obligations.ConfigWritesStoreTheDefinedBits : Prop :=
  ∀ (s : State) (v : Word), s.status.running = false →
    (exec (.regWrite 0x004 .word v) s =
      .next
        { s with
          cfg :=
            { s.cfg with
              ctrl :=
                { firEn := v.getLsbD 0, deemphEn := v.getLsbD 1, dcEn := v.getLsbD 2, multichan := v.getLsbD 3,
                  demod := v.extractLsb' 4 3, atanSel := v.extractLsb' 8 2, sqSrc := v.getLsbD 10 } } }) ∧
    exec (.regWrite 0x008 .word v) s = .next { s with cfg := { s.cfg with downsample := v.extractLsb' 0 9 } } ∧
    exec (.regWrite 0x00C .word v) s = .next { s with cfg := { s.cfg with outputScale := v.extractLsb' 0 16 } } ∧
    exec (.regWrite 0x010 .word v) s = .next { s with cfg := { s.cfg with sqLevel := v } } ∧
    exec (.regWrite 0x014 .word v) s = .next { s with cfg := { s.cfg with sqThresh := v } } ∧
    exec (.regWrite 0x018 .word v) s = .next { s with cfg := { s.cfg with deemphA := v.extractLsb' 0 16 } }

/-- R182, R183, R184. While running, a write to a configuration register is ignored and raises LOCK_ERR. A write to IN_LEN stores
the word, also while running, and while busy is ignored and raises BUSY_ERR. A write to a read-only register or a reserved
offset is ignored and raises nothing. -/
def Obligations.LockedInLenAndReadOnlyWrites : Prop :=
  ∀ (s : State) (v : Word),
    (s.status.running = true →
      ∀ a ∈ [0x004#32, 0x008, 0x00C, 0x010, 0x014, 0x018],
        exec (.regWrite a .word v) s = .next { s with status := { s.status with lockErr := true } }) ∧
    (s.busy = false → exec (.regWrite 0x01C .word v) s = .next { s with inLen := v }) ∧
    (s.busy = true → exec (.regWrite 0x01C .word v) s = .next { s with status := { s.status with busyErr := true } }) ∧
    (∀ o, o % 4 = 0 → o < 0x1000 → (o = 0 ∨ 0x024 ≤ o) → exec (.regWrite (BitVec.ofNat 32 o) .word v) s = .next s)

/-- R185, R85, R92. A write to INBUF: not busy, it stores the data little-endian in the bytes of the access and changes nothing
else, every other byte of memory reading as before; busy, it stores nothing and raises BUSY_ERR. -/
def Obligations.InbufWritesStoreLittleEndian : Prop :=
  ∀ (s : State) (addr : Word) (size : Size) (data : Word),
    addr.toNat % size.bytes = 0 → 0x01000000 ≤ addr.toNat →
    addr.toNat + size.bytes ≤ 0x01000000 + s.params.inBufBytes →
    (s.busy = false →
      ∃ t, exec (.inbufAccess addr size (.write data)) s = .next t ∧ t = { s with mem := t.mem } ∧
        (∀ k, k < size.bytes → readByte t (addr.toNat + k) = data.extractLsb' (8 * k) 8) ∧
        (∀ b, b < addr.toNat ∨ addr.toNat + size.bytes ≤ b → readByte t b = readByte s b)) ∧
    (s.busy = true →
      exec (.inbufAccess addr size (.write data)) s = .next { s with status := { s.status with busyErr := true } })

/-- R185, R186, R85. A read of INBUF in any state, and of OUTBUF when not busy, answers the bytes of the access little-endian,
with zeros above them, and changes nothing else. -/
def Obligations.BufferReadsAreLittleEndian : Prop :=
  ∀ (s : State) (addr : Word) (size : Size), addr.toNat % size.bytes = 0 →
    (0x01000000 ≤ addr.toNat → addr.toNat + size.bytes ≤ 0x01000000 + s.params.inBufBytes →
      ∃ v : Word, exec (.inbufAccess addr size .read) s = .next { s with busData := v } ∧ v.toNat < 2 ^ (8 * size.bytes) ∧
        ∀ k, k < size.bytes → v.extractLsb' (8 * k) 8 = readByte s (addr.toNat + k)) ∧
    (s.busy = false → 0x02000000 ≤ addr.toNat → addr.toNat + size.bytes ≤ 0x02000000 + 2 * s.params.inBufBytes →
      ∃ v : Word, exec (.outbufRead addr size .read) s = .next { s with busData := v } ∧ v.toNat < 2 ^ (8 * size.bytes) ∧
        ∀ k, k < size.bytes → v.extractLsb' (8 * k) 8 = readByte s (addr.toNat + k))

/-- R93. While busy, a read of OUTBUF answers a free value for each byte, a new one at each read, and changes nothing of the
block. It holds for every value the draws may have. -/
def Obligations.BusyOutbufReadsAreDraws : Prop :=
  ∀ (s : State) (addr : Word) (size : Size), s.busy = true → addr.toNat % size.bytes = 0 →
    0x02000000 ≤ addr.toNat → addr.toNat + size.bytes ≤ 0x02000000 + 2 * s.params.inBufBytes →
    ∃ v : Word,
      exec (.outbufRead addr size .read) s = .next { s with busData := v, draws := s.draws + size.bytes } ∧
      v.toNat < 2 ^ (8 * size.bytes) ∧
      ∀ k, k < size.bytes → v.extractLsb' (8 * k) 8 = Config.busyByte (s.draws + k)

/-- R88, R89, and the write part of R83. A REG access that is not 32-bit or not aligned, a misaligned access to INBUF or OUTBUF,
and any write to OUTBUF: a read returns 0, a write stores nothing and issues no command, and BUS_ERR is set. -/
def Obligations.WrongAccessesRaiseBusErr : Prop :=
  ∀ (s : State) (addr : Word) (size : Size),
    (addr.toNat < 0x1000 → (size ≠ .word ∨ addr.toNat % 4 ≠ 0) →
      exec (.regRead addr size) s = .next { s with busData := 0#32, status := { s.status with busErr := true } } ∧
      ∀ data, exec (.regWrite addr size data) s = .next { s with status := { s.status with busErr := true } }) ∧
    (addr.toNat % size.bytes ≠ 0 →
      exec (.inbufAccess addr size .read) s = .next { s with busData := 0#32, status := { s.status with busErr := true } } ∧
      exec (.outbufRead addr size .read) s = .next { s with busData := 0#32, status := { s.status with busErr := true } } ∧
      ∀ data, exec (.inbufAccess addr size (.write data)) s = .next { s with status := { s.status with busErr := true } }) ∧
    (∀ data, exec (.outbufRead addr size (.write data)) s = .next { s with status := { s.status with busErr := true } })

/-! Decimation (41_decimation.md). -/

/-- R210. A block of `n` samples entered at phase `p` gives `(p + n) / d` decimated samples and leaves phase `(p + n) % d`, for
either decimator, which changes the accumulators, the phase and the decimated list alone. -/
def Obligations.DecimationCountAndPhase : Prop :=
  ∀ (s : State) (op : Instr), op = .decimBoxcar ∨ op = .decimFir → s.dp.prevIndex < s.cfg.downsample.toNat →
    ∃ (z : List Sample) (r j : Int),
      exec op s =
        .next
          { s with
            dp :=
              { s.dp with
                nowR := r, nowJ := j,
                prevIndex := (s.dp.prevIndex + s.work.xs.length) % s.cfg.downsample.toNat },
            work := { s.work with z := z } } ∧
      z.length = (s.dp.prevIndex + s.work.xs.length) / s.cfg.downsample.toNat

/-- R201, R202, R211. From a window boundary, boxcar output `k` is the exact sum of the `d` samples of window `k`, unscaled. -/
def Obligations.BoxcarOutputsAreWindowSums : Prop :=
  ∀ s : State, 1 ≤ s.cfg.downsample.toNat → s.dp.prevIndex = 0 → s.dp.nowR = 0 → s.dp.nowJ = 0 →
    ∃ t, exec .decimBoxcar s = .next t ∧
      ∀ k, k < s.work.xs.length / s.cfg.downsample.toNat →
        t.work.z[k]? =
          some
            { i := ∑ p ∈ Finset.range s.cfg.downsample.toNat,
                (s.work.xs.getD (k * s.cfg.downsample.toNat + p) { i := 0, q := 0 }).i,
              q := ∑ p ∈ Finset.range s.cfg.downsample.toNat,
                (s.work.xs.getD (k * s.cfg.downsample.toNat + p) { i := 0, q := 0 }).q }

/-- R203, R204, R207. From a window boundary, FIR output `k` is the sum of the samples of window `k`, the one at phase `p`
weighted by tap `p`, times `d`, divided by the tap sum toward zero. -/
def Obligations.FirOutputsAreNormalisedWeightedSums : Prop :=
  ∀ s : State, 1 ≤ s.cfg.downsample.toNat → s.dp.prevIndex = 0 → s.dp.nowR = 0 → s.dp.nowJ = 0 →
    ∃ t, exec .decimFir s = .next t ∧
      ∀ k, k < s.work.xs.length / s.cfg.downsample.toNat →
        t.work.z[k]? =
          some
            { i :=
                Int.tdiv
                  ((∑ p ∈ Finset.range s.cfg.downsample.toNat,
                      ((s.dp.taps.getD p 0#8).toNat : Int) *
                        (s.work.xs.getD (k * s.cfg.downsample.toNat + p) { i := 0, q := 0 }).i) *
                    s.cfg.downsample.toNat)
                  s.dp.tapSum,
              q :=
                Int.tdiv
                  ((∑ p ∈ Finset.range s.cfg.downsample.toNat,
                      ((s.dp.taps.getD p 0#8).toNat : Int) *
                        (s.work.xs.getD (k * s.cfg.downsample.toNat + p) { i := 0, q := 0 }).q) *
                    s.cfg.downsample.toNat)
                  s.dp.tapSum }

/-- R209. Splitting the input between two blocks gives the same decimated samples, one after the other, and the same datapath
state as one block, for either decimator and whatever the phase. -/
def Obligations.DecimationIsContinuousAcrossBlocks : Prop :=
  ∀ (s : State) (op : Instr) (a b : List Sample), op = .decimBoxcar ∨ op = .decimFir →
    ∃ t u v,
      exec op { s with work := { s.work with xs := a ++ b } } = .next t ∧
      exec op { s with work := { s.work with xs := a } } = .next u ∧
      exec op { u with work := { u.work with xs := b } } = .next v ∧
      t.work.z = u.work.z ++ v.work.z ∧ t.dp = v.dp

/-- R205, R206. The default tap table, which START latches: 255 for `d = 1`, else the floor of `255 (0.54 - 0.46 cos (2 pi i /
(d - 1)))`, in exact real arithmetic. -/
def Obligations.HammingTapsFollowTheFormula : Prop :=
  (firTap .hamming 1 0).toNat = 255 ∧
  ∀ d i : Nat, 2 ≤ d → d ≤ 256 → i < d →
    ((firTap .hamming d i).toNat : Int) =
      ⌊(255 : ℝ) * (0.54 - 0.46 * Real.cos (2 * Real.pi * (i : ℝ) / ((d : ℝ) - 1)))⌋

/-! Demodulators (42_demodulators.md). -/

/-- R242, R241. For every parameter ATAN_EXACT within its law (this hardware's, which gives no value of its own, is one):
ATAN_EXACT is within half a unit of the real angle `(2^14 / pi) * atan2 y x`, and 0 at the origin. -/
def Obligations.AtanExactIsTheNearestInteger : Prop :=
  ∀ p : Config.Params, ExactLaw p →
    atanExact p 0 0 = 0 ∧
    ∀ y x : Int, ¬(x = 0 ∧ y = 0) →
      |(atanExact p y x : ℝ) - 2 ^ 14 / Real.pi * Complex.arg ((x : ℂ) + (y : ℂ) * Complex.I)| ≤ 1 / 2

/-- R244, and the range of R57. The default lookup table: 2^18 entries at 14 fractional bits, each the integer nearest to the
real angle of its ratio, in [0, 7866], with the four values that the rule names. -/
def Obligations.DefaultLutTableIsTheNearestIntegers : Prop :=
  Config.defaultLut.coef = 14 ∧ Config.defaultLut.size = 2 ^ 18 ∧
  (∀ k, k < 2 ^ 18 →
    LutLaw Config.defaultLut k ∧ 0 ≤ lutEntry Config.defaultLut k ∧ lutEntry Config.defaultLut k ≤ 7866) ∧
  lutEntry Config.defaultLut 0 = 0 ∧ lutEntry Config.defaultLut 2 = 1 ∧ lutEntry Config.defaultLut 16384 = 4096 ∧
  lutEntry Config.defaultLut (2 ^ 18 - 1) = 7866

/-- R247, its law for ATAN_LUT. With LUT_COEF, LUT_SIZE and K_FALLBACK at their defaults, whatever table is given: where the
entry that is read (if one is) is within the table's law, the lookup arctangent is within 0.94 of the real angle, for arguments
up to `2^31`. -/
def Obligations.AtanLutIsWithinItsBound : Prop :=
  ∀ p : Config.Params, p.lut.coef = 14 → p.lut.size = 2 ^ 18 → p.lut.fallback = 5215 →
    ∀ y x : Int, ¬(x = 0 ∧ y = 0) → |y| ≤ 2 ^ 31 → |x| ≤ 2 ^ 31 → LutReadLawful p.lut y x →
      |(atanLut p y x : ℝ) - 2 ^ 14 / Real.pi * Complex.arg ((x : ℂ) + (y : ℂ) * Complex.I)| < 0.94

/-- R247, its law for ATAN_FAST. With FAST_B1 to FAST_B9 at their defaults, the polynomial arctangent is within 0.57 of the real
angle, for arguments up to `2^31`. -/
def Obligations.AtanFastIsWithinItsBound : Prop :=
  ∀ p : Config.Params, p.fast = Config.defaultFast →
    ∀ y x : Int, ¬(x = 0 ∧ y = 0) → |y| ≤ 2 ^ 31 → |x| ≤ 2 ^ 31 →
      |(atanFast p y x : ℝ) - 2 ^ 14 / Real.pi * Complex.arg ((x : ℂ) + (y : ℂ) * Complex.I)| < 0.57

/-- R248, R246, R241. Every arctangent is 0 at the origin, whatever the parameters. ATAN_EXACT within its law, ATAN_FAST at its
default coefficients, and ATAN_LUT at its default constants where the entry read is within the table's law, lie in [-16384,
16384] and are +16384, never -16384, on the negative real axis. -/
def Obligations.ArctangentRanges : Prop :=
  ∀ p : Config.Params,
    (atanExact p 0 0 = 0 ∧ atanFast p 0 0 = 0 ∧ atanLut p 0 0 = 0) ∧
    (ExactLaw p → ∀ y x : Int,
      -16384 ≤ atanExact p y x ∧ atanExact p y x ≤ 16384 ∧ (y = 0 → x < 0 → atanExact p y x = 16384)) ∧
    (p.fast = Config.defaultFast → ∀ y x : Int,
      -16384 ≤ atanFast p y x ∧ atanFast p y x ≤ 16384 ∧ (y = 0 → x < 0 → atanFast p y x = 16384)) ∧
    (p.lut.coef = 14 → p.lut.size = 2 ^ 18 → p.lut.fallback = 5215 → ∀ y x : Int, LutReadLawful p.lut y x →
      -16384 ≤ atanLut p y x ∧ atanLut p y x ≤ 16384 ∧ (y = 0 → x < 0 → atanLut p y x = 16384))

/-- R248 to R252. FM, for each of the three arctangents, whatever their parameters: output `k` is the arctangent of the product
of sample `k` with the conjugate of the sample before it (the history before the first), the last sample becomes the history,
and nothing else changes. -/
def Obligations.FmOutputsAreProductAngles : Prop :=
  ∀ (s : State) (op : Instr) (atan : Int → Int → Int),
    (op, atan) ∈
        [(Instr.demodFmExact, atanExact s.params), (.demodFmFast, atanFast s.params), (.demodFmLut, atanLut s.params)] →
    exec op s =
      .next
        { s with
          dp :=
            { s.dp with
              preR := (s.work.z.getLastD { i := s.dp.preR, q := s.dp.preJ }).i,
              preJ := (s.work.z.getLastD { i := s.dp.preR, q := s.dp.preJ }).q },
          work :=
            { s.work with
              y :=
                List.zipWith (fun p z => atan (z.q * p.i - z.i * p.q) (z.i * p.i + z.q * p.q))
                  ({ i := s.dp.preR, q := s.dp.preJ } :: s.work.z) s.work.z } }

/-- R253. AM: each output is the greatest integer whose square is at most I^2 + Q^2, times the scale, at most 32767; nothing else
changes. -/
def Obligations.AmOutputsAreScaledMagnitudes : Prop :=
  ∀ s : State, ∃ y : List Int,
    exec .demodAm s = .next { s with work := { s.work with y := y } } ∧ y.length = s.work.z.length ∧
    ∀ (k : Nat) (z : Sample), s.work.z[k]? = some z →
      ∃ m : Nat, (m : Int) * m ≤ z.i * z.i + z.q * z.q ∧ z.i * z.i + z.q * z.q < ((m : Int) + 1) * (m + 1) ∧
        y[k]? = some (min 32767 ((m : Int) * s.cfg.outputScale.toNat))

/-- R254, R255, R256. USB and LSB: each output is the sum, or the difference, of I and Q, times the scale, saturated to 16 bits.
RAW: I then Q of each decimated sample, saturated and unscaled. Nothing else changes. -/
def Obligations.SsbAndRawOutputs : Prop :=
  ∀ s : State,
    exec .demodUsb s =
      .next
        { s with
          work :=
            { s.work with
              y := s.work.z.map fun z => min 32767 (max (-32768) ((z.i + z.q) * s.cfg.outputScale.toNat)) } } ∧
    exec .demodLsb s =
      .next
        { s with
          work :=
            { s.work with
              y := s.work.z.map fun z => min 32767 (max (-32768) ((z.i - z.q) * s.cfg.outputScale.toNat)) } } ∧
    exec .demodRaw s =
      .next
        { s with
          work :=
            { s.work with
              y := s.work.z.flatMap fun z => [min 32767 (max (-32768) z.i), min 32767 (max (-32768) z.q)] } }

/-! Squelch (43_squelch.md). -/

/-- R291. The MAD of a rail is the truncated mean of the absolute deviations from the truncated mean, and 0 of an empty rail;
MAD_RAILS takes it of the I rail and of the Q rail. -/
def Obligations.MadIsTheTruncatedMeanDeviation : Prop :=
  (∀ v : List Int,
    (mad v : Int) =
      if v = [] then 0
      else Int.tdiv ((v.map fun x => |x - Int.tdiv v.sum v.length|).sum) v.length) ∧
  ∀ l : List Sample, madRails l = (mad (l.map Sample.i), mad (l.map Sample.q))

/-- R293, R294, R295, R296, R298. The squelch: an active block resets the counter; an inactive one increments it, saturating one
above the threshold's magnitude, and once it is above the magnitude the block requests a hop (multi-channel) or is muted
(single-channel) and, for a negative threshold, terminates the run. Nothing else changes. -/
def Obligations.SquelchDecides : Prop :=
  ∀ s : State,
    let src := if s.cfg.ctrl.sqSrc = true then s.work.z else s.work.xs
    let mi := mad (src.map Sample.i)
    let mq := mad (src.map Sample.q)
    let mag := s.cfg.sqThresh.toInt.natAbs
    let hits := min (s.dp.hits + 1) (mag + 1)
    let active := s.cfg.sqLevel.toNat = 0 ∨ s.cfg.sqLevel.toNat < mi ∨ s.cfg.sqLevel.toNat < mq
    (active →
      exec .squelch s =
        .next
          { s with
            dp := { s.dp with hits := 0 },
            work :=
              { s.work with
                mad := some (mi, mq),
                flags := { active := true, muted := false, hop := false, term := false, sqEval := true } } }) ∧
    (¬active → hits ≤ mag →
      exec .squelch s =
        .next
          { s with
            dp := { s.dp with hits := hits },
            work :=
              { s.work with
                mad := some (mi, mq),
                flags := { active := false, muted := false, hop := false, term := false, sqEval := true } } }) ∧
    (¬active → mag < hits → s.cfg.ctrl.multichan = true →
      exec .squelch s =
        .next
          { s with
            dp := { s.dp with hits := hits },
            work :=
              { s.work with
                mad := some (mi, mq),
                flags := { active := false, muted := false, hop := true, term := false, sqEval := true } } }) ∧
    (¬active → mag < hits → s.cfg.ctrl.multichan = false →
      exec .squelch s =
        .next
          { s with
            dp := { s.dp with hits := hits },
            work :=
              { s.work with
                y := List.replicate s.work.y.length 0,
                mad := some (mi, mq),
                flags :=
                  { active := false, muted := true, hop := false, term := decide (s.cfg.sqThresh.toInt < 0),
                    sqEval := true } } })

/-- R299, R298. A constant signal at a level of at least 1, single-channel: the counter after `k + 1` evaluations is the old one
plus `k + 1`, at most one above the threshold's magnitude, and once that is above the magnitude the block is muted. -/
def Obligations.ConstantInputIsMutedAfterTheThreshold : Prop :=
  ∀ (s : State) (x : Sample), 1 ≤ s.cfg.sqLevel.toNat → s.cfg.ctrl.multichan = false →
    (∀ w ∈ (if s.cfg.ctrl.sqSrc = true then s.work.z else s.work.xs), w = x) →
    ∃ f : Nat → State, f 0 = s ∧ (∀ k, exec .squelch (f k) = .next (f (k + 1))) ∧
      ∀ k,
        (f (k + 1)).dp.hits = min (s.dp.hits + k + 1) (s.cfg.sqThresh.toInt.natAbs + 1) ∧
        (s.cfg.sqThresh.toInt.natAbs < s.dp.hits + k + 1 →
          (f (k + 1)).work.flags.muted = true ∧ ∀ v ∈ (f (k + 1)).work.y, v = 0)

/-! De-emphasis and DC removal (44_postprocess.md). -/

/-- R321. De-emphasis: each value becomes the average after it, the average moving by the difference over the divisor, rounded
half away from zero; nothing else changes. -/
def Obligations.DeemphFollowsItsRecurrence : Prop :=
  ∀ s : State,
    let a := s.cfg.deemphA.toNat
    let move := fun (avg v : Int) => avg + Int.sign (v - avg) * (((v - avg).natAbs + a / 2) / a : Nat)
    exec .deemph s =
      .next
        { s with
          dp := { s.dp with deemphAvg := s.work.y.foldl move s.dp.deemphAvg },
          work := { s.work with y := (List.scanl move s.dp.deemphAvg s.work.y).tail } }

/-- R322, R321, R324. For a divisor of at least 1 the new average lies between the old one and the value; it stays put exactly
when twice the distance is less than the divisor (so it stays at a constant input it has reached); with divisor 1 it is the
value. -/
def Obligations.DeemphStepBounds : Prop :=
  ∀ (a : Nat) (avg v : Int), 1 ≤ a →
    min avg v ≤ deemphStep a avg v ∧ deemphStep a avg v ≤ max avg v ∧
    (deemphStep a avg v = avg ↔ 2 * (v - avg).natAbs < a) ∧ deemphStep 1 avg v = v

/-- R326, R328. DC block: the block's truncated mean is blended one part to nine with the average, the blend is subtracted from
every value, saturating, and becomes the average; a block with no value changes nothing. -/
def Obligations.DcblockSubtractsTheBlend : Prop :=
  ∀ s : State,
    (s.work.y = [] → exec .dcblock s = .next s) ∧
    (s.work.y ≠ [] →
      let avg := Int.tdiv (Int.tdiv s.work.y.sum s.work.y.length + 9 * s.dp.dcAvg) 10
      exec .dcblock s =
        .next
          { s with
            dp := { s.dp with dcAvg := avg },
            work := { s.work with y := s.work.y.map fun v => min 32767 (max (-32768) (v - avg)) } })

/-! The engine (40_host_commands.md R167 to R169). -/

/-- R167, R168, R102. The step that completes a non-empty block, against the rule's own chain: decimate; RAW ends there, with
RESULT 0 and MAD unchanged; otherwise demodulate, squelch, de-emphasise and remove DC as enabled, then store, report and clear
BUSY, all at once. -/
def Obligations.CompletionFollowsTheStageChain : Prop :=
  ∀ (s : State) (j : Job), s.inFlight = some j → j.wait = 0 → j.len ≠ 0 →
    reservedSelection (ctrlWord s.cfg.ctrl) = false →
    let c := s.cfg.ctrl
    let xs := inputSamples s 0 (j.len / 2)
    let acc : Accum := { r := s.dp.nowR, j := s.dp.nowJ, p := s.dp.prevIndex }
    let hist : Sample := { i := s.dp.preR, q := s.dp.preJ }
    let out := if c.firEn then fir s.cfg.d s.dp.taps s.dp.tapSum acc xs else boxcar s.cfg.d acc xs
    let z := out.1
    let atan :=
      if c.atanSel = 0#2 then atanExact s.params else if c.atanSel = 1#2 then atanFast s.params else atanLut s.params
    let y0 :=
      if c.demod = 0#3 then discriminate atan hist z
      else if c.demod = 1#3 then z.map (amValue s.cfg.scale)
      else if c.demod = 2#3 then z.map (usbValue s.cfg.scale)
      else z.map (lsbValue s.cfg.scale)
    let hist' := if c.demod = 0#3 then z.getLastD hist else hist
    let rails := madRails (if c.sqSrc then z else xs)
    let mag := s.cfg.thresh.natAbs
    let active := isActive s.cfg.level rails.1 rails.2
    let hits := if active then 0 else min (s.dp.hits + 1) (mag + 1)
    let past := !active && decide (mag < hits)
    let muting := past && !c.multichan
    let flags : BlockFlags :=
      { active := active, muted := muting, hop := past && c.multichan, term := muting && decide (s.cfg.thresh < 0),
        sqEval := true }
    let y1 := if muting then y0.map (fun _ => 0) else y0
    let y2 := if c.deemphEn then deemphValues s.cfg.divisor s.dp.deemphAvg y1 else y1
    let avg' := if c.deemphEn then deemphAfter s.cfg.divisor s.dp.deemphAvg y1 else s.dp.deemphAvg
    let dcOn := c.dcEn && !y2.isEmpty
    let y3 := if dcOn then y2.map (fun v => sat16 (v - dcBlend s.dp.dcAvg y2)) else y2
    let dc' := if dcOn then dcBlend s.dp.dcAvg y2 else s.dp.dcAvg
    (c.demod = 4#3 →
      step s =
        .next
          { s with
            dp := { s.dp with nowR := out.2.r, nowJ := out.2.j, prevIndex := out.2.p },
            mem := storeOutputs s.mem 0x02000000 (rawValues z),
            report := { s.report with result := BlockFlags.clear, outLen := BitVec.ofNat 32 (rawValues z).length },
            inFlight := none,
            work := Work.empty }) ∧
    (c.demod ≠ 4#3 →
      step s =
        .next
          { s with
            dp :=
              { s.dp with
                nowR := out.2.r, nowJ := out.2.j, prevIndex := out.2.p, preR := hist'.i, preJ := hist'.q,
                deemphAvg := avg', dcAvg := dc', hits := hits },
            mem := storeOutputs s.mem 0x02000000 y3,
            report :=
              { result := flags, outLen := BitVec.ofNat 32 y3.length, madI := BitVec.ofNat 32 rails.1,
                madQ := BitVec.ofNat 32 rails.2 },
            status :=
              if flags.term then { s.status with running := false, terminated := true } else s.status,
            inFlight := none,
            work := Work.empty })

/-- R169. An empty block changes no datapath state and no byte of memory, and sets OUT_LEN and RESULT to 0. -/
def Obligations.EmptyBlockReportsNothing : Prop :=
  ∀ (s : State) (j : Job), s.inFlight = some j → j.wait = 0 → j.len = 0 →
    step s =
      .next
        { s with
          report :=
            { s.report with
              result := { active := false, muted := false, hop := false, term := false, sqEval := false },
              outLen := 0#32 },
          inFlight := none,
          work := Work.empty }

/-- R168, R87, R91, R129. Completion stores output `k` at OUTBUF bytes `2 k` and `2 k + 1`, low byte first, modulo `2^16`, and
every other byte of memory reads as before. -/
def Obligations.CompletionStoresTheOutputs : Prop :=
  ∀ t : State,
    (∀ (k : Nat) (v : Int), t.work.y[k]? = some v →
      (readByte (completeBlock t) (0x02000000 + 2 * k)).toNat = (v % 2 ^ 16 % 2 ^ 8).toNat ∧
      (readByte (completeBlock t) (0x02000000 + 2 * k + 1)).toNat = (v % 2 ^ 16 / 2 ^ 8).toNat) ∧
    (∀ a, a < 0x02000000 ∨ 0x02000000 + 2 * t.work.y.length ≤ a → readByte (completeBlock t) a = readByte t a)

/-- R168, R129. In a state within the invariant, every value that a completing block stores lies in the 16-bit range, so the
store loses nothing. -/
def Obligations.StoredOutputsFitSixteenBits : Prop :=
  ∀ (s : State) (j : Job), DatapathInv s → s.inFlight = some j → j.wait = 0 → j.len ≠ 0 →
    ∃ t, runStages (stages (ctrlWord s.cfg.ctrl)) (loadBlock j.len s) = .next t ∧ step s = .next (completeBlock t) ∧
      ∀ v ∈ t.work.y, inOutputRange v

/-! Whole-machine rules. -/

/-- 20_memory.md; the canonical form of memory: every step keeps it. -/
def Obligations.StepKeepsMemoryCanonical : Prop :=
  ∀ s t : State, s.mem.wf → step s = .next t → t.mem.wf

/-- R162, R165, R166, R105, R184. The control state stays coherent: from every state that meets ControlInv a step leads to one
that does. -/
def Obligations.StepKeepsControlInv : Prop :=
  ∀ s t : State, ControlInv s → step s = .next t → ControlInv t

/-- R50 to R56, R210, R212, R248, R298, R322, R327. The datapath state stays in its ranges: from every state that meets
DatapathInv a step leads to one that does. -/
def Obligations.StepKeepsDatapathInv : Prop :=
  ∀ s t : State, DatapathInv s → step s = .next t → DatapathInv t

/-- The state after reset meets the invariants. -/
def Obligations.ResetMeetsTheInvariants : Prop := DatapathInv State.reset ∧ State.reset.mem.wf

/-- R126, R350, R353. From every state that meets ControlInv the machine goes on: no step faults or refuses. -/
def Obligations.TheMachineNeverStops : Prop := ∀ s : State, ControlInv s → Goes s

/-- R39. A sticky bit that was set and is clear after a step was cleared by a reset, by CLEAR_STATUS or SOFT_RESET, or
(TERMINATED only) by START. -/
def Obligations.StickyBitsAreClearedByRuleOnly : Prop :=
  ∀ s t : State, step s = .next t →
    ((∃ e, errBit e s.status = true ∧ errBit e t.status = false) →
      ∃ rest, s.inputs = .hardwareReset :: rest ∨ s.inputs = .access (commandWrite 4) :: rest ∨
        s.inputs = .access (commandWrite 5) :: rest) ∧
    (s.status.terminated = true → t.status.terminated = false →
      ∃ rest, s.inputs = .hardwareReset :: rest ∨ s.inputs = .access (commandWrite 1) :: rest ∨
        s.inputs = .access (commandWrite 4) :: rest ∨ s.inputs = .access (commandWrite 5) :: rest)

/-- R350, R355. A step that sets an error bit is a host access, and it sets that one only and changes nothing else, but that the
access is taken off (a block in flight having waited): a write leaves the last answer as it was, a read answers 0. -/
def Obligations.ErrorsArePreciseAndSingle : Prop :=
  ∀ (s t : State) (e : Err), step s = .next t → errBit e s.status = false → errBit e t.status = true →
    outsideMoves s ∧
    ∃ (a : Transaction) (rest : List Input),
      s.inputs = .access a :: rest ∧
      (a.access = .read → t = { taken s with status := setErr e s.status, busData := 0#32 }) ∧
      (∀ data, a.access = .write data → t = { taken s with status := setErr e s.status })

/-- R105, R402. While a run lasts, no step changes a configuration register or a latched tap. -/
def Obligations.ConfigurationIsFixedDuringARun : Prop :=
  ∀ s t : State, step s = .next t → s.status.running = true → t.status.running = true →
    t.cfg = s.cfg ∧ t.dp.taps = s.dp.taps ∧ t.dp.tapSum = s.dp.tapSum

/-- R102, R92, R105, R399. From every state that meets ControlInv: until a block in flight completes, no step changes its length
or anything that it reads (the parameters, the configuration, the buffers with their unwritten bytes, IN_LEN, the datapath
state), nor the report registers or RUNNING. -/
def Obligations.NothingShowsBeforeCompletion : Prop :=
  ∀ (s t : State) (j k : Job), ControlInv s → step s = .next t → s.inFlight = some j → t.inFlight = some k →
    k.len = j.len ∧ t.params = s.params ∧ t.cfg = s.cfg ∧ t.inLen = s.inLen ∧ t.mem = s.mem ∧ t.epoch = s.epoch ∧
    t.report = s.report ∧ t.dp = s.dp ∧ t.status.running = s.status.running

/-- R8 (log 1). The parameters are constant: no step changes them. -/
def Obligations.ParametersAreConstant : Prop := ∀ s t : State, step s = .next t → t.params = s.params

/-- R364. From every state that meets ControlInv, a block in flight is completed or aborted within its wait plus one step. (That
the wait is counted in steps is the model's choice, log 4.) -/
def Obligations.EachBlockIsCompletedOrAborted : Prop :=
  ∀ (s : State) (j : Job), ControlInv s → s.inFlight = some j →
    ∃ (k : Nat) (t : State), k ≤ j.wait + 1 ∧ Host.Core.run core k s = .next t ∧ State.inFlight t = none

/-- R393, R396. When every byte of the block has been written since reset, what the engine does does not depend on the
unspecified bytes: two states that differ only in them complete alike. -/
def Obligations.UnspecifiedBytesDoNotReachAWrittenBlock : Prop :=
  ∀ (s t : State) (j : Job) (e : Nat), s.inFlight = some j → j.wait = 0 →
    (∀ k, k < j.len → (s.mem.read? (0x01000000 + k)).isSome = true) →
    step s = .next t → step { s with epoch := e } = .next { t with epoch := e }
end

