-- ==== Sys2Proof/Laws/Arctan.lean ====
section
/-! SUPPORT. What the arctangents and their parts can answer, said once: ranges, and that this hardware's parameters keep them. -/

namespace Sys2Proof.Machine

/-- The count of half turns is at most the whole. -/
theorem halfTurns_le (n : Nat) (a b : Int) : halfTurns n a b ≤ 2 ^ n := by
  induction n generalizing a b with
  | zero => simp only [halfTurns]; split <;> simp
  | succ n ih =>
    simp only [halfTurns, Nat.pow_succ]
    split
    · have := ih (a * a - b * b) (2 * a * b); omega
    · have := ih (b * b - a * a) (-(2 * a * b)); omega

/-- In the right half plane it is at most half of the whole. -/
theorem halfTurns_le_of_pos (n : Nat) {a : Int} (b : Int) (ha : 0 < a) : halfTurns (n + 1) a b ≤ 2 ^ n := by
  simpa only [halfTurns, if_pos ha] using halfTurns_le n _ _

/-- A nearest angle is at most a half turn. -/
theorem nearestAngle_range (y x : Int) : -16384 ≤ nearestAngle y x ∧ nearestAngle y x ≤ 16384 := by
  have h := halfTurns_le 15 x (y.natAbs : Int)
  simp only [nearestAngle, ySign]
  split <;> omega

/-- A nearest angle of the first quadrant, off the axis. -/
theorem nearestAngle_first {y x : Int} (hy : 0 ≤ y) (hx : 0 < x) : 0 ≤ nearestAngle y x ∧ nearestAngle y x ≤ 8192 := by
  have h : halfTurns 15 x (y.natAbs : Int) ≤ 2 ^ 14 := halfTurns_le_of_pos 14 _ hx
  simp only [nearestAngle, ySign, if_neg (Int.not_lt.mpr hy)]
  omega

/-- The quadrant correction of a first-quadrant angle is at most a half turn. -/
theorem quad_range {a0 : Int} (y x : Int) (h0 : 0 ≤ a0) (h1 : a0 ≤ 16384) :
    -16384 ≤ quad a0 y x ∧ quad a0 y x ≤ 16384 := by
  simp only [quad, ySign]
  split <;> split <;> omega

/-- Rounding keeps a fraction that is not negative so. -/
theorem rhaz_nonneg {n : Int} (q : Int) (h : 0 ≤ n) : 0 ≤ rhaz n q :=
  Int.mul_nonneg (Int.sign_nonneg_iff.mpr h) (Int.natCast_nonneg _)

/-- Rounding keeps a bound by an integer. -/
theorem rhaz_le {n q m : Int} (hn : 0 ≤ n) (hq : 0 < q) (h : n ≤ m * q) : rhaz n q ≤ m := by
  obtain ⟨n, rfl⟩ := Int.eq_ofNat_of_zero_le hn
  obtain ⟨q, rfl⟩ := Int.eq_ofNat_of_zero_le hq.le
  have hq' : 0 < q := by simpa using hq
  have hm : 0 ≤ m := by
    by_contra hm
    have : m * (q : Int) < 0 := Int.mul_neg_of_neg_of_pos (by omega) hq
    omega
  obtain ⟨m, rfl⟩ := Int.eq_ofNat_of_zero_le hm
  have h' : n ≤ m * q := by exact_mod_cast h
  have hdiv : (n + q / 2) / q ≤ m := by
    apply Nat.lt_succ_iff.mp
    rw [Nat.div_lt_iff_lt_mul hq', Nat.succ_mul]
    omega
  rcases Nat.eq_zero_or_pos n with rfl | hpos
  · simp [rhaz]
  · have hs : Int.sign (n : Int) = 1 := Int.sign_eq_one_of_pos (by omega)
    have hd : (((n + q / 2) / q : Nat) : Int) ≤ (m : Int) := by exact_mod_cast hdiv
    simpa only [rhaz, Int.ofNat_eq_natCast, hs, one_mul, Int.natAbs_natCast, Int.toNat_natCast] using hd

/-- The fast polynomial with this hardware's coefficients stays in the first quadrant. -/
theorem fastRounded_default_range {n q : Int} (hn : 0 ≤ n) (hq : 0 < q) (h : n ≤ q) :
    0 ≤ fastRounded Config.defaultFast n q ∧ fastRounded Config.defaultFast n q ≤ 8192 := by
  have e2 : n ^ 2 * q ^ 6 ≤ q ^ 8 := by
    calc n ^ 2 * q ^ 6 ≤ q ^ 2 * q ^ 6 := mul_le_mul_of_nonneg_right (pow_le_pow_left₀ hn h 2) (by positivity)
      _ = q ^ 8 := by ring
  have e4 : n ^ 4 * q ^ 4 ≤ q ^ 8 := by
    calc n ^ 4 * q ^ 4 ≤ q ^ 4 * q ^ 4 := mul_le_mul_of_nonneg_right (pow_le_pow_left₀ hn h 4) (by positivity)
      _ = q ^ 8 := by ring
  have e6 : n ^ 6 * q ^ 2 ≤ q ^ 8 := by
    calc n ^ 6 * q ^ 2 ≤ q ^ 6 * q ^ 2 := mul_le_mul_of_nonneg_right (pow_le_pow_left₀ hn h 6) (by positivity)
      _ = q ^ 8 := by ring
  have e8 : n ^ 8 ≤ q ^ 8 := pow_le_pow_left₀ hn h 8
  have p2 : 0 ≤ n ^ 2 * q ^ 6 := by positivity
  have p4 : 0 ≤ n ^ 4 * q ^ 4 := by positivity
  have p6 : 0 ≤ n ^ 6 * q ^ 2 := by positivity
  have p8 : 0 ≤ n ^ 8 := by positivity
  have pq : 0 < q ^ 8 := by positivity
  have lo : 0 ≤ fastNumerator Config.defaultFast n q :=
    mul_nonneg hn (by simp only [Config.defaultFast]; linarith)
  have hi : fastNumerator Config.defaultFast n q ≤ 8192 * (1000 * q ^ 9) := by
    calc fastNumerator Config.defaultFast n q ≤ n * (8192000 * q ^ 8) :=
          mul_le_mul_of_nonneg_left (by simp only [Config.defaultFast]; linarith) hn
      _ ≤ q * (8192000 * q ^ 8) := mul_le_mul_of_nonneg_right h (by positivity)
      _ = 8192 * (1000 * q ^ 9) := by ring
  exact ⟨rhaz_nonneg _ lo, rhaz_le lo (by simp only [Config.defaultFast]; positivity) hi⟩

/-- The lookup angle with this hardware's parameters stays in the first quadrant. -/
theorem lutAngle_default_range (ay ax : Nat) (h : ¬(ax = 0 ∧ ay = 0)) :
    0 ≤ lutAngle Config.defaultLut ay ax ∧ lutAngle Config.defaultLut ay ax ≤ 8192 := by
  simp only [lutAngle]
  split
  · exact nearestAngle_first (Int.natCast_nonneg _) (by simp only [Config.defaultLut]; norm_num)
  · rename_i hout
    simp only [Config.defaultLut] at hout ⊢
    have hay : 16 * ax ≤ ay ∧ 0 < ay := by
      rcases Nat.eq_zero_or_pos ax with rfl | hax
      · omega
      · have hge : 2 ^ 18 ≤ ay * 2 ^ 14 / ax := by
          by_contra hlt
          exact hout ⟨hax, by omega⟩
        have := (Nat.le_div_iff_mul_le hax).mp hge
        omega
    have h0 : (0 : Int) ≤ 5215 * ax := by positivity
    have h1 := rhaz_nonneg (ay : Int) h0
    have h2 := rhaz_le (q := (ay : Int)) (m := 8192) h0 (by exact_mod_cast hay.2) (by have := hay.1; omega)
    omega

/-- This hardware's arctangent parameters keep FM's range. -/
theorem defaultParams_atanParamsOk (p : Config.Params) (he : p.exactPoints = []) (hl : p.lut = Config.defaultLut)
    (hf : p.fast = Config.defaultFast) : AtanParamsOk p where
  denominator := by rw [hf]; decide
  exactRange := fun y x => by
    simp only [atanExact, he, List.find?_nil]
    split
    · omega
    · exact nearestAngle_range y x
  fastRange := fun y x => by
    simp only [atanFast, hf]
    split
    · omega
    · rename_i h0
      split
      · have := fastRounded_default_range (n := y.natAbs) (q := x.natAbs) (by omega) (by omega) (by omega)
        exact quad_range y x this.1 (by omega)
      · have := fastRounded_default_range (n := x.natAbs) (q := y.natAbs) (by omega) (by omega) (by omega)
        exact quad_range y x (by omega) (by omega)
  lutRange := fun y x => by
    simp only [atanLut, hl]
    split
    · omega
    · have := lutAngle_default_range y.natAbs x.natAbs (by omega)
      exact quad_range y x this.1 (by omega)

end Sys2Proof.Machine
end

