-- ==== Sys2Proof/Laws/State.lean ====
section
/-! SUPPORT. One lemma per field for each named update of the state, true by rfl, so that no later proof unfolds an update. -/

namespace Sys2Proof.Machine

/-! The fields after raising an error. -/

@[simp] theorem raise_params (e : Err) (s : State) : (raise e s).params = s.params := rfl
@[simp] theorem raise_cfg (e : Err) (s : State) : (raise e s).cfg = s.cfg := rfl
@[simp] theorem raise_inLen (e : Err) (s : State) : (raise e s).inLen = s.inLen := rfl
@[simp] theorem raise_status (e : Err) (s : State) : (raise e s).status = setErr e s.status := rfl
@[simp] theorem raise_inFlight (e : Err) (s : State) : (raise e s).inFlight = s.inFlight := rfl
@[simp] theorem raise_report (e : Err) (s : State) : (raise e s).report = s.report := rfl
@[simp] theorem raise_dropCnt (e : Err) (s : State) : (raise e s).dropCnt = s.dropCnt := rfl
@[simp] theorem raise_dp (e : Err) (s : State) : (raise e s).dp = s.dp := rfl
@[simp] theorem raise_mem (e : Err) (s : State) : (raise e s).mem = s.mem := rfl
@[simp] theorem raise_work (e : Err) (s : State) : (raise e s).work = s.work := rfl
@[simp] theorem raise_inputs (e : Err) (s : State) : (raise e s).inputs = s.inputs := rfl
@[simp] theorem raise_busData (e : Err) (s : State) : (raise e s).busData = s.busData := rfl
@[simp] theorem raise_epoch (e : Err) (s : State) : (raise e s).epoch = s.epoch := rfl
@[simp] theorem raise_draws (e : Err) (s : State) : (raise e s).draws = s.draws := rfl

/-! The fields after answering a read. -/

@[simp] theorem answer_params (v : Word) (s : State) : (answer v s).params = s.params := rfl
@[simp] theorem answer_cfg (v : Word) (s : State) : (answer v s).cfg = s.cfg := rfl
@[simp] theorem answer_inLen (v : Word) (s : State) : (answer v s).inLen = s.inLen := rfl
@[simp] theorem answer_status (v : Word) (s : State) : (answer v s).status = s.status := rfl
@[simp] theorem answer_inFlight (v : Word) (s : State) : (answer v s).inFlight = s.inFlight := rfl
@[simp] theorem answer_report (v : Word) (s : State) : (answer v s).report = s.report := rfl
@[simp] theorem answer_dropCnt (v : Word) (s : State) : (answer v s).dropCnt = s.dropCnt := rfl
@[simp] theorem answer_dp (v : Word) (s : State) : (answer v s).dp = s.dp := rfl
@[simp] theorem answer_mem (v : Word) (s : State) : (answer v s).mem = s.mem := rfl
@[simp] theorem answer_work (v : Word) (s : State) : (answer v s).work = s.work := rfl
@[simp] theorem answer_inputs (v : Word) (s : State) : (answer v s).inputs = s.inputs := rfl
@[simp] theorem answer_busData (v : Word) (s : State) : (answer v s).busData = v := rfl
@[simp] theorem answer_epoch (v : Word) (s : State) : (answer v s).epoch = s.epoch := rfl
@[simp] theorem answer_draws (v : Word) (s : State) : (answer v s).draws = s.draws := rfl

/-! The fields after a successful START. -/

@[simp] theorem startRun_params (s : State) : (startRun s).params = s.params := rfl
@[simp] theorem startRun_cfg (s : State) : (startRun s).cfg = s.cfg := rfl
@[simp] theorem startRun_inLen (s : State) : (startRun s).inLen = s.inLen := rfl
@[simp] theorem startRun_status (s : State) :
    (startRun s).status =
      { s.status with terminated := false, running := true } := rfl
@[simp] theorem startRun_inFlight (s : State) : (startRun s).inFlight = s.inFlight := rfl
@[simp] theorem startRun_report (s : State) : (startRun s).report = Report.reset := rfl
@[simp] theorem startRun_dropCnt (s : State) : (startRun s).dropCnt = s.dropCnt := rfl
@[simp] theorem startRun_dp (s : State) :
    (startRun s).dp =
      { Datapath.reset with taps := latchedTaps s.params s.cfg, tapSum := latchedTapSum s.params s.cfg } := rfl
@[simp] theorem startRun_mem (s : State) : (startRun s).mem = s.mem := rfl
@[simp] theorem startRun_work (s : State) : (startRun s).work = s.work := rfl
@[simp] theorem startRun_inputs (s : State) : (startRun s).inputs = s.inputs := rfl
@[simp] theorem startRun_busData (s : State) : (startRun s).busData = s.busData := rfl
@[simp] theorem startRun_epoch (s : State) : (startRun s).epoch = s.epoch := rfl
@[simp] theorem startRun_draws (s : State) : (startRun s).draws = s.draws := rfl

/-! The fields after the issue of a block. -/

@[simp] theorem issueBlock_params (s : State) : (issueBlock s).params = s.params := rfl
@[simp] theorem issueBlock_cfg (s : State) : (issueBlock s).cfg = s.cfg := rfl
@[simp] theorem issueBlock_inLen (s : State) : (issueBlock s).inLen = s.inLen := rfl
@[simp] theorem issueBlock_status (s : State) : (issueBlock s).status = s.status := rfl
@[simp] theorem issueBlock_inFlight (s : State) :
    (issueBlock s).inFlight =
      some { len := s.inLen.toNat, wait := Config.processLatency s.draws } := rfl
@[simp] theorem issueBlock_report (s : State) : (issueBlock s).report = s.report := rfl
@[simp] theorem issueBlock_dropCnt (s : State) : (issueBlock s).dropCnt = s.dropCnt := rfl
@[simp] theorem issueBlock_dp (s : State) : (issueBlock s).dp = s.dp := rfl
@[simp] theorem issueBlock_mem (s : State) : (issueBlock s).mem = s.mem := rfl
@[simp] theorem issueBlock_work (s : State) : (issueBlock s).work = s.work := rfl
@[simp] theorem issueBlock_inputs (s : State) : (issueBlock s).inputs = s.inputs := rfl
@[simp] theorem issueBlock_busData (s : State) : (issueBlock s).busData = s.busData := rfl
@[simp] theorem issueBlock_epoch (s : State) : (issueBlock s).epoch = s.epoch := rfl
@[simp] theorem issueBlock_draws (s : State) : (issueBlock s).draws = s.draws + 1 := rfl

/-! The fields after a reset. -/

@[simp] theorem resetBlock_params (s : State) : (resetBlock s).params = s.params := rfl
@[simp] theorem resetBlock_cfg (s : State) : (resetBlock s).cfg = ConfigRegs.reset := rfl
@[simp] theorem resetBlock_inLen (s : State) : (resetBlock s).inLen = 0#32 := rfl
@[simp] theorem resetBlock_status (s : State) : (resetBlock s).status = Status.clear := rfl
@[simp] theorem resetBlock_inFlight (s : State) : (resetBlock s).inFlight = none := rfl
@[simp] theorem resetBlock_report (s : State) : (resetBlock s).report = Report.reset := rfl
@[simp] theorem resetBlock_dropCnt (s : State) : (resetBlock s).dropCnt = 0#32 := rfl
@[simp] theorem resetBlock_dp (s : State) : (resetBlock s).dp = Datapath.reset := rfl
@[simp] theorem resetBlock_mem (s : State) : (resetBlock s).mem = [] := rfl
@[simp] theorem resetBlock_work (s : State) : (resetBlock s).work = Work.empty := rfl
@[simp] theorem resetBlock_inputs (s : State) : (resetBlock s).inputs = s.inputs := rfl
@[simp] theorem resetBlock_busData (s : State) : (resetBlock s).busData = s.busData := rfl
@[simp] theorem resetBlock_epoch (s : State) : (resetBlock s).epoch = s.epoch + 1 := rfl
@[simp] theorem resetBlock_draws (s : State) : (resetBlock s).draws = s.draws := rfl

/-! The fields after a decimator. -/

@[simp] theorem putDecimated_params (out : List Sample × Accum) (s : State) : (putDecimated out s).params = s.params := rfl
@[simp] theorem putDecimated_cfg (out : List Sample × Accum) (s : State) : (putDecimated out s).cfg = s.cfg := rfl
@[simp] theorem putDecimated_inLen (out : List Sample × Accum) (s : State) : (putDecimated out s).inLen = s.inLen := rfl
@[simp] theorem putDecimated_status (out : List Sample × Accum) (s : State) : (putDecimated out s).status = s.status := rfl
@[simp] theorem putDecimated_inFlight (out : List Sample × Accum) (s : State) :
    (putDecimated out s).inFlight =
      s.inFlight := rfl
@[simp] theorem putDecimated_report (out : List Sample × Accum) (s : State) : (putDecimated out s).report = s.report := rfl
@[simp] theorem putDecimated_dropCnt (out : List Sample × Accum) (s : State) :
    (putDecimated out s).dropCnt =
      s.dropCnt := rfl
@[simp] theorem putDecimated_dp (out : List Sample × Accum) (s : State) :
    (putDecimated out s).dp =
      { s.dp with nowR := out.2.r, nowJ := out.2.j, prevIndex := out.2.p } := rfl
@[simp] theorem putDecimated_mem (out : List Sample × Accum) (s : State) : (putDecimated out s).mem = s.mem := rfl
@[simp] theorem putDecimated_work (out : List Sample × Accum) (s : State) :
    (putDecimated out s).work =
      { s.work with z := out.1 } := rfl
@[simp] theorem putDecimated_inputs (out : List Sample × Accum) (s : State) : (putDecimated out s).inputs = s.inputs := rfl
@[simp] theorem putDecimated_busData (out : List Sample × Accum) (s : State) :
    (putDecimated out s).busData =
      s.busData := rfl
@[simp] theorem putDecimated_epoch (out : List Sample × Accum) (s : State) : (putDecimated out s).epoch = s.epoch := rfl
@[simp] theorem putDecimated_draws (out : List Sample × Accum) (s : State) : (putDecimated out s).draws = s.draws := rfl

/-! The fields after an FM demodulator. -/

@[simp] theorem demodFm_params (atan : Int → Int → Int) (s : State) : (demodFm atan s).params = s.params := rfl
@[simp] theorem demodFm_cfg (atan : Int → Int → Int) (s : State) : (demodFm atan s).cfg = s.cfg := rfl
@[simp] theorem demodFm_inLen (atan : Int → Int → Int) (s : State) : (demodFm atan s).inLen = s.inLen := rfl
@[simp] theorem demodFm_status (atan : Int → Int → Int) (s : State) : (demodFm atan s).status = s.status := rfl
@[simp] theorem demodFm_inFlight (atan : Int → Int → Int) (s : State) : (demodFm atan s).inFlight = s.inFlight := rfl
@[simp] theorem demodFm_report (atan : Int → Int → Int) (s : State) : (demodFm atan s).report = s.report := rfl
@[simp] theorem demodFm_dropCnt (atan : Int → Int → Int) (s : State) : (demodFm atan s).dropCnt = s.dropCnt := rfl
@[simp] theorem demodFm_dp (atan : Int → Int → Int) (s : State) :
    (demodFm atan s).dp =
      { s.dp with preR := (historyAfter (historyOf s) s.work.z).i, preJ := (historyAfter (historyOf s) s.work.z).q } := rfl
@[simp] theorem demodFm_mem (atan : Int → Int → Int) (s : State) : (demodFm atan s).mem = s.mem := rfl
@[simp] theorem demodFm_work (atan : Int → Int → Int) (s : State) :
    (demodFm atan s).work =
      { s.work with y := discriminate atan (historyOf s) s.work.z } := rfl
@[simp] theorem demodFm_inputs (atan : Int → Int → Int) (s : State) : (demodFm atan s).inputs = s.inputs := rfl
@[simp] theorem demodFm_busData (atan : Int → Int → Int) (s : State) : (demodFm atan s).busData = s.busData := rfl
@[simp] theorem demodFm_epoch (atan : Int → Int → Int) (s : State) : (demodFm atan s).epoch = s.epoch := rfl
@[simp] theorem demodFm_draws (atan : Int → Int → Int) (s : State) : (demodFm atan s).draws = s.draws := rfl

/-! The fields after a sample by sample demodulator. -/

@[simp] theorem demodEach_params (f : Sample → Int) (s : State) : (demodEach f s).params = s.params := rfl
@[simp] theorem demodEach_cfg (f : Sample → Int) (s : State) : (demodEach f s).cfg = s.cfg := rfl
@[simp] theorem demodEach_inLen (f : Sample → Int) (s : State) : (demodEach f s).inLen = s.inLen := rfl
@[simp] theorem demodEach_status (f : Sample → Int) (s : State) : (demodEach f s).status = s.status := rfl
@[simp] theorem demodEach_inFlight (f : Sample → Int) (s : State) : (demodEach f s).inFlight = s.inFlight := rfl
@[simp] theorem demodEach_report (f : Sample → Int) (s : State) : (demodEach f s).report = s.report := rfl
@[simp] theorem demodEach_dropCnt (f : Sample → Int) (s : State) : (demodEach f s).dropCnt = s.dropCnt := rfl
@[simp] theorem demodEach_dp (f : Sample → Int) (s : State) : (demodEach f s).dp = s.dp := rfl
@[simp] theorem demodEach_mem (f : Sample → Int) (s : State) : (demodEach f s).mem = s.mem := rfl
@[simp] theorem demodEach_work (f : Sample → Int) (s : State) :
    (demodEach f s).work =
      { s.work with y := s.work.z.map f } := rfl
@[simp] theorem demodEach_inputs (f : Sample → Int) (s : State) : (demodEach f s).inputs = s.inputs := rfl
@[simp] theorem demodEach_busData (f : Sample → Int) (s : State) : (demodEach f s).busData = s.busData := rfl
@[simp] theorem demodEach_epoch (f : Sample → Int) (s : State) : (demodEach f s).epoch = s.epoch := rfl
@[simp] theorem demodEach_draws (f : Sample → Int) (s : State) : (demodEach f s).draws = s.draws := rfl

/-! The fields after the squelch. -/

@[simp] theorem putSquelch_params (h : Nat) (y : List Int) (f : BlockFlags) (m : Nat × Nat) (s : State) :
    (putSquelch h y f m s).params =
      s.params := rfl
@[simp] theorem putSquelch_cfg (h : Nat) (y : List Int) (f : BlockFlags) (m : Nat × Nat) (s : State) :
    (putSquelch h y f m s).cfg =
      s.cfg := rfl
@[simp] theorem putSquelch_inLen (h : Nat) (y : List Int) (f : BlockFlags) (m : Nat × Nat) (s : State) :
    (putSquelch h y f m s).inLen =
      s.inLen := rfl
@[simp] theorem putSquelch_status (h : Nat) (y : List Int) (f : BlockFlags) (m : Nat × Nat) (s : State) :
    (putSquelch h y f m s).status =
      s.status := rfl
@[simp] theorem putSquelch_inFlight (h : Nat) (y : List Int) (f : BlockFlags) (m : Nat × Nat) (s : State) :
    (putSquelch h y f m s).inFlight =
      s.inFlight := rfl
@[simp] theorem putSquelch_report (h : Nat) (y : List Int) (f : BlockFlags) (m : Nat × Nat) (s : State) :
    (putSquelch h y f m s).report =
      s.report := rfl
@[simp] theorem putSquelch_dropCnt (h : Nat) (y : List Int) (f : BlockFlags) (m : Nat × Nat) (s : State) :
    (putSquelch h y f m s).dropCnt =
      s.dropCnt := rfl
@[simp] theorem putSquelch_dp (h : Nat) (y : List Int) (f : BlockFlags) (m : Nat × Nat) (s : State) :
    (putSquelch h y f m s).dp =
      { s.dp with hits := h } := rfl
@[simp] theorem putSquelch_mem (h : Nat) (y : List Int) (f : BlockFlags) (m : Nat × Nat) (s : State) :
    (putSquelch h y f m s).mem =
      s.mem := rfl
@[simp] theorem putSquelch_work (h : Nat) (y : List Int) (f : BlockFlags) (m : Nat × Nat) (s : State) :
    (putSquelch h y f m s).work =
      { s.work with y := y, flags := f, mad := some m } := rfl
@[simp] theorem putSquelch_inputs (h : Nat) (y : List Int) (f : BlockFlags) (m : Nat × Nat) (s : State) :
    (putSquelch h y f m s).inputs =
      s.inputs := rfl
@[simp] theorem putSquelch_busData (h : Nat) (y : List Int) (f : BlockFlags) (m : Nat × Nat) (s : State) :
    (putSquelch h y f m s).busData =
      s.busData := rfl
@[simp] theorem putSquelch_epoch (h : Nat) (y : List Int) (f : BlockFlags) (m : Nat × Nat) (s : State) :
    (putSquelch h y f m s).epoch =
      s.epoch := rfl
@[simp] theorem putSquelch_draws (h : Nat) (y : List Int) (f : BlockFlags) (m : Nat × Nat) (s : State) :
    (putSquelch h y f m s).draws =
      s.draws := rfl

/-! The fields after loading a block. -/

@[simp] theorem loadBlock_params (len : Nat) (s : State) : (loadBlock len s).params = s.params := rfl
@[simp] theorem loadBlock_cfg (len : Nat) (s : State) : (loadBlock len s).cfg = s.cfg := rfl
@[simp] theorem loadBlock_inLen (len : Nat) (s : State) : (loadBlock len s).inLen = s.inLen := rfl
@[simp] theorem loadBlock_status (len : Nat) (s : State) : (loadBlock len s).status = s.status := rfl
@[simp] theorem loadBlock_inFlight (len : Nat) (s : State) : (loadBlock len s).inFlight = s.inFlight := rfl
@[simp] theorem loadBlock_report (len : Nat) (s : State) : (loadBlock len s).report = s.report := rfl
@[simp] theorem loadBlock_dropCnt (len : Nat) (s : State) : (loadBlock len s).dropCnt = s.dropCnt := rfl
@[simp] theorem loadBlock_dp (len : Nat) (s : State) : (loadBlock len s).dp = s.dp := rfl
@[simp] theorem loadBlock_mem (len : Nat) (s : State) : (loadBlock len s).mem = s.mem := rfl
@[simp] theorem loadBlock_work (len : Nat) (s : State) :
    (loadBlock len s).work =
      { Work.empty with xs := inputSamples s 0 (len / 2) } := rfl
@[simp] theorem loadBlock_inputs (len : Nat) (s : State) : (loadBlock len s).inputs = s.inputs := rfl
@[simp] theorem loadBlock_busData (len : Nat) (s : State) : (loadBlock len s).busData = s.busData := rfl
@[simp] theorem loadBlock_epoch (len : Nat) (s : State) : (loadBlock len s).epoch = s.epoch := rfl
@[simp] theorem loadBlock_draws (len : Nat) (s : State) : (loadBlock len s).draws = s.draws := rfl

/-! The fields after a completion. -/

@[simp] theorem completeBlock_params (s : State) : (completeBlock s).params = s.params := rfl
@[simp] theorem completeBlock_cfg (s : State) : (completeBlock s).cfg = s.cfg := rfl
@[simp] theorem completeBlock_inLen (s : State) : (completeBlock s).inLen = s.inLen := rfl
@[simp] theorem completeBlock_status (s : State) : (completeBlock s).status = statusAfter s.work.flags s.status := rfl
@[simp] theorem completeBlock_inFlight (s : State) : (completeBlock s).inFlight = none := rfl
@[simp] theorem completeBlock_report (s : State) : (completeBlock s).report = reportAfter s.work s.report := rfl
@[simp] theorem completeBlock_dropCnt (s : State) : (completeBlock s).dropCnt = s.dropCnt := rfl
@[simp] theorem completeBlock_dp (s : State) : (completeBlock s).dp = s.dp := rfl
@[simp] theorem completeBlock_mem (s : State) : (completeBlock s).mem = storeOutputs s.mem Config.outbufBase s.work.y := rfl
@[simp] theorem completeBlock_work (s : State) : (completeBlock s).work = Work.empty := rfl
@[simp] theorem completeBlock_inputs (s : State) : (completeBlock s).inputs = s.inputs := rfl
@[simp] theorem completeBlock_busData (s : State) : (completeBlock s).busData = s.busData := rfl
@[simp] theorem completeBlock_epoch (s : State) : (completeBlock s).epoch = s.epoch := rfl
@[simp] theorem completeBlock_draws (s : State) : (completeBlock s).draws = s.draws := rfl

/-! Errors set one bit and no other. -/

@[simp] theorem setErr_running (e : Err) (st : Status) : (setErr e st).running = st.running := by cases e <;> rfl

@[simp] theorem setErr_terminated (e : Err) (st : Status) : (setErr e st).terminated = st.terminated := by cases e <;> rfl

theorem errBit_setErr (e f : Err) (st : Status) : errBit f (setErr e st) = (decide (f = e) || errBit f st) := by
  cases e <;> cases f <;> simp [setErr, errBit]

@[simp] theorem errBit_clearSticky (e : Err) (st : Status) : errBit e (clearSticky st) = false := by cases e <;> rfl

@[simp] theorem clearSticky_running (st : Status) : (clearSticky st).running = st.running := rfl

@[simp] theorem errBit_clear (e : Err) : errBit e Status.clear = false := by cases e <;> rfl

/-! BUSY. -/

theorem busy_eq_true {s : State} : s.busy = true ↔ ∃ j, s.inFlight = some j := Option.isSome_iff_exists

theorem busy_eq_false {s : State} : s.busy = false ↔ s.inFlight = none := by simp [State.busy]

@[simp] theorem raise_busy (e : Err) (s : State) : (raise e s).busy = s.busy := rfl

@[simp] theorem answer_busy (v : Word) (s : State) : (answer v s).busy = s.busy := rfl

/-! A word-sized write carries its data whole. -/

@[simp] theorem busBits_word (w : Word) : busBits .word w = w := by
  simp [busBits, Size.bytes, Nat.mod_eq_of_lt w.isLt]

end Sys2Proof.Machine
end

