-- ==== Sys2Proof/Laws/Memory.lean ====
section
/-! SUPPORT. The laws of memory: a write keeps the canonical form, is read back, and leaves every other address alone; the
little-endian store and load over it. -/

namespace Sys2Proof.Machine

/-- Every entry after a write is the written one or an old one. -/
theorem Memory.mem_write {m : Memory} {a : Nat} {v : Byte} {c : Host.Cell} (h : c ∈ Memory.write m a v) :
    c = (a, v) ∨ c ∈ m := by
  induction m with
  | nil => simpa [Memory.write] using h
  | cons e m ih =>
    simp only [Memory.write] at h
    split at h
    · simpa using h
    · split at h
      · rcases List.mem_cons.mp h with h | h
        · exact .inl h
        · exact .inr (List.mem_cons_of_mem _ h)
      · rcases List.mem_cons.mp h with h | h
        · exact .inr (h ▸ List.mem_cons_self)
        · exact (ih h).imp id (List.mem_cons_of_mem _)

/-- A write keeps the canonical form. -/
theorem Memory.write_wf {m : Memory} (h : m.wf) (a : Nat) (v : Byte) : Memory.wf (Memory.write m a v) := by
  induction m with
  | nil => simp [Memory.write, Memory.wf]
  | cons e m ih =>
    obtain ⟨he, hm⟩ := List.pairwise_cons.mp h
    simp only [Memory.write]
    split
    · rename_i hlt
      refine List.pairwise_cons.mpr ⟨fun c hc => ?_, h⟩
      rcases List.mem_cons.mp hc with rfl | hc
      · exact hlt
      · exact hlt.trans (he c hc)
    · split
      · rename_i heq
        exact List.pairwise_cons.mpr ⟨fun c hc => heq ▸ he c hc, hm⟩
      · rename_i hge hne
        refine List.pairwise_cons.mpr ⟨fun c hc => ?_, ih hm⟩
        rcases Memory.mem_write hc with rfl | hc
        · show e.1 < a
          omega
        · exact he c hc

/-- Reading the address just written gives the byte written. -/
@[simp] theorem Memory.read_write_same (m : Memory) (a : Nat) (v : Byte) : (Memory.write m a v).read? a = some v := by
  induction m with
  | nil => simp [Memory.write, Memory.read?]
  | cons e m ih =>
    simp only [Memory.write]
    split
    · simp [Memory.read?]
    · split
      · simp [Memory.read?]
      · rename_i hne
        simp [Memory.read?, Ne.symm hne, ih]

/-- A write leaves every other address alone. -/
theorem Memory.read_write_other (m : Memory) {a b : Nat} (v : Byte) (h : b ≠ a) :
    (Memory.write m a v).read? b = m.read? b := by
  induction m with
  | nil => simp [Memory.write, Memory.read?, Ne.symm h]
  | cons e m ih =>
    simp only [Memory.write]
    split
    · simp [Memory.read?, Ne.symm h]
    · split
      · rename_i heq
        subst heq
        simp [Memory.read?, Ne.symm h]
      · simp [Memory.read?, ih]

/-- A little-endian store keeps the canonical form. -/
theorem Memory.storeLE_wf {m : Memory} (h : m.wf) (a n : Nat) (w : Word) : Memory.wf (m.storeLE a n w) := by
  induction n with
  | zero => exact h
  | succ n ih => exact Memory.write_wf ih _ _

/-- A little-endian store leaves every address outside its bytes alone. -/
theorem Memory.read_storeLE_other (m : Memory) {a b : Nat} (n : Nat) (w : Word) (h : b < a ∨ a + n ≤ b) :
    (m.storeLE a n w).read? b = m.read? b := by
  induction n with
  | zero => rfl
  | succ n ih =>
    rw [Memory.storeLE, Memory.read_write_other _ _ (by omega), ih (by omega)]

/-- A little-endian store is read back byte by byte. -/
theorem Memory.read_storeLE_same (m : Memory) (a : Nat) {n k : Nat} (w : Word) (h : k < n) :
    (m.storeLE a n w).read? (a + k) = some (byteOf w k) := by
  induction n with
  | zero => omega
  | succ n ih =>
    rw [Memory.storeLE]
    rcases Nat.lt_succ_iff_lt_or_eq.mp h with h | rfl
    · rw [Memory.read_write_other _ _ (by omega), ih h]
    · simp

/-- The entries of a stored memory. -/
theorem Memory.mem_storeLE {m : Memory} {a n : Nat} {w : Word} {c : Host.Cell} (h : c ∈ m.storeLE a n w) :
    c ∈ m ∨ (a ≤ c.1 ∧ c.1 < a + n) := by
  induction n with
  | zero => exact .inl h
  | succ n ih =>
    rcases Memory.mem_write h with rfl | h
    · exact .inr ⟨by simp, by simp⟩
    · exact (ih h).imp id fun ⟨h1, h2⟩ => ⟨h1, by omega⟩

/-- Storing outputs keeps the canonical form. -/
theorem storeOutputs_wf {m : Memory} (h : m.wf) (a : Nat) (y : List Int) : Memory.wf (storeOutputs m a y) := by
  induction y generalizing m a with
  | nil => exact h
  | cons v y ih => exact ih (Memory.storeLE_wf h _ _ _) _

/-- Storing outputs leaves every address outside their bytes alone. -/
theorem read_storeOutputs_other (m : Memory) {a b : Nat} (y : List Int) (h : b < a ∨ a + 2 * y.length ≤ b) :
    (storeOutputs m a y).read? b = m.read? b := by
  induction y generalizing m a with
  | nil => rfl
  | cons v y ih =>
    simp only [List.length_cons] at h
    rw [storeOutputs, ih _ (by omega), Memory.read_storeLE_other _ _ _ (by omega)]

/-- The entries of a memory with outputs stored. -/
theorem mem_storeOutputs {m : Memory} {a : Nat} {y : List Int} {c : Host.Cell} (h : c ∈ storeOutputs m a y) :
    c ∈ m ∨ (a ≤ c.1 ∧ c.1 < a + 2 * y.length) := by
  induction y generalizing m a with
  | nil => exact .inl h
  | cons v y ih =>
    simp only [List.length_cons]
    rcases ih h with h | h
    · rcases Memory.mem_storeLE h with h | h
      · exact .inl h
      · exact .inr (by omega)
    · exact .inr (by omega)

end Sys2Proof.Machine
end

