-- ==== Sys2Proof/Laws/Effects.lean ====
section
/-! SUPPORT. What a step can do, said once: the effects of a host access, and the frame of the datapath operations. Proofs about
all instructions cite these lemmas and do not unfold the meanings. -/

namespace Sys2Proof.Machine

/-- What one host access can make of a state. -/
inductive HostEffect (s : State) : State → Prop where
  | keep : HostEffect s s
  | error (e : Err) : HostEffect s (raise e s)
  | readError : HostEffect s (answer 0#32 (raise .bus s))
  | answered (v : Word) : HostEffect s (answer v s)
  | drawn (v : Word) (n : Nat) : s.busy = true → HostEffect s { answer v s with draws := s.draws + n }
  | configured (c : ConfigRegs) : s.status.running = false → HostEffect s { s with cfg := c }
  | lengthSet (v : Word) : s.busy = false → HostEffect s { s with inLen := v }
  | stored (a n : Nat) (w : Word) : s.busy = false → Config.inbufBase ≤ a → a + n ≤ Config.inbufBase + s.params.inBufBytes →
      HostEffect s { s with mem := s.mem.storeLE a n w }
  | started : s.busy = false → s.status.running = false → configOk s.params s.cfg = true → HostEffect s (startRun s)
  | issued : s.busy = false → s.status.running = true → lengthOk s = true → HostEffect s (issueBlock s)
  | dropped : s.busy = true → HostEffect s { s with dropCnt := incSaturating s.dropCnt }
  | stopped : s.busy = false → HostEffect s { s with status := { s.status with running := false } }
  | cleared : HostEffect s { s with status := clearSticky s.status }
  | reset : HostEffect s (resetBlock s)

/-- A bus error, of a read or a write, is an effect. -/
theorem busError_effect (access : Access) (s : State) : HostEffect s (busError access s) := by
  cases access
  · exact .readError
  · exact .error .bus

/-- A command answers a next state with one of the effects. -/
theorem issueCommand_effect (w : Word) (s : State) : ∃ t, issueCommand w s = .next t ∧ HostEffect s t := by
  unfold issueCommand
  split
  · exact ⟨_, rfl, .keep⟩
  · unfold execStart
    split
    · exact ⟨_, rfl, .error _⟩
    · split
      · exact ⟨_, rfl, .error _⟩
      · split
        · rename_i hb hr hc
          exact ⟨_, rfl, .started (by simpa using hb) (by simpa using hr) hc⟩
        · exact ⟨_, rfl, .error _⟩
  · unfold execProcess
    split
    · rename_i hb
      exact ⟨_, rfl, .dropped hb⟩
    · split
      · exact ⟨_, rfl, .error _⟩
      · split
        · rename_i hb hr hl
          exact ⟨_, rfl, .issued (by simpa using hb) (by simpa using hr) hl⟩
        · exact ⟨_, rfl, .error _⟩
  · unfold execStop
    split
    · exact ⟨_, rfl, .error _⟩
    · rename_i hb
      exact ⟨_, rfl, .stopped (by simpa using hb)⟩
  · exact ⟨_, rfl, .cleared⟩
  · exact ⟨_, rfl, .reset⟩
  · exact ⟨_, rfl, .error _⟩

/-- A write to a locked register is an effect. -/
theorem writeLocked_effect (c : ConfigRegs) (s : State) : HostEffect s (writeLocked c s) := by
  unfold writeLocked
  split
  · exact .error _
  · rename_i h
    exact .configured c (by simpa using h)

/-- A write to any register but COMMAND is an effect. -/
theorem writeReg_effect (r : Reg) (v : Word) (s : State) : HostEffect s (writeReg r v s) := by
  cases r
  case inLen =>
    simp only [writeReg, writeInLen]
    split
    · exact .error _
    · rename_i h
      exact .lengthSet v (by simpa using h)
  case ctrl => exact writeLocked_effect _ s
  case downsample => exact writeLocked_effect _ s
  case outputScale => exact writeLocked_effect _ s
  case sqLevel => exact writeLocked_effect _ s
  case sqThresh => exact writeLocked_effect _ s
  case deemphA => exact writeLocked_effect _ s
  all_goals exact .keep

/-- A host transaction answers a next state with one of the effects: the bus never stops. -/
theorem busTransaction_effect (t : Transaction) (s : State) : ∃ u, busTransaction t s = .next u ∧ HostEffect s u := by
  simp only [busTransaction, decode, decodeBus]
  split_ifs with hreg hin hout
  · cases t.access with
    | read =>
      simp only [exec, execRegRead]
      split
      · exact ⟨_, rfl, .answered _⟩
      · exact ⟨_, rfl, busError_effect _ _⟩
    | write data =>
      simp only [exec, execRegWrite]
      split
      · split
        · exact issueCommand_effect _ _
        · exact ⟨_, rfl, writeReg_effect _ _ _⟩
      · exact ⟨_, rfl, busError_effect _ _⟩
  · simp only [exec, execInbufAccess]
    split
    · rename_i hok
      cases t.access with
      | read => exact ⟨_, rfl, .answered _⟩
      | write data =>
        simp only [busAccess]
        split
        · exact ⟨_, rfl, .error _⟩
        · rename_i hb
          simp only [inbufAccessOk, Bool.and_eq_true, decide_eq_true_eq] at hok
          exact ⟨_, rfl, .stored _ _ _ (by simpa using hb) hok.1.2 hok.2⟩
    · exact ⟨_, rfl, busError_effect _ _⟩
  · cases t.access with
    | read =>
      simp only [exec, busAccess, execOutbufRead]
      split
      · split
        · rename_i hb
          exact ⟨_, rfl, .drawn _ _ hb⟩
        · exact ⟨_, rfl, .answered _⟩
      · exact ⟨_, rfl, busError_effect _ _⟩
    | write data => exact ⟨_, rfl, busError_effect _ _⟩
  · exact ⟨_, rfl, busError_effect _ _⟩

/-- A transaction that reads answers: the value read, or, on an error, 0. -/
theorem busTransaction_read {t : Transaction} (ht : t.access = .read) (s : State) :
    ∃ u, busTransaction t s = .next u ∧
      ((∃ v, u = answer v s) ∨ (∃ v n, s.busy = true ∧ u = { answer v s with draws := s.draws + n }) ∨
        u = answer 0#32 (raise .bus s)) := by
  simp only [busTransaction, decode, decodeBus, ht, busAccess]
  split_ifs
  · simp only [exec, execRegRead]
    split
    · exact ⟨_, rfl, .inl ⟨_, rfl⟩⟩
    · exact ⟨_, rfl, .inr (.inr rfl)⟩
  · simp only [exec, execInbufAccess]
    split
    · exact ⟨_, rfl, .inl ⟨_, rfl⟩⟩
    · exact ⟨_, rfl, .inr (.inr rfl)⟩
  · simp only [exec, execOutbufRead]
    split
    · split
      · rename_i hb
        exact ⟨_, rfl, .inr (.inl ⟨_, _, hb, rfl⟩)⟩
      · exact ⟨_, rfl, .inl ⟨_, rfl⟩⟩
    · exact ⟨_, rfl, .inr (.inr rfl)⟩
  · exact ⟨_, rfl, .inr (.inr rfl)⟩

/-- A command leaves the last answer as it was. -/
theorem issueCommand_busData {w : Word} {s t : State} (h : issueCommand w s = .next t) : t.busData = s.busData := by
  unfold issueCommand at h
  split at h
  · cases h; rfl
  · unfold execStart at h
    split_ifs at h <;> cases h <;> rfl
  · unfold execProcess at h
    split_ifs at h <;> cases h <;> rfl
  · unfold execStop at h
    split_ifs at h <;> cases h <;> rfl
  all_goals cases h; rfl

/-- A register write that issues no command leaves the last answer as it was. -/
theorem writeReg_busData (r : Reg) (v : Word) (s : State) : (writeReg r v s).busData = s.busData := by
  cases r <;> simp only [writeReg, writeLocked, writeInLen] <;> first | rfl | (split <;> rfl)

/-- A transaction that writes leaves the last answer as it was. -/
theorem busTransaction_write {t : Transaction} {data : Word} (ht : t.access = .write data) {s u : State}
    (h : busTransaction t s = .next u) : u.busData = s.busData := by
  simp only [busTransaction, decode, decodeBus, ht, busAccess] at h
  split_ifs at h
  · simp only [exec, execRegWrite] at h
    split_ifs at h
    · exact issueCommand_busData h
    · cases h; exact writeReg_busData _ _ _
    · cases h; rfl
  · simp only [exec, execInbufAccess] at h
    split_ifs at h <;> cases h <;> rfl
  · cases h; rfl
  · cases h; rfl

/-- What the outside's next entry does: the effect of an access on the state it is taken from, a reset, or nothing. -/
theorem outsideStep_effect (s : State) :
    ∃ t, outsideStep s = .next t ∧
      (HostEffect { s with inputs := s.inputs.tail } t) := by
  unfold outsideStep
  cases hs : s.inputs with
  | nil =>
    have h : { s with inputs := ([] : List Input) } = s := by rw [← hs]
    exact ⟨s, rfl, by simpa [h] using HostEffect.keep (s := s)⟩
  | cons i rest =>
    cases i with
    | access t => exact busTransaction_effect t _
    | hardwareReset => exact ⟨_, rfl, .reset⟩

/-- The datapath operations, as a predicate: what the engine runs. -/
def isDatapath (i : Instr) : Prop := i ∈ datapathOps

/-- What a datapath operation leaves alone: everything but `work` and, of the datapath state, the accumulators, the histories and
the counter; and the samples loaded. -/
structure StageFrame (s t : State) : Prop where
  params : t.params = s.params
  cfg : t.cfg = s.cfg
  inLen : t.inLen = s.inLen
  status : t.status = s.status
  inFlight : t.inFlight = s.inFlight
  report : t.report = s.report
  dropCnt : t.dropCnt = s.dropCnt
  mem : t.mem = s.mem
  inputs : t.inputs = s.inputs
  busData : t.busData = s.busData
  epoch : t.epoch = s.epoch
  draws : t.draws = s.draws
  taps : t.dp.taps = s.dp.taps
  tapSum : t.dp.tapSum = s.dp.tapSum
  xs : t.work.xs = s.work.xs

theorem StageFrame.refl (s : State) : StageFrame s s := by constructor <;> rfl

theorem StageFrame.trans {s t u : State} (h : StageFrame s t) (k : StageFrame t u) : StageFrame s u where
  params := k.params.trans h.params
  cfg := k.cfg.trans h.cfg
  inLen := k.inLen.trans h.inLen
  status := k.status.trans h.status
  inFlight := k.inFlight.trans h.inFlight
  report := k.report.trans h.report
  dropCnt := k.dropCnt.trans h.dropCnt
  mem := k.mem.trans h.mem
  inputs := k.inputs.trans h.inputs
  busData := k.busData.trans h.busData
  epoch := k.epoch.trans h.epoch
  draws := k.draws.trans h.draws
  taps := k.taps.trans h.taps
  tapSum := k.tapSum.trans h.tapSum
  xs := k.xs.trans h.xs

/-- Every datapath operation answers a next state within the frame. -/
theorem datapath_frame {i : Instr} (hi : isDatapath i) (s : State) : ∃ t, exec i s = .next t ∧ StageFrame s t := by
  simp only [isDatapath, datapathOps, List.mem_cons, List.not_mem_nil, or_false] at hi
  rcases hi with rfl | rfl | rfl | rfl | rfl | rfl | rfl | rfl | rfl | rfl | rfl | rfl
  case inr.inr.inr.inr.inr.inr.inr.inr.inr.inl =>
    simp only [exec, execSquelch]
    split_ifs <;> exact ⟨_, rfl, by constructor <;> rfl⟩
  case inr.inr.inr.inr.inr.inr.inr.inr.inr.inr.inr =>
    simp only [exec, execDcblock]
    split_ifs <;> exact ⟨_, rfl, by constructor <;> rfl⟩
  all_goals exact ⟨_, rfl, by constructor <;> rfl⟩

/-- A list of datapath operations answers a next state within the frame. -/
theorem runStages_frame {l : List Instr} (hl : ∀ i ∈ l, isDatapath i) (s : State) :
    ∃ t, runStages l s = .next t ∧ StageFrame s t := by
  induction l generalizing s with
  | nil => exact ⟨s, rfl, .refl s⟩
  | cons i l ih =>
    obtain ⟨t, ht, hf⟩ := datapath_frame (hl i List.mem_cons_self) s
    obtain ⟨u, hu, hg⟩ := ih (fun j hj => hl j (List.mem_cons_of_mem _ hj)) t
    exact ⟨u, by simp [runStages, ht, hu], hf.trans hg⟩

/-- The engine's stages are datapath operations. -/
theorem stages_datapath (w : Word) : ∀ i ∈ stages w, isDatapath i := fun _ hi => (List.mem_filter.mp hi).1

/-- What PROCESS_BLOCK goes on to is the completion of a state within the stages' frame of the loaded block. -/
theorem processBlock_next {len : Nat} {s t : State} (h : processBlock len s = .next t) :
    ∃ u, StageFrame (loadBlock len s) u ∧ t = completeBlock u := by
  unfold processBlock at h
  split_ifs at h with hl hr
  · cases h
    exact ⟨_, hl ▸ .refl _, rfl⟩
  · obtain ⟨u, hu, hf⟩ := runStages_frame (stages_datapath (ctrlWord s.cfg.ctrl)) (loadBlock len s)
    simp only [hu] at h
    cases h
    exact ⟨u, hf, rfl⟩

/-- While the outside moves, a step is the outside's, on the state with a waiting block counted down. -/
theorem step_outside {s : State} (h : outsideMoves s) : step s = outsideStep { s with inFlight := waited s.inFlight } := by
  unfold step
  cases hj : s.inFlight with
  | none =>
    have : { s with inFlight := waited none } = s := by
      cases s
      cases hj
      rfl
    simp only [this]
  | some j =>
    obtain ⟨len, wait⟩ := j
    cases wait with
    | zero => exact absurd rfl (h _ hj)
    | succ n => rfl

/-- All that a step can do: one effect of the outside, or a completion. -/
theorem step_cases {s t : State} (h : step s = .next t) :
    (outsideMoves s ∧ HostEffect (taken s) t) ∨
      ∃ j, s.inFlight = some j ∧ j.wait = 0 ∧ ∃ u, StageFrame (loadBlock j.len s) u ∧ t = completeBlock u := by
  by_cases ho : outsideMoves s
  · left
    obtain ⟨u, hu, he⟩ := outsideStep_effect { s with inFlight := waited s.inFlight }
    rw [step_outside ho, hu] at h
    cases h
    exact ⟨ho, he⟩
  · right
    simp only [outsideMoves, not_forall, not_not] at ho
    obtain ⟨j, hj, hw⟩ := ho
    obtain ⟨len, wait⟩ := j
    cases hw
    simp only [step, hj] at h
    exact ⟨_, hj, rfl, processBlock_next h⟩

end Sys2Proof.Machine
end

