-- ==== Sys2Proof/Laws/PerInstr.lean ====
section
/-! SUPPORT. A fact about every instruction as syntax, one lemma per constructor: its encoding is a selection pattern on CTRL exactly
when CTRL can select it, with the same mask and match, and the match lies within the mask (30_encoding.md R125). -/

namespace Sys2Proof.Laws.Selection

/-- R125, of one instruction. -/
def Statement (i : Instr) : Prop :=
  (∀ mask pattern, encode i = .ctrl mask pattern ↔ selection i = some (mask, pattern)) ∧
  (∀ mask pattern, selection i = some (mask, pattern) → pattern &&& mask = pattern ∧ mask &&& 0x77F = mask)

/-- An operation that CTRL selects. -/
theorem of_pattern {i : Instr} {m p : Word} (he : encode i = .ctrl m p) (hs : selection i = some (m, p))
    (hp : p &&& m = p) (hm : m &&& 0x77F = m) : Statement i := by
  refine ⟨fun a b => ?_, fun a b h => ?_⟩
  · rw [he, hs]; simp
  · rw [hs] at h; cases h; exact ⟨hp, hm⟩

/-- An instruction that CTRL cannot select. -/
theorem of_none {i : Instr} (he : ∀ m p, encode i ≠ .ctrl m p) (hs : selection i = none) : Statement i :=
  ⟨fun m p => by simp [hs, he m p], fun m p h => by simp [hs] at h⟩

theorem nop : Statement .nop := of_none (by simp [encode]) rfl

theorem start : Statement .start := of_none (by simp [encode]) rfl

theorem process : Statement .process := of_none (by simp [encode]) rfl

theorem stop : Statement .stop := of_none (by simp [encode]) rfl

theorem clearStatus : Statement .clearStatus := of_none (by simp [encode]) rfl

theorem softReset : Statement .softReset := of_none (by simp [encode]) rfl

theorem decimBoxcar : Statement .decimBoxcar := of_pattern rfl rfl (by decide) (by decide)

theorem decimFir : Statement .decimFir := of_pattern rfl rfl (by decide) (by decide)

theorem demodFmExact : Statement .demodFmExact := of_pattern rfl rfl (by decide) (by decide)

theorem demodFmFast : Statement .demodFmFast := of_pattern rfl rfl (by decide) (by decide)

theorem demodFmLut : Statement .demodFmLut := of_pattern rfl rfl (by decide) (by decide)

theorem demodAm : Statement .demodAm := of_pattern rfl rfl (by decide) (by decide)

theorem demodUsb : Statement .demodUsb := of_pattern rfl rfl (by decide) (by decide)

theorem demodLsb : Statement .demodLsb := of_pattern rfl rfl (by decide) (by decide)

theorem demodRaw : Statement .demodRaw := of_pattern rfl rfl (by decide) (by decide)

theorem squelch : Statement .squelch := of_pattern rfl rfl (by decide) (by decide)

theorem deemph : Statement .deemph := of_pattern rfl rfl (by decide) (by decide)

theorem dcblock : Statement .dcblock := of_pattern rfl rfl (by decide) (by decide)

theorem regRead (addr : Word) (size : Size) : Statement (.regRead addr size) := of_none (by simp [encode]) rfl

theorem regWrite (addr : Word) (size : Size) (data : Word) : Statement (.regWrite addr size data) :=
  of_none (by simp [encode]) rfl

theorem inbufAccess (addr : Word) (size : Size) (access : Access) : Statement (.inbufAccess addr size access) :=
  of_none (by simp [encode]) rfl

theorem outbufRead (addr : Word) (size : Size) (access : Access) : Statement (.outbufRead addr size access) :=
  of_none (by simp [encode]) rfl

end Sys2Proof.Laws.Selection
end

