-- ==== Sys2Proof/Tests/Slice0.lean ====
section
/-! SUPPORT. The model's own tests. Expected results come from the spec: the encodings of 30_encoding.md, and the vectors of
95_test_vectors.md, named in each test's comment. The second half holds one witness, or more, for the hypotheses of each statement. -/

namespace Sys2Proof.Tests

open Sys2Proof.Machine

/-! Helpers: small states. -/

/-- One value of the state that an outcome goes on to. -/
def after {α : Type} (f : State → α) : Outcome → Option α
  | .next s => some (f s)
  | .fault _ => none
  | .refused _ => none

/-- A configuration: CTRL as a word, the other registers as numbers. -/
def config (ctrl : Word) (d scale level : Nat) (thresh : Int) (a : Nat) : ConfigRegs :=
  { ctrl := ctrlOfWord ctrl, downsample := BitVec.ofNat 9 d, outputScale := BitVec.ofNat 16 scale,
    sqLevel := BitVec.ofNat 32 level, sqThresh := BitVec.ofInt 32 thresh, deemphA := BitVec.ofNat 16 a }

/-- Reset, then configured. -/
def configured (c : ConfigRegs) : State := { State.reset with cfg := c }

/-- Reset, configured and started. -/
def started (c : ConfigRegs) : State := startRun (configured c)

/-- A started block with lists in work. -/
def working (c : ConfigRegs) (xs z : List Sample) (y : List Int) : State :=
  { started c with work := { Work.empty with xs := xs, z := z, y := y } }

/-- A sample. -/
def smp (i q : Int) : Sample := { i := i, q := q }

/-- A state whose next step is one host access. -/
def asking (t : Transaction) (s : State) : State := { s with inputs := [.access t] }

/-- A host read. -/
def rd (addr : Word) (size : Size) : Transaction := { addr := addr, size := size, access := .read }

/-- A host write. -/
def wr (addr : Word) (size : Size) (data : Word) : Transaction := { addr := addr, size := size, access := .write data }

/-- A state with a block in flight. -/
def flying (len wait : Nat) (s : State) : State :=
  { s with inLen := BitVec.ofNat 32 len, inFlight := some { len := len, wait := wait } }

/-- INBUF bytes from offset 0 on. -/
def holding (bytes : List Byte) (s : State) : State :=
  { s with mem := bytes.zipIdx.map (fun b => (Config.inbufBase + b.2, b.1)) }

/-- STATUS of a state. -/
def statusOf (s : State) : Word := statusWord s.busy s.status

/-! Well-formedness: one ill-formed term for each check. -/

theorem test_wf_accepts_last_reg : (Instr.regWrite 0x00000FFC .word 0xFFFFFFFF).wellFormed = true := by decide
theorem test_wf_refuses_regRead_outside_reg : (Instr.regRead 0x00001000 .word).wellFormed = false := by decide
theorem test_wf_refuses_regWrite_outside_reg : (Instr.regWrite 0x01000000 .word 0).wellFormed = false := by decide
theorem test_wf_refuses_regWrite_wide_data : (Instr.regWrite 0x00000004 .byte 0x100).wellFormed = false := by decide
theorem test_wf_refuses_inbuf_outside_window : (Instr.inbufAccess 0x02000000 .byte .read).wellFormed = false := by decide
theorem test_wf_refuses_inbuf_wide_data :
    (Instr.inbufAccess 0x01000000 .half (.write 0x10000)).wellFormed = false := by decide
theorem test_wf_refuses_outbuf_outside_window : (Instr.outbufRead 0x04000000 .word .read).wellFormed = false := by decide
theorem test_wf_refuses_outbuf_wide_data :
    (Instr.outbufRead 0x02000000 .byte (.write 0x1FF)).wellFormed = false := by decide

/-! Decoding: every constructor, from the words of R122, R125 and R120 written out. -/

/-- R122: `zero[31:4]`, then `cmd[3:0]`. -/
def cmdWord (cmd : BitVec 4) : Word := 0b0000000000000000000000000000#28 ++ cmd

theorem test_decode_nop : decode (.cmd (cmdWord 0b0000#4)) = .ok .nop := by rfl
theorem test_decode_start : decode (.cmd (cmdWord 0b0001#4)) = .ok .start := by rfl
theorem test_decode_process : decode (.cmd (cmdWord 0b0010#4)) = .ok .process := by rfl
theorem test_decode_stop : decode (.cmd (cmdWord 0b0011#4)) = .ok .stop := by rfl
theorem test_decode_clearStatus : decode (.cmd (cmdWord 0b0100#4)) = .ok .clearStatus := by rfl
theorem test_decode_softReset : decode (.cmd (cmdWord 0b0101#4)) = .ok .softReset := by rfl
theorem test_decode_illegal_six : decode (.cmd (cmdWord 0b0110#4)) = .error (.illegalCommand 6) := by rfl
theorem test_decode_illegal_high : decode (.cmd 0x80000000) = .error (.illegalCommand 0x80000000) := by rfl

/-- R120: `rsv[31:11]`, `sq_src[10]`, `atan_sel[9:8]`, bit 7, `demod[6:4]`, `multichan[3]`, `dc_en[2]`, `deemph_en[1]`,
`fir_en[0]`. -/
def ctrlBits (sqSrc : BitVec 1) (atanSel : BitVec 2) (demod : BitVec 3) (multichan dcEn deemphEn firEn : BitVec 1) : Word :=
  0#21 ++ sqSrc ++ atanSel ++ 0#1 ++ demod ++ multichan ++ dcEn ++ deemphEn ++ firEn

theorem test_decode_decimBoxcar : decode (.ctrl (ctrlBits 0 0 0 0 0 0 1) (ctrlBits 0 0 0 0 0 0 0)) = .ok .decimBoxcar := by rfl
theorem test_decode_decimFir : decode (.ctrl (ctrlBits 0 0 0 0 0 0 1) (ctrlBits 0 0 0 0 0 0 1)) = .ok .decimFir := by rfl
theorem test_decode_demodFmExact : decode (.ctrl (ctrlBits 0 3 7 0 0 0 0) (ctrlBits 0 0 0 0 0 0 0)) = .ok .demodFmExact := by rfl
theorem test_decode_demodFmFast : decode (.ctrl (ctrlBits 0 3 7 0 0 0 0) (ctrlBits 0 1 0 0 0 0 0)) = .ok .demodFmFast := by rfl
theorem test_decode_demodFmLut : decode (.ctrl (ctrlBits 0 3 7 0 0 0 0) (ctrlBits 0 2 0 0 0 0 0)) = .ok .demodFmLut := by rfl
theorem test_decode_demodAm : decode (.ctrl (ctrlBits 0 0 7 0 0 0 0) (ctrlBits 0 0 1 0 0 0 0)) = .ok .demodAm := by rfl
theorem test_decode_demodUsb : decode (.ctrl (ctrlBits 0 0 7 0 0 0 0) (ctrlBits 0 0 2 0 0 0 0)) = .ok .demodUsb := by rfl
theorem test_decode_demodLsb : decode (.ctrl (ctrlBits 0 0 7 0 0 0 0) (ctrlBits 0 0 3 0 0 0 0)) = .ok .demodLsb := by rfl
theorem test_decode_demodRaw : decode (.ctrl (ctrlBits 0 0 7 0 0 0 0) (ctrlBits 0 0 4 0 0 0 0)) = .ok .demodRaw := by rfl
theorem test_decode_squelch : decode (.ctrl (ctrlBits 0 0 4 0 0 0 0) (ctrlBits 0 0 0 0 0 0 0)) = .ok .squelch := by rfl
theorem test_decode_deemph : decode (.ctrl (ctrlBits 0 0 4 0 0 1 0) (ctrlBits 0 0 0 0 0 1 0)) = .ok .deemph := by rfl
theorem test_decode_dcblock : decode (.ctrl (ctrlBits 0 0 4 0 1 0 0) (ctrlBits 0 0 0 0 1 0 0)) = .ok .dcblock := by rfl
theorem test_decode_no_selection : decode (.ctrl 0x0070 0x0050) = .error (.noSuchSelection 0x0070 0x0050) := by rfl

theorem test_decode_regRead : decode (.bus (rd 0x00000FFC .word)) = .ok (.regRead 0x00000FFC .word) := by rfl
theorem test_decode_regWrite : decode (.bus (wr 0x00000020 .word 2)) = .ok (.regWrite 0x00000020 .word 2) := by rfl
theorem test_decode_inbufAccess : decode (.bus (rd 0x01FFFFFF .byte)) = .ok (.inbufAccess 0x01FFFFFF .byte .read) := by rfl
theorem test_decode_outbufRead : decode (.bus (rd 0x03FFFFFE .half)) = .ok (.outbufRead 0x03FFFFFE .half .read) := by rfl
theorem test_decode_unmapped : decode (.bus (rd 0x00001000 .word)) = .error (.unmapped 0x00001000) := by rfl

/-- R125: a CTRL word selects its operations in the order of R124. P4's word: FIR, USB, DEEMPH, DC. -/
theorem test_stages_of_0x27 : stages 0x27 = [.decimFir, .demodUsb, .squelch, .deemph, .dcblock] := by decide
theorem test_stages_of_raw : stages 0x46 = [.decimBoxcar, .demodRaw] := by decide

/-! The table's words (log 12), and the step that runs one as the first thing after reset. -/

theorem test_table_process : decodeTableWord 32 0x2 = some .process := by decide
theorem test_table_fm_fast : decodeTableWord 16 0x100 = some .demodFmFast := by decide
theorem test_table_dcblock : decodeTableWord 8 0x4 = some .dcblock := by decide
theorem test_table_inbuf : decodeTableWord 32 0x01000000 = some (.inbufAccess 0x01000000 .word .read) := by decide
theorem test_table_outbuf : decodeTableWord 32 0x02000000 = some (.outbufRead 0x02000000 .word .read) := by decide
theorem test_fetch_start : after (fun s => statusOf s) (step (State.reset.withFetchWord 32 0x1)) = some 0x002 := by decide
theorem test_fetch_usb : after (fun s => s.report.outLen) (step (State.reset.withFetchWord 8 0x20)) = some 1 := by
  decide +kernel

/-! Commands (95_test_vectors.md section 2.11). -/

/-- R160. -/
theorem test_nop : after (fun s => s.status) (exec .nop (started ConfigRegs.reset)) =
    some (started ConfigRegs.reset).status := by decide
/-- CMD-2. -/
theorem test_start : after (fun s => (statusOf s, s.dp.nowR)) (exec .start (configured (config 0 4 1 0 0 1))) =
    some (0x002, 0) := by decide
/-- CMD-8: check 6. -/
theorem test_start_divisor_zero : after statusOf (exec .start (configured (config 0x02 1 1 0 0 0))) = some 0x008 := by decide
/-- CMD-13, R165. -/
theorem test_process_empty : after (fun s => (s.busy, s.inFlight.map Job.len))
    (exec .process (started ConfigRegs.reset)) = some (true, some 0) := by rfl
/-- CMD-16. -/
theorem test_process_dropped : after (fun s => (s.dropCnt, statusOf s)) (exec .process (flying 2 1 (started ConfigRegs.reset))) =
    some (1, 0x003) := by decide
/-- R170: running and idle. -/
theorem test_stop : after statusOf (exec .stop (started ConfigRegs.reset)) = some 0x000 := by decide
/-- CMD-17. -/
theorem test_stop_busy : after statusOf (exec .stop (flying 2 1 (started ConfigRegs.reset))) = some 0x043 := by decide
/-- CMD-19. -/
theorem test_clearStatus : after statusOf
    (exec .clearStatus { State.reset with status := { Status.clear with cfgErr := true, inputErr := true } }) = some 0 := by
  decide
/-- CMD-20. -/
theorem test_softReset : after (fun s => (statusOf s, s.cfg, s.dropCnt, s.mem))
    (exec .softReset (holding [1] { flying 2 1 (started (config 0x10 4 1 0 0 1)) with dropCnt := 7 })) =
    some (0x000, ConfigRegs.reset, 0, []) := by decide

/-! Decimation (section 2.1, 2.2). -/

/-- BX-1. -/
theorem test_boxcar_sums : after (fun s => s.work.z)
    (exec .decimBoxcar (working (config 0x40 2 1 0 0 1) [smp 0 0, smp 2 (-2), smp 3 (-7), smp (-127) 128] [] [])) =
    some [smp 2 (-2), smp (-124) 121] := by decide
/-- BX-2. -/
theorem test_boxcar_keeps_phase : after (fun s => (s.work.z, s.dp.nowR, s.dp.nowJ, s.dp.prevIndex))
    (exec .decimBoxcar (working (config 0x40 3 1 0 0 1) [smp 1 2, smp 3 4] [] [])) = some ([], 4, 6, 2) := by decide
/-- FIR-2. -/
theorem test_fir_weights : after (fun s => s.work.z)
    (exec .decimFir (working (config 0x41 4 1 0 0 1) [smp 10 (-10), smp 20 0, smp 30 5, smp 40 (-5)] [] [])) =
    some [smp 100 6] := by decide +kernel
/-- FIR-3: toward zero. -/
theorem test_fir_truncates : after (fun s => s.work.z)
    (exec .decimFir (working (config 0x41 3 1 0 0 1) [smp (-1) 0, smp 0 0, smp 0 0] [] [])) = some [smp 0 0] := by
  decide +kernel
/-- Section 2.2: FIR_TAPS(8) and its sum. -/
theorem test_taps_of_8 : ((firTaps .hamming 8).map BitVec.toNat, tapTotal (firTaps .hamming 8)) =
    ([20, 64, 163, 243, 243, 163, 64, 20], 980) := by decide +kernel

/-! Arctangents (section 2.3) and FM (section 2.4). -/

/-- Rows 13, 14, 15: where the three differ. -/
theorem test_atan_rows : ([atanExact, atanFast, atanLut].map fun g => let f := g Config.defaultParams; [f 16 1, f 17 1, f 1 16]) =
    [[7866, 7886, 326], [7867, 7886, 325], [7866, 7885, 326]] := by decide +kernel
/-- Rows 4, 5, 7, 26: the quadrants. -/
theorem test_atan_quadrants : ([atanExact, atanFast, atanLut].map fun g => let f := g Config.defaultParams; [f 0 (-5), f (-5) 0, f (-1) (-1), f 7 (-1000)]) =
    [[16384, -8192, -12288, 16347], [16384, -8192, -12288, 16347], [16384, -8192, -12288, 16348]] := by decide +kernel
/-- R244: the values that the rule names. -/
theorem test_lut_entries : [0, 2, 16384, 2 ^ 18 - 1].map (lutEntry Config.defaultLut) = [0, 1, 4096, 7866] := by decide +kernel
/-- Parameters other than the defaults, by hand from R242, R243 and R245: a given value of ATAN_EXACT; `P(t) = t`; a table of two entries
at one fractional bit, and its fallback. -/
def otherParams : Config.Params :=
  { Config.defaultParams with
    exactPoints := [{ y := 1, x := 1, value := 4097 }],
    lut := { coef := 1, size := 2, table := .entries [3, 7], fallback := 10 },
    fast := { den := 2, b1 := 2, b3 := 0, b5 := 0, b7 := 0, b9 := 0 } }
theorem test_atan_other_params :
    ([(1, 1), (2, 1)].map fun a => atanExact otherParams a.1 a.2) = [4097, 5774] ∧ atanFast otherParams 1 2 = 1 ∧
    ([(1, 3), (-2, 3), (2, 2)].map fun a => atanLut otherParams a.1 a.2) = [3, -7, 8182] := by decide +kernel
/-- FM-1. -/
theorem test_fm_exact : after (fun s => (s.work.y, s.dp.preR, s.dp.preJ))
    (exec .demodFmExact (working ConfigRegs.reset [] [smp 100 0, smp 0 100, smp (-100) 0, smp 100 1] [])) =
    some ([0, 8192, 8192, -16332], 100, 1) := by decide +kernel
/-- FM-1. -/
theorem test_fm_fast : after (fun s => (s.work.y, s.dp.preR, s.dp.preJ))
    (exec .demodFmFast (working ConfigRegs.reset [] [smp 100 0, smp 0 100, smp (-100) 0, smp 100 1] [])) =
    some ([0, 8192, 8192, -16332], 100, 1) := by decide +kernel
/-- FM-1. -/
theorem test_fm_lut : after (fun s => (s.work.y, s.dp.preR, s.dp.preJ))
    (exec .demodFmLut (working ConfigRegs.reset [] [smp 100 0, smp 0 100, smp (-100) 0, smp 100 1] [])) =
    some ([0, 8192, 8192, -16332], 100, 1) := by decide +kernel

/-! AM, SSB, RAW (sections 2.5 to 2.7). -/

/-- AM-1. -/
theorem test_am : after (fun s => s.work.y)
    (exec .demodAm (working (config 0x10 1 256 0 0 1) [] [smp 3 4, smp 128 128, smp 0 0, smp (-127) (-127)] [])) =
    some [1280, 32767, 0, 32767] := by decide +kernel
/-- SSB-3. -/
theorem test_usb : after (fun s => s.work.y)
    (exec .demodUsb (working (config 0x20 1 256 0 0 1) [] [smp 3 4, smp 128 128, smp (-127) (-127), smp 1 (-1)] [])) =
    some [1792, 32767, -32768, 0] := by decide
/-- SSB-4. -/
theorem test_lsb : after (fun s => s.work.y)
    (exec .demodLsb (working (config 0x30 1 256 0 0 1) [] [smp 3 4, smp 128 128, smp (-127) (-127), smp 1 (-1)] [])) =
    some [-256, 0, 0, 512] := by decide
/-- RAW-1 and RAW-2: unscaled, 32768 saturates. -/
theorem test_raw : after (fun s => s.work.y)
    (exec .demodRaw (working (config 0x40 1 9 0 0 1) [] [smp (-127) 128, smp 32768 1] [])) =
    some [-127, 128, 32767, 1] := by decide

/-! Squelch (section 2.8). -/

/-- The four MAD examples. -/
theorem test_mad : [mad [0, 2, 4, 10], mad [5, 5, 5], mad [-3, 3], mad [-1, 0, 0], mad []] = [3, 0, 3, 0, 0] := by decide
/-- SQ-4b: muted, and the run terminates. -/
theorem test_squelch_mutes : after (fun s => (s.work.y, resultWord s.work.flags, s.dp.hits, s.work.mad))
    (exec .squelch
      { working (config 0x10 1 1 5 (-1) 1) [smp 7 0, smp 7 0] [] [7, 7] with
        dp := { Datapath.reset with hits := 1 } }) =
    some ([0, 0], 0x1A, 2, some (0, 0)) := by decide
/-- SQ-5b: a hop request in multi-channel mode. -/
theorem test_squelch_hops : after (fun s => (s.work.y, resultWord s.work.flags, s.dp.hits))
    (exec .squelch
      { working (config 0x28 1 1 5 (-1) 1) [smp 7 0, smp 7 0] [] [7, 7] with
        dp := { Datapath.reset with hits := 1 } }) =
    some ([7, 7], 0x14, 2) := by decide

/-! De-emphasis and DC block (sections 2.9, 2.10). -/

/-- DE-2. -/
theorem test_deemph : after (fun s => (s.work.y, s.dp.deemphAvg))
    (exec .deemph (working (config 0x22 1 1 0 0 4) [] [] [100, 100, 100, 100])) = some ([25, 44, 58, 69], 69) := by decide
/-- DE-4: halves away from zero. -/
theorem test_deemph_halves : after (fun s => (s.work.y, s.dp.deemphAvg))
    (exec .deemph (working (config 0x22 1 1 0 0 2) [] [] [-1, -1, 1])) = some ([-1, -1, 0], 0) := by decide
/-- DC-2. -/
theorem test_dcblock : after (fun s => (s.work.y, s.dp.dcAvg))
    (exec .dcblock
      { working (config 0x24 1 1 0 0 1) [] [] [100, 200, 300, 400] with dp := { Datapath.reset with dcAvg := 25 } }) =
    some ([53, 153, 253, 353], 47) := by decide
/-- DC-5: saturates. -/
theorem test_dcblock_saturates : after (fun s => (s.work.y, s.dp.dcAvg))
    (exec .dcblock
      { working (config 0x24 1 256 0 0 1) [] [] [32767, -32768, 32767, 32767] with
        dp := { Datapath.reset with dcAvg := 3276 } }) =
    some ([28181, -32768, 28181, 28181], 4586) := by decide

/-! Bus accesses (section 2.11). -/

/-- CMD-1. -/
theorem test_regRead_id : after (fun s => s.busData) (step (asking (rd 0 .word) State.reset)) = some 0x46445331 := by decide
/-- BUS-1. -/
theorem test_regRead_byte : after (fun s => (s.busData, statusOf s))
    (step (asking (rd 0x24 .byte) { State.reset with busData := 5 })) = some (0, 0x100) := by decide
/-- CMD-21. -/
theorem test_regWrite_downsample : after (fun s => s.cfg.downsample)
    (step (asking (wr 0x008 .word 0x204) State.reset)) = some 4 := by decide
/-- CMD-15. -/
theorem test_regWrite_locked : after (fun s => (s.cfg.ctrl, statusOf s))
    (step (asking (wr 0x004 .word 0x10) (started ConfigRegs.reset))) = some (ConfigRegs.reset.ctrl, 0x082) := by decide
/-- BUS-3. -/
theorem test_inbuf_read : after (fun s => s.busData)
    (step (asking (rd 0x01000000 .half) (holding [127, 128] State.reset))) = some 0x807F := by decide
/-- BUS-4. -/
theorem test_inbuf_misaligned : after (fun s => (s.mem, statusOf s))
    (step (asking (wr 0x01000001 .half 5) State.reset)) = some ([], 0x100) := by decide
/-- BUS-8. -/
theorem test_outbuf_read : after (fun s => s.busData)
    (step (asking (rd 0x02000000 .half) { State.reset with mem := [(0x02000000, 0xFF), (0x02000001, 0xFF)] })) =
    some 0xFFFF := by decide
/-- BUS-5. -/
theorem test_outbuf_write : after (fun s => (s.mem, statusOf s))
    (step (asking (wr 0x02000000 .half 1) State.reset)) = some ([], 0x100) := by decide
/-- BUS-6: unmapped. -/
theorem test_unmapped_read : after (fun s => (s.busData, statusOf s))
    (step (asking (rd 0x03000000 .word) { State.reset with busData := 9 })) = some (0, 0x100) := by decide

/-! The engine. -/

/-- P1, block 1. -/
def blockP1 : State := flying 6 0 (holding [130, 131, 130, 131, 122, 139] (started (config 0x10 2 128 0 0 1)))

/-- P1 after block 1: output 1280 and the report registers. -/
theorem test_block_p1_report : after
    (fun s => (s.mem.drop 6, resultWord s.report.result, s.report.outLen, s.report.madI, s.report.madQ)) (step blockP1) =
    some ([(0x02000000, 0x00), (0x02000001, 0x05)], 0x11, 1, 3, 3) := by decide +kernel
/-- P1 after block 1: the carried window. -/
theorem test_block_p1_window : after (fun s => (s.dp.nowR, s.dp.nowJ, s.dp.prevIndex, statusOf s)) (step blockP1) =
    some (-5, 12, 1, 0x002) := by decide +kernel
/-- SQ-4b through the engine: the terminating block ends the run. -/
theorem test_block_terminates : after (fun s => (statusOf s, resultWord s.report.result))
    (step
      (flying 4 0
        (holding [134, 127, 134, 127]
          { started (config 0x10 1 1 5 (-1) 1) with dp := { Datapath.reset with hits := 1 } }))) =
    some (0x004, 0x1A) := by decide +kernel

/-! Witnesses: concrete states and operands that meet the hypotheses of each statement, clause by clause, at the ends of their
ranges. A block is at rest in `reset`, in a run in `inRun`, with a block in flight in `inFlight2`. -/

/-- A run with reset's configuration, idle. -/
def inRun : State := started ConfigRegs.reset

/-- The same, with a written block of two bytes in flight that still waits a step. -/
def inFlight2 : State := flying 2 1 (holding [130, 131] inRun)

/-- The same, about to complete. -/
def landing2 : State := flying 2 0 (holding [130, 131] inRun)

theorem witness_CommandWordsDecodeOrAreIllegal :
    ((0 : Word).toNat ≤ 5 ∧ (5 : Word).toNat ≤ 5) ∧ 5 < (6 : Word).toNat ∧ 5 < (0xFFFFFFFF : Word).toNat := by decide

theorem witness_DecodeInvertsEncode :
    (Instr.nop.wellFormed && Instr.dcblock.wellFormed && (Instr.regWrite 0xFFF .byte 0xFF).wellFormed &&
      (Instr.inbufAccess 0x01FFFFFC .word (.write 0xFFFFFFFF)).wellFormed &&
      (Instr.outbufRead 0x03FFFFFE .half .read).wellFormed) = true := by decide

theorem witness_DecodedInstructionsAreWellFormed :
    decode (.bus (wr 0x01000000 .byte 0x1FF)) = .ok (.inbufAccess 0x01000000 .byte (.write 0xFF)) := by rfl

theorem witness_SelectedStagesFollowTheChain :
    reservedSelection (ctrlWord (ctrlOfWord 0x340)) = false ∧ reservedSelection (ctrlWord (ctrlOfWord 0x200)) = false ∧
    reservedSelection (ctrlWord (ctrlOfWord 0x300)) = true ∧ reservedSelection (ctrlWord (ctrlOfWord 0x050)) = true := by
  decide

theorem witness_InputSamplesAreRecentredBytes : (0 : Nat) < 131072 ∧ 131071 < 131072 := by decide

theorem witness_StepRunsTheDecodedAccess :
    outsideMoves (asking (wr 0x020 .word 1) inFlight2) ∧
    (asking (wr 0x020 .word 1) inFlight2).inputs = .access (commandWrite 1) :: [] ∧
    decode (.bus (commandWrite 1)) = .ok (.regWrite 0x020 .word 1) ∧ decode (.cmd 1) = .ok .start :=
  ⟨fun j h => by cases h; decide, rfl, rfl, rfl⟩

theorem witness_StepRunsTheSelectedStages :
    landing2.inFlight = some { len := 2, wait := 0 } ∧ (2 : Nat) ≠ 0 ∧ reservedSelection (ctrlWord landing2.cfg.ctrl) = false := by
  decide

theorem witness_UnmappedAccessesRaiseBusErr :
    (∀ a ∈ [(0x1000 : Word), 0x00FFFFFF, 0x01040000, 0x01FFFFFF, 0x02080000, 0x03FFFFFF, 0x04000000, 0xFFFFFFFF],
      0x1000 ≤ a.toNat ∧ ¬(0x01000000 ≤ a.toNat ∧ a.toNat < 0x01000000 + State.reset.params.inBufBytes) ∧
      ¬(0x02000000 ≤ a.toNat ∧ a.toNat < 0x02000000 + 2 * State.reset.params.inBufBytes)) ∧
    outsideMoves (asking (rd 0x1000 .word) State.reset) ∧ (wr 0x1000 .word 0).access = .write 0 :=
  ⟨by simp [State.reset, Config.defaultParams], fun j h => by simp [asking, State.reset] at h, rfl⟩

theorem witness_StartFollowsItsRule_accepted :
    State.reset.busy = false ∧ State.reset.status.running = false ∧ configOk State.reset.params State.reset.cfg = true := by
  decide

/-- The clean run with the FIR on as well: check 7 is met. -/
theorem witness_StartFollowsItsRule_fir :
    configOk Config.defaultParams (config 0x27 256 1 0 0 1) = true ∧ configOk Config.defaultParams (config 0x01 1 1 0 0 1) = true := by
  decide +kernel

theorem witness_StartFollowsItsRule_refused :
    inFlight2.busy = true ∧ (inRun.busy = false ∧ inRun.status.running = true) ∧
    ((configured (config 0 257 1 0 0 1)).busy = false ∧ (configured (config 0 257 1 0 0 1)).status.running = false ∧
      configOk (configured (config 0 257 1 0 0 1)).params (configured (config 0 257 1 0 0 1)).cfg = false) := by decide

theorem witness_ProcessPutsABlockInFlight :
    inRun.busy = false ∧ inRun.status.running = true ∧
    ∀ n ∈ [0#32, 0x40000#32], n.toNat % 2 = 0 ∧ n.toNat ≤ inRun.params.inBufBytes :=
  ⟨rfl, rfl, by simp [inRun, started, startRun, configured, State.reset, Config.defaultParams]⟩

theorem witness_ProcessDropsAndRefusals :
    inFlight2.busy = true ∧ (State.reset.busy = false ∧ State.reset.status.running = false) ∧
    (inRun.busy = false ∧ inRun.status.running = true ∧ (1#32).toNat % 2 = 1 ∧ inRun.params.inBufBytes < (0x40002#32).toNat) := by
  decide

theorem witness_NopStopAndClearStatus : inRun.busy = false ∧ inFlight2.busy = true := by decide

theorem witness_ResetsRestoreTheResetState :
    outsideMoves { inFlight2 with inputs := [.hardwareReset] } ∧
    { inFlight2 with inputs := [.hardwareReset] }.inputs = .hardwareReset :: [] :=
  ⟨fun j h => by cases h; decide, rfl⟩

theorem witness_CommandWritesIssueCommands : decode (.cmd 5) = .ok .softReset ∧ 5 < (6#32).toNat := ⟨rfl, by decide⟩

theorem witness_RegReadAnswersTheRegister :
    (0 < 256 ∧ 255 < 256) ∧
    ∀ o ∈ [0x060, 0x3FC, 0x800, 0xFFC], o % 4 = 0 ∧ ((0x060 ≤ o ∧ o < 0x400) ∨ (0x800 ≤ o ∧ o < 0x1000)) := by decide

theorem witness_ConfigWritesStoreTheDefinedBits : State.reset.status.running = false := by decide

theorem witness_LockedInLenAndReadOnlyWrites :
    inRun.status.running = true ∧ inRun.busy = false ∧ inFlight2.busy = true ∧
    ∀ o ∈ [0x000, 0x024, 0x05C, 0x060, 0x400, 0xFFC], o % 4 = 0 ∧ o < 0x1000 ∧ (o = 0 ∨ 0x024 ≤ o) := by decide

theorem witness_InbufWritesStoreLittleEndian :
    (∀ p ∈ [((0x01000000 : Word), Size.byte), (0x0103FFFF, .byte), (0x0103FFFE, .half), (0x0103FFFC, .word)],
      p.1.toNat % p.2.bytes = 0 ∧ 0x01000000 ≤ p.1.toNat ∧
      p.1.toNat + p.2.bytes ≤ 0x01000000 + State.reset.params.inBufBytes) ∧
    State.reset.busy = false ∧ inFlight2.busy = true := by decide

theorem witness_BufferReadsAreLittleEndian :
    (∀ p ∈ [((0x01000000 : Word), Size.word), (0x0103FFFF, .byte)],
      p.1.toNat % p.2.bytes = 0 ∧ 0x01000000 ≤ p.1.toNat ∧
      p.1.toNat + p.2.bytes ≤ 0x01000000 + State.reset.params.inBufBytes) ∧
    (∀ p ∈ [((0x02000000 : Word), Size.word), (0x0207FFFE, .half)],
      p.1.toNat % p.2.bytes = 0 ∧ 0x02000000 ≤ p.1.toNat ∧
      p.1.toNat + p.2.bytes ≤ 0x02000000 + 2 * State.reset.params.inBufBytes) ∧ State.reset.busy = false := by decide

theorem witness_BusyOutbufReadsAreDraws :
    inFlight2.busy = true ∧ ∀ p ∈ [((0x02000000 : Word), Size.byte), (0x0207FFFC, .word)],
      p.1.toNat % p.2.bytes = 0 ∧ 0x02000000 ≤ p.1.toNat ∧
      p.1.toNat + p.2.bytes ≤ 0x02000000 + 2 * inFlight2.params.inBufBytes := by decide

theorem witness_WrongAccessesRaiseBusErr :
    ((0xFFC : Word).toNat < 0x1000 ∧ Size.half ≠ .word) ∧ ((0xFFF : Word).toNat < 0x1000 ∧ (0xFFF : Word).toNat % 4 ≠ 0) ∧
    (0x01000001 : Word).toNat % Size.half.bytes ≠ 0 ∧ (0x02000002 : Word).toNat % Size.word.bytes ≠ 0 := by decide

theorem witness_DecimationCountAndPhase :
    (Instr.decimFir = .decimBoxcar ∨ Instr.decimFir = .decimFir) ∧ inRun.dp.prevIndex < inRun.cfg.downsample.toNat := by decide

theorem witness_BoxcarOutputsAreWindowSums :
    let s := working (config 0x40 256 1 0 0 1) (List.replicate 256 (smp 128 128)) [] []
    1 ≤ s.cfg.downsample.toNat ∧ s.dp.prevIndex = 0 ∧ s.dp.nowR = 0 ∧ s.dp.nowJ = 0 ∧
    0 < s.work.xs.length / s.cfg.downsample.toNat := by decide +kernel

theorem witness_FirOutputsAreNormalisedWeightedSums :
    let s := working (config 0x41 4 1 0 0 1) (List.replicate 4 (smp 1 2)) [] []
    1 ≤ s.cfg.downsample.toNat ∧ s.dp.prevIndex = 0 ∧ s.dp.nowR = 0 ∧ s.dp.nowJ = 0 ∧
    0 < s.work.xs.length / s.cfg.downsample.toNat := by decide +kernel

theorem witness_DecimationIsContinuousAcrossBlocks : Instr.decimBoxcar = .decimBoxcar ∨ Instr.decimBoxcar = .decimFir :=
  .inl rfl

theorem witness_HammingTapsFollowTheFormula : (2 ≤ 2 ∧ 2 ≤ 256 ∧ 1 < 2) ∧ 2 ≤ 256 ∧ 256 ≤ 256 ∧ 255 < 256 := by decide

/-- Parameters with a given value of ATAN_EXACT, within the law. -/
def givenPoint : Config.Params := { Config.defaultParams with exactPoints := [{ y := 0, x := 5, value := 0 }] }

theorem witness_AtanExactIsTheNearestInteger :
    ExactLaw Config.defaultParams ∧ ExactLaw givenPoint ∧ ¬((-5 : Int) = 0 ∧ (0 : Int) = 0) := by
  refine ⟨by simp [ExactLaw, Config.defaultParams], ?_, by decide⟩
  simp [ExactLaw, givenPoint]

theorem witness_DefaultLutTableIsTheNearestIntegers : 0 < 2 ^ 18 ∧ 2 ^ 18 - 1 < 2 ^ 18 := by decide

/-- Entry 0 of the default table is within its law, and beyond the table's domain no entry is read. -/
theorem lutReadLawful_axis (x : Int) : LutReadLawful Config.defaultLut 0 x := by
  intro _ _
  have h0 : lutEntry Config.defaultLut 0 = 0 := by decide +kernel
  simp [LutLaw, h0]

theorem lutReadLawful_beyond : LutReadLawful Config.defaultLut (2 ^ 31) 1 := fun _ h => absurd h (by decide)

theorem witness_AtanLutIsWithinItsBound :
    (Config.defaultLut.coef = 14 ∧ Config.defaultLut.size = 2 ^ 18 ∧ Config.defaultLut.fallback = 5215) ∧
    (¬((-1 : Int) = 0 ∧ (0 : Int) = 0) ∧ |(0 : Int)| ≤ 2 ^ 31 ∧ |(-1 : Int)| ≤ 2 ^ 31 ∧ LutReadLawful Config.defaultLut 0 (-1)) ∧
    (¬((1 : Int) = 0 ∧ (2 : Int) ^ 31 = 0) ∧ |(2 : Int) ^ 31| ≤ 2 ^ 31 ∧ |(1 : Int)| ≤ 2 ^ 31 ∧
      LutReadLawful Config.defaultLut (2 ^ 31) 1) :=
  ⟨by decide, ⟨by decide, by decide, by decide, lutReadLawful_axis _⟩, by decide, by decide, by decide, lutReadLawful_beyond⟩

theorem witness_AtanFastIsWithinItsBound :
    Config.defaultParams.fast = Config.defaultFast ∧
    ¬((-2 : Int) ^ 31 = 0 ∧ (2 : Int) ^ 31 = 0) ∧ |(2 : Int) ^ 31| ≤ 2 ^ 31 ∧ |(-2 : Int) ^ 31| ≤ 2 ^ 31 := by decide

theorem witness_ArctangentRanges :
    ExactLaw givenPoint ∧ Config.defaultParams.fast = Config.defaultFast ∧
    (Config.defaultLut.coef = 14 ∧ Config.defaultLut.size = 2 ^ 18 ∧ Config.defaultLut.fallback = 5215) ∧
    LutReadLawful Config.defaultLut 0 (-1) ∧ (-1 : Int) < 0 :=
  ⟨witness_AtanExactIsTheNearestInteger.2.1, rfl, by decide, lutReadLawful_axis _, by decide⟩

theorem witness_FmOutputsAreProductAngles :
    (Instr.demodFmLut, atanLut inRun.params) ∈
      [(Instr.demodFmExact, atanExact inRun.params), (.demodFmFast, atanFast inRun.params),
        (.demodFmLut, atanLut inRun.params)] := by simp

theorem witness_AmOutputsAreScaledMagnitudes :
    (working (config 0x10 1 256 0 0 1) [] [smp 3 4] []).work.z[0]? = some (smp 3 4) := by decide

/-- SquelchDecides' hypothesis `active`. -/
abbrev activeBlock (s : State) : Prop :=
  s.cfg.sqLevel.toNat = 0 ∨
    s.cfg.sqLevel.toNat < mad ((if s.cfg.ctrl.sqSrc = true then s.work.z else s.work.xs).map Sample.i) ∨
    s.cfg.sqLevel.toNat < mad ((if s.cfg.ctrl.sqSrc = true then s.work.z else s.work.xs).map Sample.q)

/-- SquelchDecides' counter. -/
abbrev countedHits (s : State) : Nat := min (s.dp.hits + 1) (s.cfg.sqThresh.toInt.natAbs + 1)

/-- A constant block of level 10 and threshold -2 under a CTRL word, entered with a counter. -/
def quiet (ctrl : Word) (hits : Nat) : State :=
  { working (config ctrl 1 1 10 (-2) 1) [smp 5 5, smp 5 5] [] [7, 7] with dp := { Datapath.reset with hits := hits } }

/-- The four clauses, in order: level 0 and a MAD just above the level are active (in PRE and in POST), a MAD at the level is not;
the counter at the threshold is tolerated, one above it hops or mutes. -/
theorem witness_SquelchDecides :
    (activeBlock (working (config 0x10 1 1 0 0 1) [] [] []) ∧
      activeBlock (working (config 0x10 1 1 19 0 1) [smp 0 0, smp 40 0] [] []) ∧
      activeBlock (working (config 0x410 1 1 19 0 1) [] [smp 0 0, smp 40 0] [])) ∧
    (¬activeBlock (working (config 0x10 1 1 20 0 1) [smp 0 0, smp 40 0] [] [])) ∧
    (¬activeBlock (quiet 0x10 1) ∧ countedHits (quiet 0x10 1) ≤ (quiet 0x10 1).cfg.sqThresh.toInt.natAbs) ∧
    (¬activeBlock (quiet 0x18 2) ∧ (quiet 0x18 2).cfg.sqThresh.toInt.natAbs < countedHits (quiet 0x18 2) ∧
      (quiet 0x18 2).cfg.ctrl.multichan = true) ∧
    (¬activeBlock (quiet 0x10 2) ∧ (quiet 0x10 2).cfg.sqThresh.toInt.natAbs < countedHits (quiet 0x10 2) ∧
      (quiet 0x10 2).cfg.ctrl.multichan = false) := by decide

theorem witness_ConstantInputIsMutedAfterTheThreshold :
    let s := working (config 0x10 1 1 1 (-1) 1) [smp 5 5, smp 5 5] [] [7, 7]
    1 ≤ s.cfg.sqLevel.toNat ∧ s.cfg.ctrl.multichan = false ∧
    (∀ w ∈ (if s.cfg.ctrl.sqSrc = true then s.work.z else s.work.xs), w = smp 5 5) ∧
    s.cfg.sqThresh.toInt.natAbs < s.dp.hits + 1 + 1 := by decide

theorem witness_DeemphStepBounds : (1 : Nat) ≤ 1 ∧ (1 : Nat) ≤ 65535 := by decide

theorem witness_DcblockSubtractsTheBlend :
    (working (config 0x24 4 1 0 0 1) [smp 1 1] [] []).work.y = [] ∧
    (working (config 0x24 1 1 0 0 1) [] [] [100]).work.y ≠ [] := by decide

/-- RAW, and each of the other demodulators' chains. -/
theorem witness_CompletionFollowsTheStageChain :
    (let s := flying 2 0 (started (config 0x40 1 1 0 0 1))
     s.inFlight = some { len := 2, wait := 0 } ∧ reservedSelection (ctrlWord s.cfg.ctrl) = false ∧ s.cfg.ctrl.demod = 4#3) ∧
    (let s := flying 2 0 (started (config 0x436 1 1 0 0 1))
     s.inFlight = some { len := 2, wait := 0 } ∧ reservedSelection (ctrlWord s.cfg.ctrl) = false ∧ s.cfg.ctrl.demod ≠ 4#3) := by
  decide

theorem witness_EmptyBlockReportsNothing : (flying 0 0 inRun).inFlight = some { len := 0, wait := 0 } := by decide

theorem witness_CompletionStoresTheOutputs :
    (working ConfigRegs.reset [] [] [-1, 7]).work.y[1]? = some 7 ∧ (0x01FFFFFF < 0x02000000 ∧ 0x02000000 + 2 * 2 ≤ 0x02000004) := by
  decide

/-- The control invariant of the three states. -/
theorem controlInv_of_small (s : State) (hp : s.params = Config.defaultParams) (hw : s.work = Work.empty)
    (hr : s.status.running = true) (hc : configOk s.params s.cfg = true)
    (hj : ∀ j ∈ s.inFlight.toList, j.len = s.inLen.toNat ∧ j.len % 2 = 0 ∧ j.len ≤ s.params.inBufBytes) : ControlInv s where
  bufferSize := by rw [hp]; decide
  workEmpty := hw
  busyRuns := fun _ => hr
  jobAccepted := fun j h => hj j (by simp [h])
  runChecked := fun _ => hc

theorem witness_ControlInv_landing : ControlInv landing2 :=
  controlInv_of_small _ rfl rfl rfl (by decide) (by decide)

theorem witness_ControlInv_inFlight : ControlInv inFlight2 :=
  controlInv_of_small _ rfl rfl rfl (by decide) (by decide)

theorem witness_DatapathInv_landing : DatapathInv landing2 where
  control := witness_ControlInv_landing
  atanParams := defaultParams_atanParamsOk _ rfl rfl rfl
  memSorted := by decide
  memInside := fun c hc => by
    have : c ∈ [(0x01000000, 130#8), (0x01000001, 131#8)] := hc
    simp at this
    rcases this with rfl | rfl <;> exact .inl (by decide)
  tapsLength := List.length_replicate
  tapSumTotal := by decide +kernel
  tapsLatched := fun _ => by decide +kernel
  phaseBound := by decide
  phaseInWindow := fun _ => by decide
  nowHeld := fun _ => ⟨⟨by decide +kernel, by decide +kernel⟩, ⟨by decide +kernel, by decide +kernel⟩⟩
  nowBound := ⟨⟨by decide, by decide⟩, ⟨by decide, by decide⟩⟩
  history := ⟨⟨by decide, by decide⟩, ⟨by decide, by decide⟩⟩
  averages := ⟨⟨by decide, by decide⟩, ⟨by decide, by decide⟩⟩
  hitsBound := by decide
  hitsInRun := fun _ => by decide
  outLenBound := by decide
  madBound := ⟨by decide, by decide⟩

theorem witness_StoredOutputsFitSixteenBits :
    DatapathInv landing2 ∧ landing2.inFlight = some { len := 2, wait := 0 } ∧ (2 : Nat) ≠ 0 :=
  ⟨witness_DatapathInv_landing, rfl, by decide⟩

theorem witness_StepKeepsMemoryCanonical :
    (asking (wr 0x01000000 .byte 5) State.reset).mem.wf ∧
    ∃ t, step (asking (wr 0x01000000 .byte 5) State.reset) = .next t ∧ t.mem ≠ [] := ⟨by decide, _, rfl, by decide⟩

theorem witness_StepKeepsControlInv : ControlInv inFlight2 ∧ ∃ t, step inFlight2 = .next t :=
  ⟨witness_ControlInv_inFlight, _, rfl⟩

theorem witness_StepKeepsDatapathInv : DatapathInv landing2 ∧ ∃ t, step landing2 = .next t :=
  ⟨witness_DatapathInv_landing, _, rfl⟩

theorem witness_TheMachineNeverStops : ControlInv landing2 := witness_ControlInv_landing

theorem witness_StickyBitsAreClearedByRuleOnly :
    let s := asking (commandWrite 4) { State.reset with status := { Status.clear with cmdErr := true, terminated := true } }
    ∃ t, step s = .next t ∧ (errBit .cmd s.status = true ∧ errBit .cmd t.status = false) ∧
      s.status.terminated = true ∧ t.status.terminated = false :=
  ⟨_, rfl, by decide, by decide, by decide⟩

/-- Of a write, and of a read. -/
theorem witness_ErrorsArePreciseAndSingle :
    (∃ t, step (asking (commandWrite 6) inFlight2) = .next t ∧
      errBit .cmd (asking (commandWrite 6) inFlight2).status = false ∧ errBit .cmd t.status = true) ∧
    ∃ t, step (asking (rd 0x24 .byte) inFlight2) = .next t ∧
      errBit .bus (asking (rd 0x24 .byte) inFlight2).status = false ∧ errBit .bus t.status = true :=
  ⟨⟨_, rfl, by decide, by decide⟩, _, rfl, by decide, by decide⟩

theorem witness_ConfigurationIsFixedDuringARun :
    ∃ t, step (asking (wr 0x008 .word 2) inRun) = .next t ∧ inRun.status.running = true ∧ t.status.running = true :=
  ⟨_, rfl, by decide, by decide⟩

theorem witness_ParametersAreConstant : ∃ t, step (asking (commandWrite 5) inFlight2) = .next t := ⟨_, rfl⟩

theorem witness_NothingShowsBeforeCompletion :
    ControlInv (asking (wr 0x01C .word 8) inFlight2) ∧
    ∃ t, step (asking (wr 0x01C .word 8) inFlight2) = .next t ∧ inFlight2.inFlight = some { len := 2, wait := 1 } ∧
      t.inFlight = some { len := 2, wait := 0 } :=
  ⟨controlInv_of_small _ rfl rfl rfl (by decide) (by decide), _, rfl, rfl, rfl⟩

theorem witness_EachBlockIsCompletedOrAborted : ControlInv inFlight2 ∧ inFlight2.inFlight = some { len := 2, wait := 1 } :=
  ⟨witness_ControlInv_inFlight, rfl⟩

theorem witness_UnspecifiedBytesDoNotReachAWrittenBlock :
    landing2.inFlight = some { len := 2, wait := 0 } ∧ (∀ k, k < 2 → (landing2.mem.read? (0x01000000 + k)).isSome = true) ∧
    ∃ t, step landing2 = .next t := ⟨rfl, by decide, _, rfl⟩

end Sys2Proof.Tests
end

section
/-! SUPPORT. The bus error (20_memory.md R83, R84, R88, R89): what it leaves, which checks fail, and that an access which
fails its check is answered by it and by nothing else. -/

namespace Sys2Proof.Machine

/-! What a bus error leaves. -/

theorem busError_read (s : State) :
    busError .read s = { s with busData := 0#32, status := { s.status with busErr := true } } := rfl

theorem busError_write (data : Word) (s : State) :
    busError (.write data) s = { s with status := { s.status with busErr := true } } := rfl

/-- A bus error does not depend on the data of a write, so not on how much of it is on the bus. -/
@[simp] theorem busError_busAccess (size : Size) (access : Access) (s : State) :
    busError (busAccess size access) s = busError access s := by cases access <;> rfl

/-! Which checks fail. -/

theorem size_bytes_pos (size : Size) : 0 < size.bytes := by cases size <;> decide

/-- R89. -/
theorem regAccessOk_eq_false {addr : Word} {size : Size} (h : size ≠ .word ∨ addr.toNat % 4 ≠ 0) :
    regAccessOk addr size = false := by
  rcases h with hsize | halign
  · simp [regAccessOk, hsize]
  · simp [regAccessOk, aligned, Size.bytes, halign]

/-- R88, of INBUF. -/
theorem inbufAccessOk_of_misaligned {addr : Word} {size : Size} (h : addr.toNat % size.bytes ≠ 0) (s : State) :
    inbufAccessOk s addr size = false := by simp [inbufAccessOk, aligned, h]

/-- R88, of OUTBUF. -/
theorem outbufAccessOk_of_misaligned {addr : Word} {size : Size} (h : addr.toNat % size.bytes ≠ 0) (s : State) :
    outbufAccessOk s addr size = false := by simp [outbufAccessOk, aligned, h]

/-- An access that passes INBUF's check begins inside the buffer (R82). -/
theorem addr_in_of_inbufAccessOk {s : State} {addr : Word} {size : Size} (h : inbufAccessOk s addr size = true) :
    Config.inbufBase ≤ addr.toNat ∧ addr.toNat < Config.inbufBase + s.params.inBufBytes := by
  simp only [inbufAccessOk, Bool.and_eq_true, decide_eq_true_eq] at h
  obtain ⟨⟨_, hbase⟩, hend⟩ := h
  exact ⟨hbase, (Nat.lt_add_of_pos_right (size_bytes_pos size)).trans_le hend⟩

/-- An access that passes OUTBUF's check begins inside the buffer (R83). -/
theorem addr_in_of_outbufAccessOk {s : State} {addr : Word} {size : Size} (h : outbufAccessOk s addr size = true) :
    Config.outbufBase ≤ addr.toNat ∧ addr.toNat < Config.outbufBase + 2 * s.params.inBufBytes := by
  simp only [outbufAccessOk, Bool.and_eq_true, decide_eq_true_eq] at h
  obtain ⟨⟨_, hbase⟩, hend⟩ := h
  exact ⟨hbase, (Nat.lt_add_of_pos_right (size_bytes_pos size)).trans_le hend⟩

/-! An access that fails its check is a bus error. -/

theorem exec_regRead_busError {addr : Word} {size : Size} (h : regAccessOk addr size = false) (s : State) :
    exec (.regRead addr size) s = .next (busError .read s) := by simp [exec, execRegRead, h]

theorem exec_regWrite_busError {addr : Word} {size : Size} (h : regAccessOk addr size = false) (data : Word) (s : State) :
    exec (.regWrite addr size data) s = .next (busError (.write data) s) := by simp [exec, execRegWrite, h]

theorem exec_inbufAccess_busError {s : State} {addr : Word} {size : Size} (h : inbufAccessOk s addr size = false)
    (access : Access) : exec (.inbufAccess addr size access) s = .next (busError access s) := by
  simp [exec, execInbufAccess, h]

/-- R83: at every address, inside the buffer or not. -/
theorem exec_outbufRead_write (addr : Word) (size : Size) (data : Word) (s : State) :
    exec (.outbufRead addr size (.write data)) s = .next (busError (.write data) s) := rfl

theorem exec_outbufRead_busError {s : State} {addr : Word} {size : Size} (h : outbufAccessOk s addr size = false)
    (access : Access) : exec (.outbufRead addr size access) s = .next (busError access s) := by
  cases access with
  | read => simp [exec, execOutbufRead, h]
  | write data => exact exec_outbufRead_write addr size data s

/-- R84. The two windows are decoded to their instruction, whose bounds check fails beyond the buffer; every other address
outside REG is rejected by the decoder. -/
theorem busTransaction_unmapped {t : Transaction} {s : State} (hreg : Config.regBytes ≤ t.addr.toNat)
    (hbuf : ¬inBuffers s.params t.addr.toNat) : busTransaction t s = .next (busError t.access s) := by
  obtain ⟨hin, hout⟩ := not_or.mp hbuf
  have hinOk : inbufAccessOk s t.addr t.size = false := Bool.eq_false_iff.mpr (mt addr_in_of_inbufAccessOk hin)
  have houtOk : outbufAccessOk s t.addr t.size = false := Bool.eq_false_iff.mpr (mt addr_in_of_outbufAccessOk hout)
  simp only [busTransaction, decode, decodeBus, if_neg hreg.not_gt]
  split_ifs with hinWindow houtWindow
  · simp only [exec_inbufAccess_busError hinOk, busError_busAccess]
  · simp only [exec_outbufRead_busError houtOk, busError_busAccess]
  · rfl

@[simp] theorem taken_status (s : State) : (taken s).status = s.status := rfl

/-- While the outside moves, the step of a host access is the transaction, on the state with the access taken off. -/
theorem step_access {s : State} {t : Transaction} {rest : List Input} (ho : outsideMoves s)
    (hs : s.inputs = .access t :: rest) : step s = busTransaction t (taken s) := by
  rw [step_outside ho]
  simp [outsideStep, taken, hs]

/-- Settles O10: the step is the transaction, which is a bus error at every address outside the three ranges. -/
theorem unmappedAccessesRaiseBusErr : Obligations.UnmappedAccessesRaiseBusErr := by
  intro s t rest ho hs hreg hin hout
  have hstep : step s = .next (busError t.access (taken s)) :=
    (step_access ho hs).trans (busTransaction_unmapped hreg (not_or.mpr ⟨hin, hout⟩))
  refine ⟨fun hread => ?_, fun data hwrite => ?_⟩
  · rw [hstep, hread, busError_read, taken_status]
  · rw [hstep, hwrite, busError_write, taken_status]

/-- Settles O25: each wrong access fails its check, and OUTBUF's writes need none, so each is a bus error. -/
theorem wrongAccessesRaiseBusErr : Obligations.WrongAccessesRaiseBusErr := by
  intro s addr size
  refine ⟨fun _ hwrong => ?_, fun hmis => ?_, fun data => exec_outbufRead_write addr size data s⟩
  · have hok := regAccessOk_eq_false hwrong
    exact ⟨exec_regRead_busError hok s, fun data => exec_regWrite_busError hok data s⟩
  · have hin := inbufAccessOk_of_misaligned hmis s
    have hout := outbufAccessOk_of_misaligned hmis s
    exact ⟨exec_inbufAccess_busError hin .read, exec_outbufRead_busError hout .read,
      fun data => exec_inbufAccess_busError hin (.write data)⟩

end Sys2Proof.Machine
end

section
/-! SUPPORT. The encodings (30_encoding.md R122, R123, R128): what a command word decodes to, and what the samples loaded
from INBUF are. -/

namespace Sys2Proof

/-! Command words. -/

theorem extractLsb'_high_eq_zero_iff (w : Word) : w.extractLsb' 4 28 = 0#28 ↔ w.toNat < 16 := by
  rw [← BitVec.toNat_inj, BitVec.extractLsb'_toNat, BitVec.toNat_zero, Nat.shiftRight_eq_div_pow]
  omega

theorem toNat_extractLsb'_low {w : Word} (h : w.toNat < 16) : (w.extractLsb' 0 4).toNat = w.toNat := by
  simpa using Nat.mod_eq_of_lt h

/-- R122. -/
theorem decodeCommand_ofNat {n : Nat} (h : n ≤ 5) :
    decodeCommand (BitVec.ofNat 32 n) = [Command.nop, .start, .process, .stop, .clearStatus, .softReset][n]? := by
  interval_cases n <;> rfl

/-- R123. Above a nibble the high bits reject the word; within it, the low bits are the word and none of the six. -/
theorem decodeCommand_eq_none {w : Word} (h : 5 < w.toNat) : decodeCommand w = none := by
  by_cases hhigh : w.toNat < 16
  · have hlow : ∀ c : BitVec 4, c.toNat ≤ 5 → w.extractLsb' 0 4 ≠ c := by
      rintro c hc rfl
      rw [toNat_extractLsb'_low hhigh] at hc
      exact absurd hc h.not_ge
    simp only [decodeCommand, hlow, BitVec.toNat_ofNat, Nat.reducePow, Nat.reduceMod, Nat.reduceLeDiff, ↓reduceIte, ite_self]
  · rw [decodeCommand, if_neg (mt (extractLsb'_high_eq_zero_iff w).mp hhigh)]

theorem decode_cmd_of_some {w : Word} {c : Command} (h : decodeCommand w = some c) :
    decode (.cmd w) = .ok (commandInstr c) := by simp only [decode, h]

theorem decode_cmd_of_none {w : Word} (h : decodeCommand w = none) :
    decode (.cmd w) = .error (.illegalCommand w) := by simp only [decode, h]

/-- Settles O1: the six legal words one by one, and no command above them. -/
theorem commandWordsDecodeOrAreIllegal : Obligations.CommandWordsDecodeOrAreIllegal := by
  intro w
  refine ⟨fun hlegal => ?_, fun hillegal => decode_cmd_of_none (decodeCommand_eq_none hillegal)⟩
  have hcmd := decodeCommand_ofNat hlegal
  rw [BitVec.ofNat_toNat, BitVec.setWidth_eq] at hcmd
  generalize w.toNat = n at hlegal hcmd ⊢
  interval_cases n <;> exact decode_cmd_of_some hcmd

end Sys2Proof

namespace Sys2Proof.Machine

theorem recentred_inSampleRange (b : Byte) : inSampleRange ((b.toNat : Int) - 127) := by
  have := b.isLt
  constructor <;> omega

/-- R128. Sample `i` of those loaded from sample `k` on is the byte pair of sample `k + i` of INBUF. -/
theorem inputSamples_getElem? (s : State) {i n : Nat} (k : Nat) (h : i < n) :
    (inputSamples s k n)[i]? =
      some (decodeSample (readByte s (Config.inbufBase + 2 * (k + i))) (readByte s (Config.inbufBase + 2 * (k + i) + 1))) := by
  induction n generalizing k i with
  | zero => exact absurd h i.not_lt_zero
  | succ n ih =>
    cases i with
    | zero => rfl
    | succ i =>
      have hnext := ih (k + 1) (Nat.lt_of_succ_lt_succ h)
      rw [inputSamples, List.getElem?_cons_succ, hnext, Nat.succ_add_eq_add_succ]

/-- Settles O7: the loaded sample is a recentred byte pair, and a byte is below 256. -/
theorem inputSamplesAreRecentredBytes : Obligations.InputSamplesAreRecentredBytes := by
  intro s n k hk
  have hsample := inputSamples_getElem? s 0 hk
  rw [Nat.zero_add] at hsample
  exact ⟨_, hsample, rfl, rfl, recentred_inSampleRange _, recentred_inSampleRange _⟩

end Sys2Proof.Machine
end

section
/-! SUPPORT. The host commands (40_host_commands.md section 1), one equation per case of a command: START with its checks and
what it latches, PROCESS, STOP, CLEAR_STATUS. -/

namespace Sys2Proof.Machine

/-! START's checks and taps (R162, R163). -/

/-- A sum over `Finset.range` is, by definition, the sum of the list. -/
theorem tapTotal_firTaps (table : Config.TapTable) (d : Nat) :
    tapTotal (firTaps table d) = ∑ k ∈ Finset.range d, (firTap table d k).toNat := by
  rw [tapTotal, firTaps, List.map_map]
  exact rfl

@[simp] theorem latchedTaps_length (p : Config.Params) (c : ConfigRegs) : (latchedTaps p c).length = 256 := by
  unfold latchedTaps
  split
  · rw [List.length_map, List.length_range]
  · exact List.length_replicate

theorem latchedTaps_getD (p : Config.Params) (c : ConfigRegs) {k : Nat} (hk : k < 256) :
    (latchedTaps p c).getD k 0#8 =
      if c.ctrl.firEn = true ∧ k < c.downsample.toNat then firTap p.firTaps c.downsample.toNat k else 0#8 := by
  unfold latchedTaps
  split
  · next hfir => simp [hfir, hk, ConfigRegs.d]
  · next hfir => rw [List.getD_replicate _ hk, if_neg (mt And.left hfir)]

theorem latchedTapSum_eq_sum (p : Config.Params) (c : ConfigRegs) :
    latchedTapSum p c =
      if c.ctrl.firEn = true then ∑ k ∈ Finset.range c.downsample.toNat, (firTap p.firTaps c.downsample.toNat k).toNat
      else 0 := by
  rw [latchedTapSum, tapTotal_firTaps, ConfigRegs.d]

/-- Settles O12: the check is the conjunction of the seven, the last one by the taps' sum. -/
theorem configOkIsTheSevenChecks : Obligations.ConfigOkIsTheSevenChecks := by
  intro p c
  unfold configOk ConfigRegs.d
  simp only [tapTotal_firTaps, Bool.and_eq_true, Bool.or_eq_true, Bool.not_eq_true', Bool.eq_false_iff, ne_eq,
    bne_iff_ne, beq_iff_eq, decide_eq_true_eq, and_assoc]

/-! START (R161, R174). -/

theorem exec_start_busy {s : State} (hb : s.busy = true) : exec .start s = .next (raise .busy s) := by
  simp only [exec, execStart, if_pos hb]

theorem exec_start_running {s : State} (hb : s.busy = false) (hr : s.status.running = true) :
    exec .start s = .next (raise .cmd s) := by simp [exec, execStart, hb, hr]

theorem exec_start_refused {s : State} (hb : s.busy = false) (hr : s.status.running = false)
    (hc : configOk s.params s.cfg = false) : exec .start s = .next (raise .cfg s) := by
  simp [exec, execStart, hb, hr, hc]

theorem exec_start_accepted {s : State} (hb : s.busy = false) (hr : s.status.running = false)
    (hc : configOk s.params s.cfg = true) : exec .start s = .next (startRun s) := by
  simp [exec, execStart, hb, hr, hc]

/-- Settles O13: the cases in START's own order of checks; accepted, it latches the taps and their sum. -/
theorem startFollowsItsRule : Obligations.StartFollowsItsRule := by
  intro s
  refine ⟨exec_start_busy, exec_start_running, exec_start_refused, fun hb hr hc => ?_⟩
  exact ⟨latchedTaps s.params s.cfg, latchedTapSum s.params s.cfg, exec_start_accepted hb hr hc,
    latchedTaps_length s.params s.cfg, fun k => latchedTaps_getD s.params s.cfg, latchedTapSum_eq_sum s.params s.cfg⟩

/-! PROCESS (R165, R166, R174). -/

/-- R46. -/
theorem incSaturating_eq_min (w : Word) : incSaturating w = BitVec.ofNat 32 (min (w.toNat + 1) 0xFFFFFFFF) := by
  unfold incSaturating
  split
  · next hmax => rw [hmax]; rfl
  · next hmax =>
    have hlt : w.toNat + 1 ≤ 0xFFFFFFFF := by bv_omega
    rw [Nat.min_eq_left hlt]
    bv_omega

theorem lengthOk_eq_false {s : State} (h : s.inLen.toNat % 2 = 1 ∨ s.params.inBufBytes < s.inLen.toNat) :
    lengthOk s = false := by
  rcases h with hodd | hlong
  · simp [lengthOk, hodd]
  · simp [lengthOk, hlong]

theorem exec_process_busy {s : State} (hb : s.busy = true) :
    exec .process s = .next { s with dropCnt := incSaturating s.dropCnt } := by simp only [exec, execProcess, if_pos hb]

theorem exec_process_notRunning {s : State} (hb : s.busy = false) (hr : s.status.running = false) :
    exec .process s = .next (raise .cmd s) := by simp [exec, execProcess, hb, hr]

theorem exec_process_badLength {s : State} (hb : s.busy = false) (hr : s.status.running = true) (hl : lengthOk s = false) :
    exec .process s = .next (raise .input s) := by simp [exec, execProcess, hb, hr, hl]

/-- Settles O15: the refusals in PROCESS's order of checks, and the counter's saturation. -/
theorem processDropsAndRefusals : Obligations.ProcessDropsAndRefusals := by
  intro s
  refine ⟨fun hb => ?_, exec_process_notRunning, fun hb hr hl => exec_process_badLength hb hr (lengthOk_eq_false hl)⟩
  rw [exec_process_busy hb, incSaturating_eq_min]

/-! NOP, STOP, CLEAR_STATUS (R160, R170, R171, R174). -/

theorem exec_stop_busy {s : State} (hb : s.busy = true) : exec .stop s = .next (raise .busy s) := by
  simp only [exec, execStop, if_pos hb]

theorem exec_stop_notBusy {s : State} (hb : s.busy = false) :
    exec .stop s = .next { s with status := { s.status with running := false } } := by simp [exec, execStop, hb]

theorem exec_clearStatus (s : State) : exec .clearStatus s = .next { s with status := clearSticky s.status } := rfl

/-- Settles O16: NOP and CLEAR_STATUS check nothing, STOP only that no block is in flight. -/
theorem nopStopAndClearStatus : Obligations.NopStopAndClearStatus :=
  fun s => ⟨rfl, exec_stop_notBusy, exec_stop_busy, exec_clearStatus s⟩

end Sys2Proof.Machine
end

section
/-! SUPPORT. Register writes (40_host_commands.md R173, R181 to R184): a COMMAND write is the command it encodes, every other
aligned word write is `writeReg` of the register at its offset, and which registers take it. -/

namespace Sys2Proof.Machine

/-! COMMAND writes (R122, R173). -/

theorem issueCommand_of_some {w : Word} {c : Command} (h : decodeCommand w = some c) (s : State) :
    issueCommand w s = exec (commandInstr c) s := by
  cases c <;> simp only [issueCommand, h, commandInstr, exec]

theorem issueCommand_of_none {w : Word} (h : decodeCommand w = none) (s : State) :
    issueCommand w s = .next (raise .cmd s) := by simp only [issueCommand, h]

/-- What the decoder accepts of a command word is a command. -/
theorem decode_cmd_eq_ok {w : Word} {i : Instr} (h : decode (.cmd w) = .ok i) :
    ∃ c, decodeCommand w = some c ∧ commandInstr c = i := by
  cases hc : decodeCommand w with
  | none => rw [decode_cmd_of_none hc] at h; cases h
  | some c => rw [decode_cmd_of_some hc] at h; cases h; exact ⟨c, rfl, rfl⟩

/-- R38. The register at offset 0x020 is COMMAND. -/
theorem exec_regWrite_command (w : Word) (s : State) : exec (.regWrite 0x020 .word w) s = issueCommand w s := rfl

/-- Settles O18: a word of the map acts as its command, and no word above 5 is in the map. -/
theorem commandWritesIssueCommands : Obligations.CommandWritesIssueCommands := by
  intro s w
  refine ⟨fun i hi => ?_, fun hillegal => ?_⟩
  · obtain ⟨c, hc, rfl⟩ := decode_cmd_eq_ok hi
    rw [exec_regWrite_command, issueCommand_of_some hc]
  · rw [exec_regWrite_command, issueCommand_of_none (decodeCommand_eq_none hillegal)]
    rfl

/-! Writes to the other registers. -/

theorem regAccessOk_word {addr : Word} (halign : addr.toNat % 4 = 0) (hreg : addr.toNat < 0x1000) :
    regAccessOk addr .word = true := by simp [regAccessOk, aligned, Size.bytes, Config.regBytes, halign, hreg]

theorem exec_regWrite_register {addr : Word} (halign : addr.toNat % 4 = 0) (hreg : addr.toNat < 0x1000)
    (hne : regAt addr.toNat ≠ .command) (v : Word) (s : State) :
    exec (.regWrite addr .word v) s = .next (writeReg (regAt addr.toNat) v s) := by
  simp only [exec, execRegWrite, if_pos (regAccessOk_word halign hreg), if_neg hne]

/-- R183. The registers that a run locks. -/
def lockedRegs : List Reg := [.ctrl, .downsample, .outputScale, .sqLevel, .sqThresh, .deemphA]

/-- R181. The registers that a write may act on; the others are read-only or reserved. -/
def writableRegs : List Reg := lockedRegs ++ [.inLen, .command]

/-- R183. -/
theorem writeReg_of_locked {r : Reg} {s : State} (hr : r ∈ lockedRegs) (hrun : s.status.running = true) (v : Word) :
    writeReg r v s = raise .lock s := by
  have hlocked : ∀ c, writeLocked c s = raise .lock s := fun c => if_pos hrun
  simp only [lockedRegs, List.mem_cons, List.not_mem_nil, or_false] at hr
  rcases hr with rfl | rfl | rfl | rfl | rfl | rfl <;> exact hlocked _

/-- R182. -/
theorem writeReg_of_not_writable {r : Reg} (hr : r ∉ writableRegs) (v : Word) (s : State) : writeReg r v s = s := by
  cases r <;> simp [writableRegs, lockedRegs, writeReg] at hr ⊢

/-- 10_state.md section 1: the writable registers lie at offsets 0x004 to 0x020. -/
theorem regAt_not_writable {o : Nat} (halign : o % 4 = 0) (ho : o = 0 ∨ 0x024 ≤ o) : regAt o ∉ writableRegs := by
  have hnamed : ∀ k < 24, k = 0 ∨ 9 ≤ k → regNames.getD k .reserved ∉ writableRegs := by decide
  unfold regAt
  split_ifs with hlow hcoef
  · exact hnamed (o / 4) (by omega) (by omega)
  · simp [writableRegs, lockedRegs]
  · simp [writableRegs, lockedRegs]

/-- 10_state.md section 1: the locked registers lie at offsets 0x004 to 0x018. -/
theorem regAt_locked : ∀ o ∈ [0x004, 0x008, 0x00C, 0x010, 0x014, 0x018],
    o % 4 = 0 ∧ o < 0x1000 ∧ regAt o ≠ .command ∧ regAt o ∈ lockedRegs := by decide

/-- R37. The register at offset 0x01C is IN_LEN. -/
theorem exec_regWrite_inLen (v : Word) (s : State) : exec (.regWrite 0x01C .word v) s = .next (writeInLen v s) := rfl

/-- Settles O21: LOCK_ERR and BUSY_ERR by the register's own check; beyond COMMAND no register takes a write. -/
theorem lockedInLenAndReadOnlyWrites : Obligations.LockedInLenAndReadOnlyWrites := by
  intro s v
  refine ⟨fun hrun a ha => ?_, fun hb => ?_, fun hb => ?_, fun o halign hreg ho => ?_⟩
  · obtain ⟨halign, hreg, hne, hlocked⟩ := regAt_locked a.toNat (List.mem_map_of_mem ha)
    exact (exec_regWrite_register halign hreg hne v s).trans (congrArg _ (writeReg_of_locked hlocked hrun v))
  · rw [exec_regWrite_inLen, writeInLen, hb]
    rfl
  · rw [exec_regWrite_inLen, writeInLen, hb]
    rfl
  · obtain ⟨addr, rfl⟩ : ∃ addr : Word, addr.toNat = o := ⟨BitVec.ofNat 32 o, Nat.mod_eq_of_lt (by omega)⟩
    have hnot := regAt_not_writable halign ho
    have hne : regAt addr.toNat ≠ .command := fun h => hnot (h ▸ by decide)
    rw [BitVec.ofNat_toNat, BitVec.setWidth_eq, exec_regWrite_register halign hreg hne, writeReg_of_not_writable hnot]

end Sys2Proof.Machine
end

section
/-! SUPPORT. A due block (40_host_commands.md R167, R169): the step is PROCESS_BLOCK, which for an empty block only reports. -/

namespace Sys2Proof.Machine

theorem step_due {s : State} {j : Job} (hj : s.inFlight = some j) (hw : j.wait = 0) : step s = processBlock j.len s := by
  simp only [step, hj, hw]

theorem processBlock_zero (s : State) : processBlock 0 s = .next (completeBlock { s with work := Work.empty }) := rfl

/-- Settles O46: nothing is in work, so the completion stores no output and reports no flag. -/
theorem emptyBlockReportsNothing : Obligations.EmptyBlockReportsNothing := by
  intro s j hj hw hl
  rw [step_due hj hw, hl, processBlock_zero]
  rfl

end Sys2Proof.Machine
end

section
/-! SUPPORT. The decimators (41_decimation.md R201, R203, R210): both are one loop, `accumulate`, whose count and phase depend
on neither the weights nor the output function. -/

namespace Sys2Proof.Machine

variable {d : Nat} {weight : Nat → Int} {dump : Int → Int} {acc : Accum}

/-! The loop, one equation per case of a sample. -/

/-- R201. The sample that completes a window. -/
theorem accumulate_cons_last (h : acc.p + 1 = d) (x : Sample) (xs : List Sample) :
    accumulate d weight dump acc (x :: xs) =
      ({ i := dump (acc.r + x.i * weight acc.p), q := dump (acc.j + x.q * weight acc.p) } ::
          (accumulate d weight dump { r := 0, j := 0, p := 0 } xs).1,
        (accumulate d weight dump { r := 0, j := 0, p := 0 } xs).2) := by rw [accumulate, if_pos h]

/-- R201. A sample inside a window. -/
theorem accumulate_cons_inner (h : acc.p + 1 ≠ d) (x : Sample) (xs : List Sample) :
    accumulate d weight dump acc (x :: xs) =
      accumulate d weight dump
        { r := acc.r + x.i * weight acc.p, j := acc.j + x.q * weight acc.p, p := acc.p + 1 } xs := by
  rw [accumulate, if_neg h]

/-! R210. A sample that completes a window adds one to the quotient by `d` and nothing to the remainder. -/

theorem accumulate_length (hp : acc.p < d) (xs : List Sample) :
    (accumulate d weight dump acc xs).1.length = (acc.p + xs.length) / d := by
  induction xs generalizing acc with
  | nil => exact (Nat.div_eq_of_lt hp).symm
  | cons x xs ih =>
    by_cases hlast : acc.p + 1 = d
    · have hd : 0 < d := Nat.zero_lt_of_lt hp
      have hwindow : acc.p + (x :: xs).length = xs.length + d := by rw [List.length_cons]; omega
      rw [accumulate_cons_last hlast, hwindow, Nat.add_div_right _ hd, List.length_cons, ih hd, Nat.zero_add]
    · have hnext : acc.p + 1 < d := by omega
      rw [accumulate_cons_inner hlast, ih hnext, List.length_cons, Nat.succ_add_eq_add_succ]

theorem accumulate_phase (hp : acc.p < d) (xs : List Sample) :
    (accumulate d weight dump acc xs).2.p = (acc.p + xs.length) % d := by
  induction xs generalizing acc with
  | nil => exact (Nat.mod_eq_of_lt hp).symm
  | cons x xs ih =>
    by_cases hlast : acc.p + 1 = d
    · have hd : 0 < d := Nat.zero_lt_of_lt hp
      have hwindow : acc.p + (x :: xs).length = xs.length + d := by rw [List.length_cons]; omega
      rw [accumulate_cons_last hlast, hwindow, Nat.add_mod_right, ih hd, Nat.zero_add]
    · have hnext : acc.p + 1 < d := by omega
      rw [accumulate_cons_inner hlast, ih hnext, List.length_cons, Nat.succ_add_eq_add_succ]

/-- R201, R203. Either decimator puts into the state what the loop gives, for weights and an output function of its own. -/
theorem exec_decimator {op : Instr} (hop : op = .decimBoxcar ∨ op = .decimFir) (s : State) :
    ∃ weight dump,
      exec op s = .next (putDecimated (accumulate s.cfg.d weight dump (accumOf s) s.work.xs) s) := by
  rcases hop with rfl | rfl
  · exact ⟨fun _ => 1, fun v => v, rfl⟩
  · exact ⟨tapWeight s.dp.taps, firGain s.cfg.d s.dp.tapSum, rfl⟩

/-- Settles O26: the loop gives the count and the phase, and putting its result into the state is the frame. -/
theorem decimationCountAndPhase : Obligations.DecimationCountAndPhase := by
  intro s op hop hp
  obtain ⟨weight, dump, hexec⟩ := exec_decimator hop s
  have hphase : (accumOf s).p < s.cfg.d := hp
  rw [hexec, putDecimated, accumulate_phase hphase]
  exact ⟨_, _, _, rfl, accumulate_length hphase _⟩

end Sys2Proof.Machine
end

section
/-! SUPPORT. The squelch (43_squelch.md R291, R293, R294): the MAD as an integer formula, and SQUELCH by one equation per
decision. -/

namespace Sys2Proof.Machine

/-! The MAD (R291). -/

@[simp] theorem mad_nil : mad [] = 0 := rfl

theorem mad_of_ne_nil {v : List Int} (h : v ≠ []) :
    mad v = (v.map fun x => (x - railMean v).natAbs).sum / v.length := by
  rw [mad, if_neg (mt List.length_eq_zero_iff.mp h)]

/-- The deviations are summed as naturals; the sum is that of the integers' absolute values. -/
theorem natCast_sum_deviations (m : Int) (v : List Int) :
    (((v.map fun x => (x - m).natAbs).sum : Nat) : Int) = (v.map fun x => |x - m|).sum := by
  rw [Nat.cast_list_sum, List.map_map]
  simp only [Function.comp_def, Int.natCast_natAbs]

/-- Settles O39: the sum of deviations is not negative, so its quotient as naturals is the one truncated toward zero. -/
theorem madIsTheTruncatedMeanDeviation : Obligations.MadIsTheTruncatedMeanDeviation := by
  refine ⟨fun v => ?_, fun _ => rfl⟩
  split_ifs with hv
  · rw [hv, mad_nil, Nat.cast_zero]
  · change (mad v : Int) = Int.tdiv ((v.map fun x => |x - railMean v|).sum) v.length
    rw [mad_of_ne_nil hv, ← natCast_sum_deviations, Int.ofNat_tdiv]

/-! The decision (R293, R294, R298). -/

/-- R292, R294. The activity test, on the samples that the state measures. -/
def measuredActive (s : State) : Prop :=
  isActive s.cfg.level (madRails (measured s)).1 (madRails (measured s)).2 = true

theorem measuredActive_iff (s : State) :
    measuredActive s ↔
      s.cfg.level = 0 ∨ s.cfg.level < (madRails (measured s)).1 ∨ s.cfg.level < (madRails (measured s)).2 := by
  simp only [measuredActive, isActive, Bool.or_eq_true, beq_iff_eq, decide_eq_true_eq, or_assoc]

theorem muted_eq_replicate (y : List Int) : muted y = List.replicate y.length 0 := List.map_const' ..

section
variable {s : State}

theorem exec_squelch_active (ha : measuredActive s) :
    exec .squelch s = .next (putSquelch 0 s.work.y flagsActive (madRails (measured s)) s) := if_pos ha

theorem exec_squelch_tolerated (ha : ¬measuredActive s)
    (hh : nextHits s.dp.hits s.cfg.thresh.natAbs ≤ s.cfg.thresh.natAbs) :
    exec .squelch s =
      .next (putSquelch (nextHits s.dp.hits s.cfg.thresh.natAbs) s.work.y flagsTolerated (madRails (measured s)) s) :=
  (if_neg ha).trans (if_pos hh)

theorem exec_squelch_hop (ha : ¬measuredActive s) (hh : s.cfg.thresh.natAbs < nextHits s.dp.hits s.cfg.thresh.natAbs)
    (hm : s.cfg.ctrl.multichan = true) :
    exec .squelch s =
      .next (putSquelch (nextHits s.dp.hits s.cfg.thresh.natAbs) s.work.y flagsHop (madRails (measured s)) s) :=
  (if_neg ha).trans ((if_neg hh.not_ge).trans (if_pos hm))

theorem exec_squelch_muted (ha : ¬measuredActive s) (hh : s.cfg.thresh.natAbs < nextHits s.dp.hits s.cfg.thresh.natAbs)
    (hm : s.cfg.ctrl.multichan = false) :
    exec .squelch s =
      .next (putSquelch (nextHits s.dp.hits s.cfg.thresh.natAbs) (List.replicate s.work.y.length 0)
        (flagsMuted (decide (s.cfg.thresh < 0))) (madRails (measured s)) s) := by
  rw [← muted_eq_replicate]
  exact (if_neg ha).trans ((if_neg hh.not_ge).trans (if_neg (Bool.eq_false_iff.mp hm)))

end

/-- Settles O40: the four decisions are the branches of SQUELCH, by the activity test and the counter after the block. -/
theorem squelchDecides : Obligations.SquelchDecides := by
  intro s src mi mq mag hits isAct
  have hactive : measuredActive s ↔ isAct := measuredActive_iff s
  exact ⟨fun ha => exec_squelch_active (hactive.mpr ha), fun ha => exec_squelch_tolerated (mt hactive.mp ha),
    fun ha => exec_squelch_hop (mt hactive.mp ha), fun ha => exec_squelch_muted (mt hactive.mp ha)⟩

end Sys2Proof.Machine
end

section
/-! SUPPORT. DCBLOCK (44_postprocess.md R326, R328), by one equation for a block with values and one for a block with none. -/

namespace Sys2Proof.Machine

section
variable {s : State}

/-- R328. -/
theorem exec_dcblock_empty (h : s.work.y = []) : exec .dcblock s = .next s := if_pos (List.length_eq_zero_iff.mpr h)

/-- R326. -/
theorem exec_dcblock_nonempty (h : s.work.y ≠ []) :
    exec .dcblock s =
      .next
        { s with
          dp := { s.dp with dcAvg := dcBlend s.dp.dcAvg s.work.y },
          work := { s.work with y := s.work.y.map fun v => sat16 (v - dcBlend s.dp.dcAvg s.work.y) } } :=
  if_neg (mt List.length_eq_zero_iff.mp h)

end

/-- Settles O44: the two cases are the branches of DCBLOCK, and the statement's average is its blend. -/
theorem dcblockSubtractsTheBlend : Obligations.DcblockSubtractsTheBlend := fun _ =>
  ⟨exec_dcblock_empty, exec_dcblock_nonempty⟩

end Sys2Proof.Machine
end

section
/-! SUPPORT. The encodings of all instructions (30_encoding.md R120 to R125): the windows of the bus as ranges of addresses, the
data bits of a transfer, and that the decoder inverts the encoder and accepts well-formed instructions only. -/

namespace Sys2Proof.Machine

/-! The windows of the opcode table as ranges of addresses (R81 to R84). -/

/-- A mask of the bits from `n` on rounds down to a multiple of `2^n`. -/
theorem toNat_and_highMask (a : Word) (n : Nat) :
    (a &&& BitVec.allOnes 32 <<< n).toNat = a.toNat / 2 ^ n * 2 ^ n := by
  have hshift : a &&& BitVec.allOnes 32 <<< n = (a >>> n) <<< n := by
    ext i hi
    by_cases h : i < n
    · simp [h]
    · have hi' : n + (i - n) = i := Nat.add_sub_cancel' (Nat.not_lt.mp h)
      simp only [BitVec.getElem_and, BitVec.getElem_shiftLeft, BitVec.getElem_allOnes, BitVec.getElem_ushiftRight, h, hi',
        BitVec.getLsbD_eq_getElem hi, decide_false, Bool.not_false, Bool.and_true, Bool.true_and]
  rw [hshift, BitVec.toNat_shiftLeft, BitVec.toNat_ushiftRight, Nat.shiftRight_eq_div_pow, Nat.shiftLeft_eq]
  exact Nat.mod_eq_of_lt ((Nat.div_mul_le_self _ _).trans_lt a.isLt)

/-- R81. -/
theorem inRow_reg (a : Word) : inRow 0xFFFFF000 0x00000000 a = true ↔ a.toNat < Config.regBytes := by
  have hmask := toNat_and_highMask a 12
  simp only [inRow, beq_iff_eq, ← BitVec.toNat_inj, Config.regBytes]
  change (a &&& BitVec.allOnes 32 <<< 12).toNat = 0 ↔ _
  omega

/-- R82. -/
theorem inRow_inbuf (a : Word) :
    inRow 0xFF000000 0x01000000 a = true ↔ Config.inbufBase ≤ a.toNat ∧ a.toNat < Config.outbufBase := by
  have hmask := toNat_and_highMask a 24
  simp only [inRow, beq_iff_eq, ← BitVec.toNat_inj, Config.inbufBase, Config.outbufBase]
  change (a &&& BitVec.allOnes 32 <<< 24).toNat = 0x01000000 ↔ _
  omega

/-- R83. -/
theorem inRow_outbuf (a : Word) :
    inRow 0xFE000000 0x02000000 a = true ↔ Config.outbufBase ≤ a.toNat ∧ a.toNat < Config.outbufEnd := by
  have hmask := toNat_and_highMask a 25
  simp only [inRow, beq_iff_eq, ← BitVec.toNat_inj, Config.outbufBase, Config.outbufEnd]
  change (a &&& BitVec.allOnes 32 <<< 25).toNat = 0x02000000 ↔ _
  omega

/-! The data bits of a transfer (R120). -/

theorem dataFits_busBits (size : Size) (data : Word) : dataFits size (busBits size data) = true := by
  have hlt : data.toNat % 2 ^ (8 * size.bytes) < 2 ^ (8 * size.bytes) := Nat.mod_lt _ (by positivity)
  simp only [dataFits, busBits, BitVec.toNat_ofNat, decide_eq_true_eq]
  exact (Nat.mod_le _ _).trans_lt hlt

theorem busBits_of_dataFits {size : Size} {data : Word} (h : dataFits size data = true) : busBits size data = data := by
  simp only [dataFits, decide_eq_true_eq] at h
  rw [busBits, Nat.mod_eq_of_lt h, BitVec.ofNat_toNat, BitVec.setWidth_eq]

theorem accessFits_busAccess (size : Size) (access : Access) : accessFits size (busAccess size access) = true := by
  cases access with
  | read => rfl
  | write data => exact dataFits_busBits size data

theorem busAccess_of_accessFits {size : Size} {access : Access} (h : accessFits size access = true) :
    busAccess size access = access := by
  cases access with
  | read => rfl
  | write data => exact congrArg Access.write (busBits_of_dataFits h)

/-! The decoder by window, the encoder's inverse (R121). -/

theorem decodeBus_inbuf {addr : Word} (size : Size) (access : Access)
    (h : Config.inbufBase ≤ addr.toNat ∧ addr.toNat < Config.outbufBase) :
    decodeBus { addr, size, access } = .ok (.inbufAccess addr size (busAccess size access)) := by
  have hreg : ¬addr.toNat < Config.regBytes := by simp only [Config.inbufBase, Config.regBytes] at *; omega
  simp only [decodeBus, if_neg hreg, if_pos h]

theorem decodeBus_outbuf {addr : Word} (size : Size) (access : Access)
    (h : Config.outbufBase ≤ addr.toNat ∧ addr.toNat < Config.outbufEnd) :
    decodeBus { addr, size, access } = .ok (.outbufRead addr size (busAccess size access)) := by
  have hreg : ¬addr.toNat < Config.regBytes := by simp only [Config.outbufBase, Config.regBytes] at *; omega
  have hin : ¬(Config.inbufBase ≤ addr.toNat ∧ addr.toNat < Config.outbufBase) := fun hin => absurd h.1 hin.2.not_ge
  simp only [decodeBus, if_neg hreg, if_neg hin, if_pos h]

/-- Settles O2: an address within its row's window is decoded to that row, and data that fit are carried whole. -/
theorem decodeInvertsEncode : Obligations.DecodeInvertsEncode := by
  intro i hwf
  cases i
  case regRead addr size =>
    have haddr := (inRow_reg addr).mp hwf
    simp only [encode, decode, decodeBus, if_pos haddr]
  case regWrite addr size data =>
    obtain ⟨hrow, hdata⟩ := Bool.and_eq_true_iff.mp hwf
    have haddr := (inRow_reg addr).mp hrow
    simp only [encode, decode, decodeBus, if_pos haddr, busBits_of_dataFits hdata]
  case inbufAccess addr size access =>
    obtain ⟨hrow, haccess⟩ := Bool.and_eq_true_iff.mp hwf
    simp only [encode, decode, decodeBus_inbuf size access ((inRow_inbuf addr).mp hrow), busAccess_of_accessFits haccess]
  case outbufRead addr size access =>
    obtain ⟨hrow, haccess⟩ := Bool.and_eq_true_iff.mp hwf
    simp only [encode, decode, decodeBus_outbuf size access ((inRow_outbuf addr).mp hrow), busAccess_of_accessFits haccess]
  all_goals rfl

/-! Whatever the decoder accepts. -/

theorem datapathOps_wellFormed : ∀ i ∈ datapathOps, i.wellFormed = true := by decide

theorem decodeBus_wellFormed {t : Transaction} {i : Instr} (h : decodeBus t = .ok i) : i.wellFormed = true := by
  unfold decodeBus at h
  split_ifs at h with hreg hin hout
  · cases haccess : t.access with
    | read =>
      rw [haccess] at h
      cases h
      exact (inRow_reg _).mpr hreg
    | write data =>
      rw [haccess] at h
      cases h
      exact Bool.and_eq_true_iff.mpr ⟨(inRow_reg _).mpr hreg, dataFits_busBits _ _⟩
  · cases h
    exact Bool.and_eq_true_iff.mpr ⟨(inRow_inbuf _).mpr hin, accessFits_busAccess _ _⟩
  · cases h
    exact Bool.and_eq_true_iff.mpr ⟨(inRow_outbuf _).mpr hout, accessFits_busAccess _ _⟩

theorem decodeSelection_wellFormed {mask pattern : Word} {i : Instr} (h : decodeSelection mask pattern = .ok i) :
    i.wellFormed = true := by
  unfold decodeSelection at h
  split at h
  · next hfind =>
    cases h
    exact datapathOps_wellFormed _ (List.mem_of_find?_eq_some hfind)
  · cases h

/-- Settles O3: each of the three decoders answers within the table. -/
theorem decodedInstructionsAreWellFormed : Obligations.DecodedInstructionsAreWellFormed := by
  intro c i h
  cases c with
  | bus t => exact decodeBus_wellFormed h
  | cmd w =>
    obtain ⟨c, -, rfl⟩ := decode_cmd_eq_ok h
    cases c <;> rfl
  | ctrl mask pattern => exact decodeSelection_wellFormed h

/-- Settles O4: seven closed words, each evaluated by the decoder. -/
theorem specWordsDecode : Obligations.SpecWordsDecode := ⟨rfl, rfl, rfl, rfl, rfl, rfl, rfl⟩

end Sys2Proof.Machine
end

section
/-! SUPPORT. The places of the bits of STATUS, RESULT and CTRL (10_state.md R31, R39, R40), and the operations that a CTRL word
selects (30_encoding.md R124 to R126). -/

namespace Sys2Proof.Machine

/-! Words put together of single bits. -/

theorem getLsbD_statusWord (busy : Bool) (st : Status) (k : Nat) :
    (statusWord busy st).getLsbD k =
      ([busy, st.running, st.terminated, st.cfgErr, st.inputErr, st.cmdErr, st.busyErr, st.lockErr, st.busErr] ++
        List.replicate 23 false).getD k false := by
  rw [← BitVec.getLsbD_ofBoolListLE]
  rfl

theorem getLsbD_resultWord (f : BlockFlags) (k : Nat) :
    (resultWord f).getLsbD k = ([f.active, f.muted, f.hop, f.term, f.sqEval] ++ List.replicate 27 false).getD k false := by
  rw [← BitVec.getLsbD_ofBoolListLE]
  rfl

/-- Above the listed bits there are zeros. -/
theorem getD_append_zeros {bits : List Bool} {n k : Nat} (h : bits.length ≤ k) :
    (bits ++ List.replicate n false).getD k false = false := by
  rw [List.getD_append_right _ _ _ _ h, List.getD_eq_getElem?_getD, List.getElem?_replicate]
  split <;> rfl

/-- R31. The bits of CTRL; those of no field are 0. -/
theorem getLsbD_ctrlWord (c : Ctrl) (k : Nat) :
    (ctrlWord c).getLsbD k =
      [c.firEn, c.deemphEn, c.dcEn, c.multichan, c.demod.getLsbD 0, c.demod.getLsbD 1, c.demod.getLsbD 2, false,
        c.atanSel.getLsbD 0, c.atanSel.getLsbD 1, c.sqSrc].getD k false := by
  unfold ctrlWord
  repeat rw [BitVec.getLsbD_append]
  by_cases hk : 11 ≤ k
  · rw [List.getD_eq_default _ _ hk]
    repeat rw [if_neg (by omega)]
    exact BitVec.getLsbD_zero
  · interval_cases k <;> simp

theorem ctrlWord_demod (c : Ctrl) : (ctrlWord c).extractLsb' 4 3 = c.demod := by
  apply BitVec.eq_of_getLsbD_eq
  intro k hk
  rw [BitVec.getLsbD_extractLsb', getLsbD_ctrlWord]
  interval_cases k <;> rfl

theorem ctrlWord_atanSel (c : Ctrl) : (ctrlWord c).extractLsb' 8 2 = c.atanSel := by
  apply BitVec.eq_of_getLsbD_eq
  intro k hk
  rw [BitVec.getLsbD_extractLsb', getLsbD_ctrlWord]
  interval_cases k <;> rfl

theorem ctrlOfWord_ctrlWord (c : Ctrl) : ctrlOfWord (ctrlWord c) = c := by
  simp only [ctrlOfWord, ctrlWord_demod, ctrlWord_atanSel, getLsbD_ctrlWord]
  rfl

/-- R181. -/
theorem ctrlWord_ctrlOfWord (v : Word) : ctrlWord (ctrlOfWord v) = v &&& 0x77F := by
  apply BitVec.eq_of_getLsbD_eq
  intro k hk
  rw [getLsbD_ctrlWord, BitVec.getLsbD_and]
  simp only [ctrlOfWord]
  interval_cases k <;> simp

/-- Settles O6: each word is the list of its bits. -/
theorem registerBitLayouts : Obligations.RegisterBitLayouts := by
  refine ⟨ctrlWord_ctrlOfWord, fun c => ?_, fun busy st => ?_, fun f => ?_⟩
  · have hbit := getLsbD_ctrlWord c
    refine ⟨hbit 0, hbit 1, hbit 2, hbit 3, ctrlWord_demod c, ctrlWord_atanSel c, hbit 10, hbit 7, fun k hk => ?_⟩
    rw [hbit, List.getD_eq_default _ _ hk]
  · have hbit := getLsbD_statusWord busy st
    refine ⟨hbit 0, hbit 1, hbit 2, hbit 3, hbit 4, hbit 5, hbit 6, hbit 7, hbit 8, fun k hk => ?_⟩
    rw [hbit, getD_append_zeros hk]
  · have hbit := getLsbD_resultWord f
    refine ⟨hbit 0, hbit 1, hbit 2, hbit 3, hbit 4, fun k hk => ?_⟩
    rw [hbit, getD_append_zeros hk]

/-! A mask on a CTRL word acts field by field. -/

/-- No field set. -/
def Ctrl.zero : Ctrl :=
  { firEn := false, deemphEn := false, dcEn := false, multichan := false, demod := 0#3, atanSel := 0#2, sqSrc := false }

/-- The fields of CTRL that a mask keeps. -/
def Ctrl.mask (c m : Ctrl) : Ctrl :=
  { firEn := c.firEn && m.firEn, deemphEn := c.deemphEn && m.deemphEn, dcEn := c.dcEn && m.dcEn,
    multichan := c.multichan && m.multichan, demod := c.demod &&& m.demod, atanSel := c.atanSel &&& m.atanSel,
    sqSrc := c.sqSrc && m.sqSrc }

theorem ctrlWord_and (c m : Ctrl) : ctrlWord c &&& ctrlWord m = ctrlWord (c.mask m) := by
  apply BitVec.eq_of_getLsbD_eq
  intro k hk
  rw [BitVec.getLsbD_and, getLsbD_ctrlWord, getLsbD_ctrlWord, getLsbD_ctrlWord]
  simp only [Ctrl.mask, BitVec.getLsbD_and]
  interval_cases k <;> rfl

theorem ctrlWord_and_eq_iff (c m p : Ctrl) : ctrlWord c &&& ctrlWord m = ctrlWord p ↔ c.mask m = p := by
  rw [ctrlWord_and, (Function.LeftInverse.injective ctrlOfWord_ctrlWord).eq_iff]

/-- R125. An operation is selected when the fields under its mask are those of its match. -/
theorem selects_ctrlWord {i : Instr} (c m p : Ctrl) (h : selection i = some (ctrlWord m, ctrlWord p)) :
    selects (ctrlWord c) i = decide (c.mask m = p) := by
  simp only [selects, h, Bool.beq_eq_decide_eq, ctrlWord_and_eq_iff]

/-! R125. Which fields select an operation, of each of the four kinds. A match is written by the fields it has beside zeros. -/

section
variable (c : Ctrl) {i : Instr}

theorem selects_decimator {fir : Bool}
    (h : selection i =
      some (ctrlWord { Ctrl.zero with firEn := true }, ctrlWord { Ctrl.zero with firEn := fir })) :
    selects (ctrlWord c) i = decide (c.firEn = fir) := by
  rw [selects_ctrlWord c _ _ h]
  simp [Ctrl.mask, Ctrl.zero]

theorem selects_fm {a : BitVec 2}
    (h : selection i =
      some (ctrlWord { Ctrl.zero with demod := 7#3, atanSel := 3#2 }, ctrlWord { Ctrl.zero with atanSel := a })) :
    selects (ctrlWord c) i = decide (c.demod = 0#3 ∧ c.atanSel = a) := by
  rw [selects_ctrlWord c _ _ h]
  have hdemod : c.demod &&& 7#3 = c.demod := BitVec.and_allOnes
  have hatan : c.atanSel &&& 3#2 = c.atanSel := BitVec.and_allOnes
  simp [Ctrl.mask, Ctrl.zero, hdemod, hatan]

theorem selects_demod {n : BitVec 3}
    (h : selection i = some (ctrlWord { Ctrl.zero with demod := 7#3 }, ctrlWord { Ctrl.zero with demod := n })) :
    selects (ctrlWord c) i = decide (c.demod = n) := by
  rw [selects_ctrlWord c _ _ h]
  have hdemod : c.demod &&& 7#3 = c.demod := BitVec.and_allOnes
  simp [Ctrl.mask, Ctrl.zero, hdemod]

theorem selects_later {deemph dc : Bool}
    (h : selection i =
      some (ctrlWord { Ctrl.zero with demod := 4#3, deemphEn := deemph, dcEn := dc },
        ctrlWord { Ctrl.zero with deemphEn := deemph, dcEn := dc })) :
    selects (ctrlWord c) i =
      decide (c.demod &&& 4#3 = 0#3 ∧ (deemph = true → c.deemphEn = true) ∧ (dc = true → c.dcEn = true)) := by
  rw [selects_ctrlWord c _ _ h]
  cases deemph <;> cases dc <;> simp [Ctrl.mask, Ctrl.zero, and_comm, and_assoc]

end

/-! R124, R126. The chain. -/

theorem reservedSelection_ctrlWord (c : Ctrl) :
    reservedSelection (ctrlWord c) = true ↔ 5 ≤ c.demod.toNat ∨ (c.demod = 0#3 ∧ c.atanSel = 3#2) := by
  simp only [reservedSelection, ctrlWord_demod, ctrlWord_atanSel, ← BitVec.toNat_inj, Bool.or_eq_true, Bool.and_eq_true,
    decide_eq_true_eq, beq_iff_eq]
  rfl

theorem filter_decimators (c : Ctrl) :
    [Instr.decimBoxcar, .decimFir].filter (selects (ctrlWord c)) = [if c.firEn then .decimFir else .decimBoxcar] := by
  have hbox : selects (ctrlWord c) .decimBoxcar = decide (c.firEn = false) := selects_decimator c rfl
  have hfir : selects (ctrlWord c) .decimFir = decide (c.firEn = true) := selects_decimator c rfl
  cases hf : c.firEn <;> simp [List.filter, hbox, hfir, hf]

/-- R248 to R256. The demodulator of DEMOD and, for FM, of ATAN_SEL, under a selection that is not reserved. -/
def demodOp (c : Ctrl) : Instr :=
  if c.demod = 0#3 then
    (if c.atanSel = 0#2 then .demodFmExact else if c.atanSel = 1#2 then .demodFmFast else .demodFmLut)
  else if c.demod = 1#3 then .demodAm
  else if c.demod = 2#3 then .demodUsb
  else if c.demod = 3#3 then .demodLsb
  else .demodRaw

theorem filter_demodulators {c : Ctrl} (h : reservedSelection (ctrlWord c) = false) :
    [Instr.demodFmExact, .demodFmFast, .demodFmLut, .demodAm, .demodUsb, .demodLsb, .demodRaw].filter
      (selects (ctrlWord c)) = [demodOp c] := by
  have hexact : selects (ctrlWord c) .demodFmExact = decide (c.demod = 0#3 ∧ c.atanSel = 0#2) := selects_fm c rfl
  have hfast : selects (ctrlWord c) .demodFmFast = decide (c.demod = 0#3 ∧ c.atanSel = 1#2) := selects_fm c rfl
  have hlut : selects (ctrlWord c) .demodFmLut = decide (c.demod = 0#3 ∧ c.atanSel = 2#2) := selects_fm c rfl
  have ham : selects (ctrlWord c) .demodAm = decide (c.demod = 1#3) := selects_demod c rfl
  have husb : selects (ctrlWord c) .demodUsb = decide (c.demod = 2#3) := selects_demod c rfl
  have hlsb : selects (ctrlWord c) .demodLsb = decide (c.demod = 3#3) := selects_demod c rfl
  have hraw : selects (ctrlWord c) .demodRaw = decide (c.demod = 4#3) := selects_demod c rfl
  have hlegal := mt (reservedSelection_ctrlWord c).mpr (Bool.eq_false_iff.mp h)
  have hdemod : ∀ n : BitVec 3, ¬5 ≤ n.toNat → n = 0#3 ∨ n = 1#3 ∨ n = 2#3 ∨ n = 3#3 ∨ n = 4#3 := by decide
  have hatan : ∀ a : BitVec 2, a = 0#2 ∨ a = 1#2 ∨ a = 2#2 ∨ a = 3#2 := by decide
  simp only [demodOp, List.filter, hexact, hfast, hlut, ham, husb, hlsb, hraw]
  rcases hdemod c.demod (mt Or.inl hlegal) with hd | hd | hd | hd | hd
  · rcases hatan c.atanSel with ha | ha | ha | ha
    · simp [hd, ha]
    · simp [hd, ha]
    · simp [hd, ha]
    · exact absurd (.inr ⟨hd, ha⟩) hlegal
  all_goals simp [hd]

/-- R257, R320, R325. The operations after the demodulator: none for RAW. -/
def laterOps (c : Ctrl) : List Instr :=
  if c.demod = 4#3 then []
  else [.squelch] ++ (if c.deemphEn then [.deemph] else []) ++ (if c.dcEn then [.dcblock] else [])

theorem filter_later {c : Ctrl} (h : reservedSelection (ctrlWord c) = false) :
    [Instr.squelch, .deemph, .dcblock].filter (selects (ctrlWord c)) = laterOps c := by
  have hsq : selects (ctrlWord c) .squelch = _ := selects_later c (deemph := false) (dc := false) rfl
  have hde : selects (ctrlWord c) .deemph = _ := selects_later c (deemph := true) (dc := false) rfl
  have hdc : selects (ctrlWord c) .dcblock = _ := selects_later c (deemph := false) (dc := true) rfl
  have hlegal : ¬5 ≤ c.demod.toNat := fun h5 =>
    Bool.eq_false_iff.mp h ((reservedSelection_ctrlWord c).mpr (.inl h5))
  have hbit : ∀ n : BitVec 3, ¬5 ≤ n.toNat → (n &&& 4#3 = 0#3 ↔ n ≠ 4#3) := by decide
  simp only [laterOps, List.filter, hsq, hde, hdc, hbit _ hlegal]
  by_cases hd : c.demod = 4#3
  · simp [hd]
  · cases hdeemph : c.deemphEn <;> cases hdcEn : c.dcEn <;> simp [hd]

theorem stages_ctrlWord {c : Ctrl} (h : reservedSelection (ctrlWord c) = false) :
    stages (ctrlWord c) = [if c.firEn then .decimFir else .decimBoxcar, demodOp c] ++ laterOps c := by
  have hops : datapathOps =
      [.decimBoxcar, .decimFir] ++
        ([.demodFmExact, .demodFmFast, .demodFmLut, .demodAm, .demodUsb, .demodLsb, .demodRaw] ++
          [.squelch, .deemph, .dcblock]) := rfl
  rw [stages, hops, List.filter_append, List.filter_append, filter_decimators, filter_demodulators h, filter_later h]
  rfl

/-- Settles O5: the chain is the decimators, the demodulators and the later stages, each filtered by its own fields. -/
theorem selectedStagesFollowTheChain : Obligations.SelectedStagesFollowTheChain := fun c =>
  ⟨reservedSelection_ctrlWord c, stages_ctrlWord⟩

end Sys2Proof.Machine
end

section
/-! SUPPORT. What one effect of the outside, and so one step, keeps: the parameters, the canonical form of memory, a run's
configuration, a block in flight (10_state.md, 20_memory.md sections 3 and 5). -/

namespace Sys2Proof.Machine

/-! The state that an entry of the outside takes effect on. -/

@[simp] theorem taken_params (s : State) : (taken s).params = s.params := rfl
@[simp] theorem taken_cfg (s : State) : (taken s).cfg = s.cfg := rfl
@[simp] theorem taken_inLen (s : State) : (taken s).inLen = s.inLen := rfl
@[simp] theorem taken_inFlight (s : State) : (taken s).inFlight = waited s.inFlight := rfl
@[simp] theorem taken_report (s : State) : (taken s).report = s.report := rfl
@[simp] theorem taken_dp (s : State) : (taken s).dp = s.dp := rfl
@[simp] theorem taken_mem (s : State) : (taken s).mem = s.mem := rfl
@[simp] theorem taken_work (s : State) : (taken s).work = s.work := rfl
@[simp] theorem taken_epoch (s : State) : (taken s).epoch = s.epoch := rfl

@[simp] theorem taken_busy (s : State) : (taken s).busy = s.busy := Option.isSome_map

/-! What an effect of the outside keeps. -/

namespace HostEffect

variable {s t : State}

theorem params_eq (h : HostEffect s t) : t.params = s.params := by cases h <;> rfl

theorem mem_wf (h : HostEffect s t) (hwf : s.mem.wf) : t.mem.wf := by
  cases h
  case stored => exact Memory.storeLE_wf hwf _ _ _
  case reset => exact List.Pairwise.nil
  all_goals exact hwf

/-- R105. In a run the locked registers and the latched taps stay, until the run ends. -/
theorem config_eq (h : HostEffect s t) (hs : s.status.running = true) (ht : t.status.running = true) :
    t.cfg = s.cfg ∧ t.dp.taps = s.dp.taps ∧ t.dp.tapSum = s.dp.tapSum := by
  cases h
  case configured hr => exact absurd hs (Bool.eq_false_iff.mp hr)
  case started hr _ => exact absurd hs (Bool.eq_false_iff.mp hr)
  case reset => cases ht
  all_goals exact ⟨rfl, rfl, rfl⟩

/-- R92, R105. While a block is in flight, the outside changes nothing that it reads or reports, but for a reset. -/
theorem block_eq (h : HostEffect s t) (hb : s.busy = true) (hr : s.status.running = true) (ht : t.inFlight ≠ none) :
    t.inFlight = s.inFlight ∧ t.cfg = s.cfg ∧ t.inLen = s.inLen ∧ t.mem = s.mem ∧ t.epoch = s.epoch ∧
      t.report = s.report ∧ t.dp = s.dp ∧ t.status.running = s.status.running := by
  have hidle : s.busy ≠ false := Bool.ne_false_iff.mpr hb
  cases h
  case configured hn => exact absurd hn (Bool.ne_false_iff.mpr hr)
  case lengthSet hn => exact absurd hn hidle
  case stored hn _ _ => exact absurd hn hidle
  case started hn _ _ => exact absurd hn hidle
  case issued hn _ _ => exact absurd hn hidle
  case stopped hn => exact absurd hn hidle
  case reset => exact absurd rfl ht
  case error => exact ⟨rfl, rfl, rfl, rfl, rfl, rfl, rfl, setErr_running _ _⟩
  all_goals exact ⟨rfl, rfl, rfl, rfl, rfl, rfl, rfl, rfl⟩

end HostEffect

/-- Settles O49: a store of bytes or of outputs keeps the form, a reset empties the list, and nothing else writes memory. -/
theorem stepKeepsMemoryCanonical : Obligations.StepKeepsMemoryCanonical := by
  intro s t hwf hstep
  rcases step_cases hstep with ⟨-, he⟩ | ⟨j, -, -, u, hf, rfl⟩
  · exact he.mem_wf hwf
  · have hmem : u.mem = s.mem := hf.mem
    rw [completeBlock_mem, hmem]
    exact storeOutputs_wf hwf _ _

/-- Settles O58: no effect of the outside and no completion writes the parameters. -/
theorem parametersAreConstant : Obligations.ParametersAreConstant := by
  intro s t hstep
  rcases step_cases hstep with ⟨-, he⟩ | ⟨j, -, -, u, hf, rfl⟩
  · exact he.params_eq
  · exact hf.params

/-- Settles O56: a completion keeps configuration and taps; of the outside's effects only those that need RUNNING 0 or lead to
it do not. -/
theorem configurationIsFixedDuringARun : Obligations.ConfigurationIsFixedDuringARun := by
  intro s t hstep hs ht
  rcases step_cases hstep with ⟨-, he⟩ | ⟨j, -, -, u, hf, rfl⟩
  · exact he.config_eq hs ht
  · exact ⟨hf.cfg, hf.taps, hf.tapSum⟩

/-- Settles O57: a completion ends the flight, and every effect of the outside on what the block reads needs it to be over. -/
theorem nothingShowsBeforeCompletion : Obligations.NothingShowsBeforeCompletion := by
  intro s t j k hinv hstep hj hk
  have hbusy : s.busy = true := busy_eq_true.mpr ⟨j, hj⟩
  rcases step_cases hstep with ⟨-, he⟩ | ⟨j, -, -, u, hf, rfl⟩
  · obtain ⟨hflight, hkept⟩ := he.block_eq ((taken_busy s).trans hbusy) (hinv.busyRuns hbusy) (by simp [hk])
    rw [hk, taken_inFlight, hj] at hflight
    cases hflight
    exact ⟨rfl, he.params_eq, hkept⟩
  · cases hk

end Sys2Proof.Machine
end

section
/-! SUPPORT. The control invariant (40_host_commands.md R162, R165, R166, R174): every step keeps it, under it no step stops,
and a block in flight comes to its end. -/

namespace Sys2Proof.Machine

/-- R162, R126. START refuses the reserved selections. -/
theorem reservedSelection_of_configOk {p : Config.Params} {c : ConfigRegs} (h : configOk p c = true) :
    reservedSelection (ctrlWord c.ctrl) = false := by
  obtain ⟨-, hdemod, hatan, -⟩ := (configOkIsTheSevenChecks p c).mp h
  rw [Bool.eq_false_iff, ne_eq, reservedSelection_ctrlWord]
  rintro (hd | ⟨hd, ha⟩)
  · omega
  · rcases hatan with hne | hle
    · exact hne hd
    · rw [ha] at hle
      exact absurd hle (by decide)

/-- R166. -/
theorem lengthOk_iff (s : State) : lengthOk s = true ↔ s.inLen.toNat % 2 = 0 ∧ s.inLen.toNat ≤ s.params.inBufBytes := by
  simp only [lengthOk, Bool.and_eq_true, beq_iff_eq, decide_eq_true_eq]

/-! Every step keeps the control invariant. -/

namespace ControlInv

variable {s t : State}

theorem mono (h : ControlInv s) (hp : t.params = s.params) (hw : t.work = s.work) (hi : t.inLen = s.inLen)
    (hf : t.inFlight = s.inFlight) (hc : t.cfg = s.cfg) (hr : t.status.running = s.status.running) : ControlInv t where
  bufferSize := hp ▸ h.bufferSize
  workEmpty := hw.trans h.workEmpty
  busyRuns := by rw [State.busy, hf, hr]; exact h.busyRuns
  jobAccepted := by rw [hf, hi, hp]; exact h.jobAccepted
  runChecked := by rw [hr, hp, hc]; exact h.runChecked

/-- With no block in flight, all that is left is the buffer size, the empty work, and the checks of a run. -/
theorem of_idle (h : ControlInv s) (hp : t.params = s.params) (hw : t.work = Work.empty) (hf : t.inFlight = none)
    (hr : t.status.running = true → configOk t.params t.cfg = true) : ControlInv t where
  bufferSize := hp ▸ h.bufferSize
  workEmpty := hw
  busyRuns := fun hb => absurd hb (Bool.eq_false_iff.mp (busy_eq_false.mpr hf))
  jobAccepted := fun j hj => by rw [hf] at hj; cases hj
  runChecked := hr

theorem taken (h : ControlInv s) : ControlInv (taken s) where
  bufferSize := h.bufferSize
  workEmpty := h.workEmpty
  busyRuns := fun hb => h.busyRuns ((taken_busy s).symm.trans hb)
  jobAccepted := fun j hj => by
    obtain ⟨k, hk, rfl⟩ := Option.map_eq_some_iff.mp hj
    exact h.jobAccepted k hk
  runChecked := h.runChecked

theorem hostEffect (h : ControlInv s) (he : HostEffect s t) : ControlInv t := by
  cases he
  case error => exact h.mono rfl rfl rfl rfl rfl (setErr_running _ _)
  case readError => exact h.mono rfl rfl rfl rfl rfl (setErr_running _ _)
  case configured hr =>
    have hidle : s.inFlight = none := busy_eq_false.mp (Bool.eq_false_iff.mpr fun hb =>
      Bool.eq_false_iff.mp hr (h.busyRuns hb))
    exact h.of_idle rfl h.workEmpty hidle fun hrun => absurd hrun (Bool.eq_false_iff.mp hr)
  case lengthSet hb => exact h.of_idle rfl h.workEmpty (busy_eq_false.mp hb) h.runChecked
  case started hb _ hc => exact h.of_idle rfl h.workEmpty (busy_eq_false.mp hb) fun _ => hc
  case stopped hb => exact h.of_idle rfl h.workEmpty (busy_eq_false.mp hb) (fun hrun => by cases hrun)
  case reset => exact h.of_idle rfl rfl rfl (fun hrun => by cases hrun)
  case issued hr hl =>
    obtain ⟨heven, hle⟩ := (lengthOk_iff s).mp hl
    exact { h with
      busyRuns := fun _ => hr
      jobAccepted := fun j hj => by cases hj; exact ⟨rfl, heven, hle⟩ }
  all_goals exact h.mono rfl rfl rfl rfl rfl rfl

theorem completeBlock {len : Nat} {u : State} (h : ControlInv s) (hf : StageFrame (loadBlock len s) u) :
    ControlInv (completeBlock u) := by
  refine h.of_idle hf.params rfl rfl fun hrun => ?_
  have hu : u.status = s.status := hf.status
  have hrunning : s.status.running = true := by
    rw [completeBlock_status, hu, statusAfter] at hrun
    split at hrun
    · cases hrun
    · exact hrun
  rw [completeBlock_params, completeBlock_cfg, hf.params, hf.cfg]
  exact h.runChecked hrunning

end ControlInv

/-- Settles O50: an effect of the outside that touches what the invariant speaks of has its check as premise. -/
theorem stepKeepsControlInv : Obligations.StepKeepsControlInv := by
  intro s t hinv hstep
  rcases step_cases hstep with ⟨-, he⟩ | ⟨j, -, -, u, hf, rfl⟩
  · exact hinv.taken.hostEffect he
  · exact hinv.completeBlock hf

/-! No stop. -/

theorem processBlock_nonempty {len : Nat} {s : State} (hl : len ≠ 0) (hr : reservedSelection (ctrlWord s.cfg.ctrl) = false) :
    ∃ u, runStages (stages (ctrlWord s.cfg.ctrl)) (loadBlock len s) = .next u ∧ StageFrame (loadBlock len s) u ∧
      processBlock len s = .next (completeBlock u) := by
  obtain ⟨u, hu, hf⟩ := runStages_frame (stages_datapath (ctrlWord s.cfg.ctrl)) (loadBlock len s)
  exact ⟨u, hu, hf, by simp [processBlock, hl, hr, hu]⟩

/-- Settles O9: a due block runs PROCESS_BLOCK, whose stages are datapath operations and so answer a next state. -/
theorem stepRunsTheSelectedStages : Obligations.StepRunsTheSelectedStages := by
  intro s j hj hw hl hr
  obtain ⟨u, hu, -, hblock⟩ := processBlock_nonempty hl hr
  exact ⟨u, hu, (step_due hj hw).trans hblock⟩

/-- Settles O53: the outside always answers, and a due block in a checked run has no reserved selection. -/
theorem theMachineNeverStops : Obligations.TheMachineNeverStops := by
  intro s hinv
  by_cases ho : outsideMoves s
  · obtain ⟨t, ht, -⟩ := outsideStep_effect { s with inFlight := waited s.inFlight }
    exact ⟨t, (step_outside ho).trans ht⟩
  · simp only [outsideMoves, not_forall, not_not] at ho
    obtain ⟨j, hj, hw⟩ := ho
    rw [Goes, step_due hj hw]
    by_cases hl : j.len = 0
    · exact ⟨_, hl ▸ processBlock_zero s⟩
    · have hrun := hinv.busyRuns (busy_eq_true.mpr ⟨j, hj⟩)
      obtain ⟨u, -, -, hblock⟩ := processBlock_nonempty hl (reservedSelection_of_configOk (hinv.runChecked hrun))
      exact ⟨_, hblock⟩

/-! The end of a block. -/

/-- While the outside moves, a block in flight afterwards has one step less to wait, if it is not over. -/
theorem inFlight_of_step {s t : State} {j : Job} (hinv : ControlInv s) (hstep : step s = .next t)
    (hj : s.inFlight = some j) : t.inFlight = none ∨ (j.wait ≠ 0 ∧ t.inFlight = some { j with wait := j.wait - 1 }) := by
  have hbusy : s.busy = true := busy_eq_true.mpr ⟨j, hj⟩
  rcases step_cases hstep with ⟨ho, he⟩ | ⟨_, -, -, u, -, rfl⟩
  · by_cases ht : t.inFlight = none
    · exact .inl ht
    · obtain ⟨hflight, -⟩ := he.block_eq ((taken_busy s).trans hbusy) (hinv.busyRuns hbusy) ht
      rw [taken_inFlight, hj] at hflight
      exact .inr ⟨ho j hj, hflight⟩
  · exact .inl rfl

theorem run_succ_of_step {s t : State} (h : step s = .next t) (k : Nat) :
    Host.Core.run core (k + 1) s = Host.Core.run core k t := by
  simp only [Host.Core.run, core, h]

/-- Settles O59, by induction on the wait: each step ends the flight or takes one off the wait, and at 0 it completes. -/
theorem eachBlockIsCompletedOrAborted : Obligations.EachBlockIsCompletedOrAborted := by
  intro s j hinv hj
  induction hw : j.wait generalizing s j with
  | zero =>
    obtain ⟨t, ht⟩ := theMachineNeverStops s hinv
    rcases inFlight_of_step hinv ht hj with hnone | ⟨hne, -⟩
    · exact ⟨1, t, le_rfl, run_succ_of_step ht 0, hnone⟩
    · exact absurd hw hne
  | succ n ih =>
    obtain ⟨t, ht⟩ := theMachineNeverStops s hinv
    rcases inFlight_of_step hinv ht hj with hnone | ⟨-, hnext⟩
    · exact ⟨1, t, by omega, run_succ_of_step ht 0, hnone⟩
    · obtain ⟨k, u, hk, hrun, hu⟩ := ih t _ (stepKeepsControlInv s t hinv ht) hnext (by simp [hw])
      exact ⟨k + 1, u, by omega, (run_succ_of_step ht k).trans hrun, hu⟩

end Sys2Proof.Machine
end

section
/-! SUPPORT. Sticky bits (60_exceptions.md R350, R355; 10_state.md R39): which accesses set one, and which clear one. -/

namespace Sys2Proof.Machine

/-! What sets a bit. -/

/-- RUNNING and TERMINATED are no error bits. -/
theorem errBit_run (e : Err) (st : Status) (terminated running : Bool) :
    errBit e { st with terminated, running } = errBit e st := by cases e <;> rfl

@[simp] theorem errBit_statusAfter (e : Err) (flags : BlockFlags) (st : Status) :
    errBit e (statusAfter flags st) = errBit e st := by
  unfold statusAfter
  split
  · exact errBit_run e st true false
  · rfl

/-- An effect that sets an error bit raises that error, or is the bus error of a read. -/
theorem HostEffect.eq_of_sets {s t : State} {e : Err} (h : HostEffect s t) (hs : errBit e s.status = false)
    (ht : errBit e t.status = true) : t = raise e s ∨ t = answer 0#32 (raise e s) := by
  have hkept : errBit e t.status ≠ errBit e s.status := by rw [hs, ht]; decide
  cases h
  case error f =>
    simp only [raise_status, errBit_setErr, hs, Bool.or_false, decide_eq_true_eq] at ht
    exact .inl (ht ▸ rfl)
  case readError =>
    simp only [answer_status, raise_status, errBit_setErr, hs, Bool.or_false, decide_eq_true_eq] at ht
    exact .inr (ht ▸ rfl)
  case started => exact absurd (errBit_run e s.status false true) hkept
  case stopped => exact absurd (errBit_run e s.status s.status.terminated false) hkept
  case cleared => simp at ht
  case reset => simp at ht
  all_goals exact absurd rfl hkept

/-- A step that changes an error bit is the outside's. -/
theorem outside_of_errBit_changes {s t : State} {e : Err} (hstep : step s = .next t)
    (hne : errBit e t.status ≠ errBit e s.status) : outsideMoves s ∧ HostEffect (taken s) t := by
  rcases step_cases hstep with h | ⟨j, -, -, u, hf, rfl⟩
  · exact h
  · have hu : u.status = s.status := hf.status
    rw [completeBlock_status, errBit_statusAfter, hu] at hne
    exact absurd rfl hne

/-- While the outside moves, a step is the reset's, an access's, or leaves the state. -/
theorem step_outside_cases {s t : State} (ho : outsideMoves s) (h : step s = .next t) :
    t = taken s ∨ (∃ rest, s.inputs = .hardwareReset :: rest ∧ t = resetBlock (taken s)) ∨
      ∃ a rest, s.inputs = .access a :: rest ∧ busTransaction a (taken s) = .next t := by
  cases hs : s.inputs with
  | nil =>
    left
    rw [step_outside ho, outsideStep, hs] at h
    cases h
    rw [taken, hs, List.tail_nil, ← hs]
  | cons i rest =>
    right
    cases i with
    | access a => exact .inr ⟨a, rest, rfl, (step_access ho hs).symm.trans h⟩
    | hardwareReset =>
      rw [step_outside ho, outsideStep, hs] at h
      cases h
      exact .inl ⟨rest, rfl, by rw [taken, hs, List.tail_cons]⟩

/-- Settles O55: the effects that set an error bit raise it and do no more; that a read answers 0 then, and a write nothing,
is what the two directions of an access can do. -/
theorem errorsArePreciseAndSingle : Obligations.ErrorsArePreciseAndSingle := by
  intro s t e hstep hs ht
  obtain ⟨ho, he⟩ := outside_of_errBit_changes hstep (by rw [hs, ht]; decide)
  have hraise := he.eq_of_sets hs ht
  refine ⟨ho, ?_⟩
  rcases step_outside_cases ho hstep with rfl | ⟨rest, -, rfl⟩ | ⟨a, rest, ha, hbus⟩
  · rw [taken_status, hs] at ht
    cases ht
  · simp at ht
  · refine ⟨a, rest, ha, fun hread => ?_, fun data hwrite => ?_⟩
    · have hanswer : t = answer 0#32 t := by
        obtain ⟨u, hu, hcases⟩ := busTransaction_read hread (taken s)
        cases hbus.symm.trans hu
        rcases hcases with ⟨v, rfl⟩ | ⟨v, n, -, rfl⟩ | rfl
        · rw [answer_status, taken_status, hs] at ht
          cases ht
        · change errBit e s.status = true at ht
          rw [hs] at ht
          cases ht
        · rfl
      rw [hanswer]
      rcases hraise with rfl | rfl <;> rfl
    · have hdata : t = answer (taken s).busData t := by rw [← busTransaction_write hwrite hbus]; rfl
      rw [hdata]
      rcases hraise with rfl | rfl <;> rfl

/-! What clears a bit. -/

/-- No sticky bit (R39, STATUS bits 8 to 2) is cleared. -/
structure KeepsSticky (s t : State) : Prop where
  errors : ∀ e, errBit e s.status = true → errBit e t.status = true
  terminated : s.status.terminated = true → t.status.terminated = true

theorem KeepsSticky.of_status_eq {s t : State} (h : t.status = s.status) : KeepsSticky s t where
  errors _ hs := h ▸ hs
  terminated hs := h ▸ hs

theorem KeepsSticky.raise (e : Err) (s : State) : KeepsSticky s (raise e s) where
  errors f hs := by simp [errBit_setErr, hs]
  terminated hs := by simp [hs]

theorem KeepsSticky.busError (access : Access) (s : State) : KeepsSticky s (busError access s) := by
  have hraise := KeepsSticky.raise .bus s
  cases access
  · exact ⟨hraise.errors, hraise.terminated⟩
  · exact hraise

theorem KeepsSticky.of_completion {s u : State} (h : u.status = s.status) : KeepsSticky s (completeBlock u) where
  errors e hs := by simp [h, hs]
  terminated hs := by
    rw [completeBlock_status, h, statusAfter]
    split
    · rfl
    · exact hs

theorem KeepsSticky.writeReg (r : Reg) (v : Word) (s : State) : KeepsSticky s (writeReg r v s) := by
  have hlocked : ∀ c, KeepsSticky s (writeLocked c s) := fun c => by
    unfold writeLocked
    split
    · exact .raise _ _
    · exact .of_status_eq rfl
  cases r
  case inLen =>
    simp only [Machine.writeReg, writeInLen]
    split
    · exact .raise _ _
    · exact .of_status_eq rfl
  case ctrl => exact hlocked _
  case downsample => exact hlocked _
  case outputScale => exact hlocked _
  case sqLevel => exact hlocked _
  case sqThresh => exact hlocked _
  case deemphA => exact hlocked _
  all_goals exact .of_status_eq rfl

/-- 10_state.md section 1: COMMAND lies at offset 0x020 alone. -/
theorem regAt_eq_command {o : Nat} (halign : o % 4 = 0) (h : regAt o = .command) : o = 0x020 := by
  have hnames : ∀ k < 24, regNames.getD k .reserved = .command → k = 8 := by decide
  unfold regAt at h
  split_ifs at h with hlow
  have := hnames (o / 4) (by omega) h
  omega

/-- An access that clears a sticky bit issues a command. -/
theorem busTransaction_keepsSticky {a : Transaction} {s t : State} (h : busTransaction a s = .next t) :
    (∃ w, a = commandWrite w ∧ issueCommand w s = .next t) ∨ KeepsSticky s t := by
  obtain ⟨addr, size, access⟩ := a
  cases access with
  | read =>
    obtain ⟨u, hu, hcases⟩ := busTransaction_read (t := { addr, size, access := .read }) rfl s
    cases hu.symm.trans h
    rcases hcases with ⟨v, rfl⟩ | ⟨v, n, -, rfl⟩ | rfl
    · exact .inr (.of_status_eq rfl)
    · exact .inr (.of_status_eq rfl)
    · exact .inr (.busError .read s)
  | write data =>
    simp only [busTransaction, decode, decodeBus, busAccess] at h
    split_ifs at h with hreg
    · simp only [exec, execRegWrite] at h
      split_ifs at h with hok hcommand
      · left
        simp only [regAccessOk, aligned, Size.bytes, Bool.and_eq_true, beq_iff_eq] at hok
        obtain ⟨⟨-, rfl⟩, halign⟩ := hok
        have haddr : addr = 0x020 := BitVec.eq_of_toNat_eq (regAt_eq_command halign hcommand)
        rw [busBits_word] at h
        exact ⟨data, haddr ▸ rfl, h⟩
      · cases h
        exact .inr (.writeReg _ _ _)
      · cases h
        exact .inr (.busError _ _)
    · right
      simp only [exec, execInbufAccess] at h
      split_ifs at h <;> cases h
      · exact .raise _ _
      · exact .of_status_eq rfl
      · exact .busError _ _
    · cases h
      exact .inr (.busError _ _)
    · cases h
      exact .inr (.busError _ _)

/-- R122. Which words are the three commands that clear sticky bits. -/
theorem word_of_decodeCommand {w : Word} {c : Command} (h : decodeCommand w = some c) :
    (c = .start → w = 1) ∧ (c = .clearStatus → w = 4) ∧ (c = .softReset → w = 5) := by
  have hlegal : w.toNat ≤ 5 := by
    by_contra hgt
    rw [decodeCommand_eq_none (Nat.lt_of_not_le hgt)] at h
    cases h
  have hmap := decodeCommand_ofNat hlegal
  rw [BitVec.ofNat_toNat, BitVec.setWidth_eq, h] at hmap
  obtain ⟨n, hn, rfl⟩ : ∃ n ≤ 5, w = BitVec.ofNat 32 n := ⟨w.toNat, hlegal, by simp⟩
  interval_cases n <;> cases hmap <;> decide

/-- A command that clears an error bit is CLEAR_STATUS or SOFT_RESET; one that clears TERMINATED, one of these or START. -/
theorem issueCommand_keepsSticky {w : Word} {s t : State} (h : issueCommand w s = .next t) :
    KeepsSticky s t ∨ w = 4 ∨ w = 5 ∨ (w = 1 ∧ ∀ e, errBit e s.status = true → errBit e t.status = true) := by
  cases hc : decodeCommand w with
  | none =>
    rw [issueCommand_of_none hc] at h
    cases h
    exact .inl (.raise _ _)
  | some c =>
    obtain ⟨hstart, hclear, hreset⟩ := word_of_decodeCommand hc
    rw [issueCommand_of_some hc] at h
    cases c with
    | nop => cases h; exact .inl (.of_status_eq rfl)
    | start =>
      simp only [commandInstr, exec, execStart] at h
      split_ifs at h <;> cases h
      · exact .inl (.raise _ _)
      · exact .inl (.raise _ _)
      · exact .inr (.inr (.inr ⟨hstart rfl, fun e he => (errBit_run e s.status false true).trans he⟩))
      · exact .inl (.raise _ _)
    | process =>
      simp only [commandInstr, exec, execProcess] at h
      split_ifs at h <;> cases h
      · exact .inl (.of_status_eq rfl)
      · exact .inl (.raise _ _)
      · exact .inl (.of_status_eq rfl)
      · exact .inl (.raise _ _)
    | stop =>
      simp only [commandInstr, exec, execStop] at h
      split_ifs at h <;> cases h
      · exact .inl (.raise _ _)
      · exact .inl ⟨fun e he => (errBit_run e s.status s.status.terminated false).trans he, id⟩
    | clearStatus => exact .inr (.inl (hclear rfl))
    | softReset => exact .inr (.inr (.inl (hreset rfl)))

/-- A step that clears a sticky bit takes a reset, or one of the three commands; START clears no error bit. -/
theorem step_keepsSticky {s t : State} (h : step s = .next t) :
    KeepsSticky s t ∨
      ∃ rest, s.inputs = .hardwareReset :: rest ∨ s.inputs = .access (commandWrite 4) :: rest ∨
        s.inputs = .access (commandWrite 5) :: rest ∨
        (s.inputs = .access (commandWrite 1) :: rest ∧ ∀ e, errBit e s.status = true → errBit e t.status = true) := by
  by_cases ho : outsideMoves s
  · rcases step_outside_cases ho h with rfl | ⟨rest, hrest, -⟩ | ⟨a, rest, ha, hbus⟩
    · exact .inl (.of_status_eq rfl)
    · exact .inr ⟨rest, .inl hrest⟩
    · rcases busTransaction_keepsSticky hbus with ⟨w, rfl, hcmd⟩ | hkeeps
      · rcases issueCommand_keepsSticky hcmd with hkeeps | rfl | rfl | ⟨rfl, hkeeps⟩
        · exact .inl ⟨hkeeps.errors, hkeeps.terminated⟩
        · exact .inr ⟨rest, .inr (.inl ha)⟩
        · exact .inr ⟨rest, .inr (.inr (.inl ha))⟩
        · exact .inr ⟨rest, .inr (.inr (.inr ⟨ha, hkeeps⟩))⟩
      · exact .inl ⟨hkeeps.errors, hkeeps.terminated⟩
  · rcases step_cases h with ⟨hout, -⟩ | ⟨j, -, -, u, hf, rfl⟩
    · exact absurd hout ho
    · exact .inl (.of_completion hf.status)

/-- Settles O54. -/
theorem stickyBitsAreClearedByRuleOnly : Obligations.StickyBitsAreClearedByRuleOnly := by
  intro s t hstep
  rcases step_keepsSticky hstep with hkeeps | ⟨rest, hreset | hclear | hsoft | ⟨hstart, herrors⟩⟩
  · refine ⟨fun ⟨e, hs, ht⟩ => ?_, fun hs ht => ?_⟩
    · rw [hkeeps.errors e hs] at ht
      cases ht
    · rw [hkeeps.terminated hs] at ht
      cases ht
  · exact ⟨fun _ => ⟨rest, .inl hreset⟩, fun _ _ => ⟨rest, .inl hreset⟩⟩
  · exact ⟨fun _ => ⟨rest, .inr (.inl hclear)⟩, fun _ _ => ⟨rest, .inr (.inr (.inl hclear))⟩⟩
  · exact ⟨fun _ => ⟨rest, .inr (.inr hsoft)⟩, fun _ _ => ⟨rest, .inr (.inr (.inr hsoft))⟩⟩
  · refine ⟨fun ⟨e, hs, ht⟩ => ?_, fun _ _ => ⟨rest, .inr (.inl hstart)⟩⟩
    rw [herrors e hs] at ht
    cases ht

end Sys2Proof.Machine
end

section
/-! SUPPORT. The register file, the resets and the issue of a block (10_state.md, 40_host_commands.md R165, R172, R180, R181),
and the step as the exec of what an access decodes to. -/

namespace Sys2Proof.Machine

/-! The step of an access. -/

theorem busTransaction_of_decode {t : Transaction} {i : Instr} (h : decode (.bus t) = .ok i) (s : State) :
    busTransaction t s = exec i s := by simp only [busTransaction, h]

theorem decode_commandWrite (w : Word) : decode (.bus (commandWrite w)) = .ok (.regWrite 0x020 .word w) := by
  have hreg : BitVec.toNat (0x020 : Word) < Config.regBytes := by decide
  simp only [decode, decodeBus, commandWrite, if_pos hreg, busBits_word]

/-- Settles O8: the outside's step is the transaction, and a COMMAND write is the command it encodes. -/
theorem stepRunsTheDecodedAccess : Obligations.StepRunsTheDecodedAccess := by
  intro s t rest ho hs
  have hstep := step_access ho hs
  refine ⟨fun i hi => hstep.trans (busTransaction_of_decode hi _), ?_⟩
  rintro w i rfl hi
  obtain ⟨hlegal, -⟩ := commandWritesIssueCommands (taken s) w
  rw [hstep, busTransaction_of_decode (decode_commandWrite w), hlegal i hi]

/-! Reset. -/

/-- R62. Every register reads after a reset as right after power-up. -/
theorem readReg_resetBlock (r : Reg) (s : State) : readReg r (resetBlock s) = readReg r State.reset := by cases r <;> rfl

theorem readReg_coef_reset (k : Nat) : readReg (.coef k) State.reset = 0#32 := by
  have htap : (List.replicate 256 0#8).getD k 0#8 = 0#8 := by
    rw [List.getD_eq_getElem?_getD, List.getElem?_replicate]
    split <;> rfl
  change ((List.replicate 256 0#8).getD k 0#8).setWidth 32 = 0#32
  rw [htap]
  rfl

/-- Settles O11: the reset state is a literal, read register by register. -/
theorem resetValues : Obligations.ResetValues :=
  ⟨by decide, readReg_coef_reset, rfl, rfl, by decide⟩

theorem step_hardwareReset {s : State} {rest : List Input} (ho : outsideMoves s) (hs : s.inputs = .hardwareReset :: rest) :
    step s = .next (resetBlock (taken s)) := by
  rw [step_outside ho]
  simp [outsideStep, taken, hs]

/-- Settles O17: either reset is `resetBlock`, which leaves the literal of reset but for what is not the block's. -/
theorem resetsRestoreTheResetState : Obligations.ResetsRestoreTheResetState := by
  refine ⟨fun s => ⟨resetBlock s, rfl, fun r => readReg_resetBlock r s, rfl, rfl, rfl, fun _ => rfl, rfl, rfl, rfl, rfl, rfl⟩,
    fun s rest ho hs => step_hardwareReset ho hs⟩

/-! PROCESS, accepted (R165). -/

theorem exec_process_accepted {s : State} (hb : s.busy = false) (hr : s.status.running = true) (hl : lengthOk s = true) :
    exec .process s = .next (issueBlock s) := by simp [exec, execProcess, hb, hr, hl]

/-- Settles O14: the checks pass, and the engine takes the block. -/
theorem processPutsABlockInFlight : Obligations.ProcessPutsABlockInFlight :=
  fun s hb hr heven hle => exec_process_accepted hb hr ((lengthOk_iff s).mpr ⟨heven, hle⟩)

/-! Register reads (R180). -/

theorem exec_regRead_register {addr : Word} (halign : addr.toNat % 4 = 0) (hreg : addr.toNat < 0x1000) (s : State) :
    exec (.regRead addr .word) s = .next (answer (readReg (regAt addr.toNat) s) s) := by
  simp only [exec, execRegRead, if_pos (regAccessOk_word halign hreg)]

theorem regAt_named {k : Nat} (h : k < 24) : regAt (4 * k) = regNames.getD k .reserved := by
  rw [regAt, if_pos (by omega), Nat.mul_div_cancel_left k (by decide)]

theorem regAt_coef {k : Nat} (h : k < 256) : regAt (0x400 + 4 * k) = .coef k := by
  have hindex : (0x400 + 4 * k - 0x400) / 4 = k := by omega
  rw [regAt, if_neg (by omega), if_pos (by omega), hindex]

theorem regAt_reserved {o : Nat} (h : (0x060 ≤ o ∧ o < 0x400) ∨ (0x800 ≤ o ∧ o < 0x1000)) : regAt o = .reserved := by
  rw [regAt, if_neg (by omega), if_neg (by omega)]

/-- Settles O19: the named registers one by one, COEF and the reserved offsets by range. -/
theorem regReadAnswersTheRegister : Obligations.RegReadAnswersTheRegister := by
  intro s
  have hread : ∀ o, o % 4 = 0 → o < 0x1000 →
      exec (.regRead (BitVec.ofNat 32 o) .word) s = .next (answer (readReg (regAt o) s) s) := fun o halign hreg => by
    have ho : (BitVec.ofNat 32 o).toNat = o := Nat.mod_eq_of_lt (by omega)
    rw [exec_regRead_register (by rw [ho, halign]) (by rw [ho]; exact hreg), ho]
  refine ⟨fun p hp => ?_, fun k hk => ?_, fun o halign ho => ?_⟩
  · have hnamed : ∀ k < 24, exec (.regRead (BitVec.ofNat 32 (4 * k)) .word) s =
        .next (answer (readReg (regNames.getD k .reserved) s) s) := fun k hk => by
      rw [hread _ (by omega) (by omega), regAt_named hk]
    fin_cases hp
    exacts [hnamed 0 (by decide), hnamed 1 (by decide), hnamed 2 (by decide), hnamed 3 (by decide), hnamed 4 (by decide),
      hnamed 5 (by decide), hnamed 6 (by decide), hnamed 7 (by decide), hnamed 8 (by decide), hnamed 9 (by decide),
      hnamed 10 (by decide), hnamed 11 (by decide), hnamed 12 (by decide), hnamed 13 (by decide), hnamed 14 (by decide),
      hnamed 15 (by decide), hnamed 16 (by decide), hnamed 17 (by decide), hnamed 18 (by decide), hnamed 19 (by decide),
      hnamed 20 (by decide), hnamed 21 (by decide), hnamed 22 (by decide), hnamed 23 (by decide)]
  · rw [hread _ (by omega) (by omega), regAt_coef hk]
    rfl
  · rw [hread o halign (by omega), regAt_reserved ho]
    rfl

/-! Writes to the configuration registers (R181). -/

theorem writeLocked_of_stopped {s : State} (h : s.status.running = false) (c : ConfigRegs) :
    writeLocked c s = { s with cfg := c } := if_neg (Bool.eq_false_iff.mp h)

/-- Settles O20: while not running a locked register takes the word's low bits. -/
theorem configWritesStoreTheDefinedBits : Obligations.ConfigWritesStoreTheDefinedBits := by
  intro s v hr
  have hlow : ∀ n, n ≤ 32 → v.extractLsb' 0 n = v.setWidth n := fun n hn => (BitVec.setWidth_eq_extractLsb' hn).symm
  have hwrite : ∀ c, Host.Outcome.next (ρ := Refusal) (φ := Fault) (writeLocked c s) = .next { s with cfg := c } :=
    fun c => congrArg _ (writeLocked_of_stopped hr c)
  rw [hlow 9 (by decide), hlow 16 (by decide)]
  exact ⟨hwrite _, hwrite _, hwrite _, hwrite _, hwrite _, hwrite _⟩

end Sys2Proof.Machine
end

section
/-! SUPPORT. The buffers (20_memory.md R85 to R93; 40_host_commands.md R168, R185, R186): a little-endian value byte by byte,
the accesses inside a buffer, the outputs stored at completion, and what a written block does not depend on. -/

namespace Sys2Proof.Machine

/-! A value put together of bytes (R85). -/

theorem getLsbD_assembleLE (f : Nat → Byte) (n i : Nat) (hi : i < 32) :
    (assembleLE f n).getLsbD i = (decide (i < 8 * n) && (f (i / 8)).getLsbD (i % 8)) := by
  induction n with
  | zero => simp [assembleLE]
  | succ n ih =>
    simp only [assembleLE, BitVec.getLsbD_or, BitVec.getLsbD_shiftLeft, BitVec.getLsbD_setWidth, ih, hi, decide_true,
      Bool.true_and]
    by_cases hlow : i < 8 * n
    · simp [hlow, show i < 8 * (n + 1) by omega]
    · by_cases hbyte : i < 8 * (n + 1)
      · have hdiv : i / 8 = n := by omega
        have hmod : i - 8 * n = i % 8 := by omega
        simp [hlow, hbyte, hdiv, hmod, show i % 8 < 32 by omega]
      · simp [hlow, hbyte, BitVec.getLsbD_of_ge (f n) (i - 8 * n) (by omega)]

theorem byteOf_assembleLE (f : Nat → Byte) {n k : Nat} (hn : n ≤ 4) (hk : k < n) : byteOf (assembleLE f n) k = f k := by
  apply BitVec.eq_of_getLsbD_eq
  intro i hi
  have hdiv : (8 * k + i) / 8 = k := by omega
  have hmod : (8 * k + i) % 8 = i := by omega
  rw [byteOf, BitVec.getLsbD_extractLsb', getLsbD_assembleLE f n _ (by omega), hdiv, hmod]
  simp [hi, show 8 * k + i < 8 * n by omega]

theorem toNat_assembleLE_lt (f : Nat → Byte) (n : Nat) : (assembleLE f n).toNat < 2 ^ (8 * n) := by
  induction n with
  | zero => simp [assembleLE]
  | succ n ih =>
    have hhigh : ((f n).setWidth 32 <<< (8 * n)).toNat < 2 ^ (8 * (n + 1)) := by
      have hbyte : ((f n).setWidth 32).toNat < 2 ^ 8 := by
        rw [BitVec.toNat_setWidth]
        exact (Nat.mod_le _ _).trans_lt (f n).isLt
      rw [BitVec.toNat_shiftLeft, Nat.shiftLeft_eq]
      calc ((f n).setWidth 32).toNat * 2 ^ (8 * n) % 2 ^ 32 ≤ ((f n).setWidth 32).toNat * 2 ^ (8 * n) := Nat.mod_le _ _
        _ < 2 ^ 8 * 2 ^ (8 * n) := Nat.mul_lt_mul_of_pos_right hbyte (by positivity)
        _ = 2 ^ (8 * (n + 1)) := by rw [← pow_add]; congr 1; ring
    rw [assembleLE, BitVec.toNat_or]
    exact Nat.or_lt_two_pow (ih.trans (Nat.pow_lt_pow_right (by decide) (by omega))) hhigh

theorem size_bytes_le (size : Size) : size.bytes ≤ 4 := by cases size <;> decide

/-! Accesses inside a buffer (R185, R186). -/

section
variable {s : State} {addr : Word} {size : Size}

theorem inbufAccessOk_of_inside (halign : addr.toNat % size.bytes = 0) (hbase : Config.inbufBase ≤ addr.toNat)
    (hend : addr.toNat + size.bytes ≤ Config.inbufBase + s.params.inBufBytes) : inbufAccessOk s addr size = true := by
  simp [inbufAccessOk, aligned, halign, hbase, hend]

theorem outbufAccessOk_of_inside (halign : addr.toNat % size.bytes = 0) (hbase : Config.outbufBase ≤ addr.toNat)
    (hend : addr.toNat + size.bytes ≤ Config.outbufBase + 2 * s.params.inBufBytes) :
    outbufAccessOk s addr size = true := by simp [outbufAccessOk, aligned, halign, hbase, hend]

theorem exec_inbuf_read (h : inbufAccessOk s addr size = true) :
    exec (.inbufAccess addr size .read) s = .next (answer (readLE s addr.toNat size.bytes) s) := by
  simp only [exec, execInbufAccess, if_pos h]

theorem exec_inbuf_write (h : inbufAccessOk s addr size = true) (hb : s.busy = false) (data : Word) :
    exec (.inbufAccess addr size (.write data)) s =
      .next { s with mem := s.mem.storeLE addr.toNat size.bytes data } := by
  simp [exec, execInbufAccess, h, hb]

theorem exec_inbuf_write_busy (h : inbufAccessOk s addr size = true) (hb : s.busy = true) (data : Word) :
    exec (.inbufAccess addr size (.write data)) s = .next (raise .busy s) := by
  simp only [exec, execInbufAccess, if_pos h, if_pos hb]

theorem exec_outbuf_read (h : outbufAccessOk s addr size = true) (hb : s.busy = false) :
    exec (.outbufRead addr size .read) s = .next (answer (readLE s addr.toNat size.bytes) s) := by
  simp [exec, execOutbufRead, h, hb]

theorem exec_outbuf_read_busy (h : outbufAccessOk s addr size = true) (hb : s.busy = true) :
    exec (.outbufRead addr size .read) s =
      .next { answer (drawnLE s.draws size.bytes) s with draws := s.draws + size.bytes } := by
  simp only [exec, execOutbufRead, if_pos h, if_pos hb]

end

/-- Settles O22: the store is read back byte by byte and leaves every other address alone. -/
theorem inbufWritesStoreLittleEndian : Obligations.InbufWritesStoreLittleEndian := by
  intro s addr size data halign hbase hend
  have hok := inbufAccessOk_of_inside halign hbase hend
  refine ⟨fun hb => ⟨_, exec_inbuf_write hok hb data, rfl, fun k hk => ?_, fun b hb => ?_⟩,
    fun hb => exec_inbuf_write_busy hok hb data⟩
  · rw [readByte, Memory.read_storeLE_same _ _ _ hk]
    rfl
  · rw [readByte, Memory.read_storeLE_other _ _ _ hb]
    rfl

/-- Settles O23: either buffer's read answers `readLE`, which is put together of the bytes. -/
theorem bufferReadsAreLittleEndian : Obligations.BufferReadsAreLittleEndian := by
  intro s addr size halign
  have hvalue : (readLE s addr.toNat size.bytes).toNat < 2 ^ (8 * size.bytes) ∧ ∀ k, k < size.bytes →
      (readLE s addr.toNat size.bytes).extractLsb' (8 * k) 8 = readByte s (addr.toNat + k) :=
    ⟨toNat_assembleLE_lt _ _, fun k hk => byteOf_assembleLE _ (size_bytes_le size) hk⟩
  exact ⟨fun hbase hend => ⟨_, exec_inbuf_read (inbufAccessOk_of_inside halign hbase hend), hvalue⟩,
    fun hb hbase hend => ⟨_, exec_outbuf_read (outbufAccessOk_of_inside halign hbase hend) hb, hvalue⟩⟩

/-- Settles O24: the answer is put together of one draw a byte. -/
theorem busyOutbufReadsAreDraws : Obligations.BusyOutbufReadsAreDraws := by
  intro s addr size hb halign hbase hend
  exact ⟨_, exec_outbuf_read_busy (outbufAccessOk_of_inside halign hbase hend) hb, toNat_assembleLE_lt _ _,
    fun k hk => byteOf_assembleLE _ (size_bytes_le size) hk⟩

/-! The outputs stored at completion (R87, R168). -/

theorem toNat_encodeOutput (v : Int) : ((encodeOutput v).setWidth 32).toNat = (v % 2 ^ 16).toNat := by
  rw [encodeOutput, BitVec.toNat_setWidth, BitVec.toNat_ofInt]
  omega

theorem toNat_byteOf (w : Word) (k : Nat) : (byteOf w k).toNat = w.toNat / 2 ^ (8 * k) % 2 ^ 8 := by
  rw [byteOf, BitVec.extractLsb'_toNat, Nat.shiftRight_eq_div_pow]

/-- Output `k` stands in its own two bytes, whatever is stored after it. -/
theorem read_storeOutputs_same (m : Memory) (a : Nat) {y : List Int} {k i : Nat} {v : Int} (hk : y[k]? = some v)
    (hi : i < 2) :
    (storeOutputs m a y).read? (a + 2 * k + i) = some (byteOf ((encodeOutput v).setWidth 32) i) := by
  induction y generalizing m a k with
  | nil => cases hk
  | cons x y ih =>
    cases k with
    | zero =>
      cases hk
      rw [storeOutputs, read_storeOutputs_other _ _ (by omega), Nat.mul_zero, Nat.add_zero,
        Memory.read_storeLE_same _ _ _ hi]
    | succ k =>
      rw [List.getElem?_cons_succ] at hk
      have haddr : a + 2 * (k + 1) + i = a + 2 + 2 * k + i := by ring
      rw [storeOutputs, haddr, ih _ _ hk]

/-- Settles O47: the two bytes of an output are its pattern's, and the stores end with the outputs. -/
theorem completionStoresTheOutputs : Obligations.CompletionStoresTheOutputs := by
  intro t
  refine ⟨fun k v hk => ?_, fun a ha => ?_⟩
  · have hbyte : ∀ i < 2, readByte (completeBlock t) (0x02000000 + 2 * k + i) =
        byteOf ((encodeOutput v).setWidth 32) i := fun i hi => by
      rw [readByte, completeBlock_mem, ← Config.outbufBase, read_storeOutputs_same _ _ hk hi]
      rfl
    rw [hbyte 1 (by decide), ← Nat.add_zero (0x02000000 + 2 * k), hbyte 0 (by decide), toNat_byteOf, toNat_byteOf,
      toNat_encodeOutput]
    omega
  · rw [readByte, completeBlock_mem, read_storeOutputs_other (a := Config.outbufBase) _ _ ha]
    rfl

/-! What a written block does not depend on (R393, R396). -/

/-- The datapath operations do not look at the reset number. -/
theorem datapath_epoch {i : Instr} (hi : isDatapath i) {s t : State} (h : exec i s = .next t) (e : Nat) :
    exec i { s with epoch := e } = .next { t with epoch := e } := by
  simp only [isDatapath, datapathOps, List.mem_cons, List.not_mem_nil, or_false] at hi
  rcases hi with rfl | rfl | rfl | rfl | rfl | rfl | rfl | rfl | rfl | rfl | rfl | rfl
  case inr.inr.inr.inr.inr.inr.inr.inr.inr.inl =>
    simp only [exec, execSquelch, measured] at h ⊢
    split_ifs at h ⊢ <;> cases h <;> rfl
  case inr.inr.inr.inr.inr.inr.inr.inr.inr.inr.inr =>
    simp only [exec, execDcblock] at h ⊢
    split_ifs at h ⊢ <;> cases h <;> rfl
  all_goals cases h; rfl

theorem runStages_epoch {l : List Instr} (hl : ∀ i ∈ l, isDatapath i) {s t : State} (h : runStages l s = .next t) (e : Nat) :
    runStages l { s with epoch := e } = .next { t with epoch := e } := by
  induction l generalizing s with
  | nil => cases h; rfl
  | cons i l ih =>
    obtain ⟨u, hu, -⟩ := datapath_frame (hl i List.mem_cons_self) s
    simp only [runStages, hu] at h
    simp only [runStages, datapath_epoch (hl i List.mem_cons_self) hu e]
    exact ih (fun j hj => hl j (List.mem_cons_of_mem _ hj)) h

/-- The samples of written bytes are read from memory alone. -/
theorem inputSamples_epoch (s : State) (e : Nat) {k n : Nat}
    (h : ∀ a, a < 2 * (k + n) → (s.mem.read? (Config.inbufBase + a)).isSome = true) :
    inputSamples { s with epoch := e } k n = inputSamples s k n := by
  have hbyte : ∀ a, a < 2 * (k + n) →
      readByte { s with epoch := e } (Config.inbufBase + a) = readByte s (Config.inbufBase + a) := fun a ha => by
    obtain ⟨b, hb⟩ := Option.isSome_iff_exists.mp (h a ha)
    rw [readByte, readByte, hb]
    rfl
  induction n generalizing k with
  | zero => rfl
  | succ n ih =>
    have hrest : k + 1 + n = k + (n + 1) := by omega
    rw [inputSamples, inputSamples, Nat.add_assoc, hbyte _ (by omega), hbyte _ (by omega),
      ih (fun a ha => h a (hrest ▸ ha)) (fun a ha => hbyte a (hrest ▸ ha))]

/-- Settles O60: the reset number is read with the block's samples only, and those come from written bytes. -/
theorem unspecifiedBytesDoNotReachAWrittenBlock : Obligations.UnspecifiedBytesDoNotReachAWrittenBlock := by
  intro s t j e hj hw hwritten hstep
  rw [step_due hj hw] at hstep
  rw [step_due (s := { s with epoch := e }) hj hw]
  by_cases hl : j.len = 0
  · rw [hl, processBlock_zero] at hstep ⊢
    cases hstep
    rfl
  · have hr : reservedSelection (ctrlWord s.cfg.ctrl) = false := Bool.eq_false_iff.mpr fun hr => by
      simp [processBlock, hl, hr] at hstep
    obtain ⟨u, hu, -, hblock⟩ := processBlock_nonempty hl hr
    obtain ⟨v, hv, -, hblock'⟩ := processBlock_nonempty (s := { s with epoch := e }) hl hr
    have hload : loadBlock j.len { s with epoch := e } = { loadBlock j.len s with epoch := e } := by
      simp only [loadBlock, inputSamples_epoch s e (k := 0) (n := j.len / 2) fun a ha => hwritten a (by omega)]
    have hvu : v = { u with epoch := e } := by
      rw [hload] at hv
      exact Host.Outcome.next.inj (hv.symm.trans (runStages_epoch (stages_datapath _) hu e))
    rw [hblock', hvu]
    cases hblock.symm.trans hstep
    rfl

end Sys2Proof.Machine
end

section
/-! SUPPORT. What the decimators put out (41_decimation.md R201 to R211): the loop over a list in two parts, and over whole
windows from a boundary. -/

namespace Sys2Proof.Machine

open Finset

variable {d : Nat} {weight : Nat → Int} {dump : Int → Int}

/-- R209. The loop over two parts is the loop over the second from where the first ends. -/
theorem accumulate_append (acc : Accum) (a b : List Sample) :
    accumulate d weight dump acc (a ++ b) =
      ((accumulate d weight dump acc a).1 ++ (accumulate d weight dump (accumulate d weight dump acc a).2 b).1,
        (accumulate d weight dump (accumulate d weight dump acc a).2 b).2) := by
  induction a generalizing acc with
  | nil => rfl
  | cons x a ih =>
    by_cases hlast : acc.p + 1 = d
    · rw [List.cons_append, accumulate_cons_last hlast, accumulate_cons_last hlast, ih]
      rfl
    · rw [List.cons_append, accumulate_cons_inner hlast, accumulate_cons_inner hlast, ih]

/-- Settles O29: both decimators are the loop, whose accumulators and phase are the state's. -/
theorem decimationIsContinuousAcrossBlocks : Obligations.DecimationIsContinuousAcrossBlocks := by
  intro s op a b hop
  have hbox := accumulate_append (d := s.cfg.d) (weight := fun _ => 1) (dump := fun v => v) (accumOf s) a b
  have hfir := accumulate_append (d := s.cfg.d) (weight := tapWeight s.dp.taps) (dump := firGain s.cfg.d s.dp.tapSum)
    (accumOf s) a b
  rcases hop with rfl | rfl
  · refine ⟨_, _, _, rfl, rfl, rfl, congrArg Prod.fst hbox, ?_⟩
    exact congrArg (fun acc : Accum => { s.dp with nowR := acc.r, nowJ := acc.j, prevIndex := acc.p })
      (congrArg Prod.snd hbox)
  · refine ⟨_, _, _, rfl, rfl, rfl, congrArg Prod.fst hfir, ?_⟩
    exact congrArg (fun acc : Accum => { s.dp with nowR := acc.r, nowJ := acc.j, prevIndex := acc.p })
      (congrArg Prod.snd hfir)

/-! Whole windows. -/

/-- One rail of the first `n` samples, the first at phase `p`, weighted and summed. -/
def weightedSum (weight : Nat → Int) (rail : Sample → Int) (xs : List Sample) (p n : Nat) : Int :=
  ∑ k ∈ range n, rail (xs.getD k { i := 0, q := 0 }) * weight (p + k)

theorem weightedSum_cons (rail : Sample → Int) (x : Sample) (xs : List Sample) (p n : Nat) :
    weightedSum weight rail (x :: xs) p (n + 1) = rail x * weight p + weightedSum weight rail xs (p + 1) n := by
  rw [weightedSum, sum_range_succ', weightedSum, add_comm]
  simp only [List.getD_cons_zero, List.getD_cons_succ, Nat.add_zero, Nat.add_right_comm p, Nat.add_assoc]

/-- The samples that fill the window from phase `p` on give one output; the rest is the loop from a boundary. -/
theorem accumulate_window (acc : Accum) {n : Nat} (hn : acc.p + (n + 1) = d) {xs : List Sample} (hxs : n + 1 ≤ xs.length) :
    (accumulate d weight dump acc xs).1 =
      { i := dump (acc.r + weightedSum weight Sample.i xs acc.p (n + 1)),
        q := dump (acc.j + weightedSum weight Sample.q xs acc.p (n + 1)) } ::
        (accumulate d weight dump { r := 0, j := 0, p := 0 } (xs.drop (n + 1))).1 := by
  induction n generalizing acc xs with
  | zero =>
    obtain ⟨x, xs, rfl⟩ := List.exists_cons_of_length_pos hxs
    rw [accumulate_cons_last hn, weightedSum_cons, weightedSum_cons]
    simp [weightedSum]
  | succ n ih =>
    obtain ⟨x, xs, rfl⟩ := List.exists_cons_of_length_pos (Nat.zero_lt_of_lt hxs)
    have hrest : n + 1 ≤ xs.length := by simpa using hxs
    rw [accumulate_cons_inner (by omega), ih _ (by simpa [Nat.add_assoc, Nat.add_comm 1] using hn) hrest,
      weightedSum_cons, weightedSum_cons, ← Int.add_assoc, ← Int.add_assoc]
    rfl

/-- From a boundary, output `k` is the sum of window `k`. -/
theorem accumulate_getElem? (hd : 1 ≤ d) {xs : List Sample} {k : Nat} (hk : k < xs.length / d) :
    (accumulate d weight dump { r := 0, j := 0, p := 0 } xs).1[k]? =
      some
        { i := dump (weightedSum weight Sample.i (xs.drop (k * d)) 0 d),
          q := dump (weightedSum weight Sample.q (xs.drop (k * d)) 0 d) } := by
  obtain ⟨n, rfl⟩ : ∃ n, d = n + 1 := ⟨d - 1, by omega⟩
  have hlen : (k + 1) * (n + 1) ≤ xs.length := (Nat.le_div_iff_mul_le hd).mp hk
  induction k generalizing xs with
  | zero =>
    rw [accumulate_window _ (Nat.zero_add _) (by omega), List.getElem?_cons_zero]
    simp
  | succ k ih =>
    have hone : n + 1 ≤ xs.length := (Nat.le_mul_of_pos_left _ (by omega)).trans hlen
    have hrest : (k + 1) * (n + 1) ≤ (xs.drop (n + 1)).length := by
      rw [List.length_drop]
      have : (k + 1 + 1) * (n + 1) = (k + 1) * (n + 1) + (n + 1) := Nat.succ_mul _ _
      omega
    rw [accumulate_window _ (Nat.zero_add _) hone, List.getElem?_cons_succ,
      ih ((Nat.le_div_iff_mul_le hd).mpr hrest) hrest, List.drop_drop, Nat.succ_mul k, Nat.add_comm (n + 1)]

theorem putDecimated_z (out : List Sample × Accum) (s : State) : (putDecimated out s).work.z = out.1 := rfl

theorem accumOf_boundary {s : State} (hp : s.dp.prevIndex = 0) (hr : s.dp.nowR = 0) (hj : s.dp.nowJ = 0) :
    accumOf s = { r := 0, j := 0, p := 0 } := by rw [accumOf, hp, hr, hj]

theorem getD_drop (xs : List Sample) (n k : Nat) (x : Sample) : (xs.drop n).getD k x = xs.getD (n + k) x := by
  rw [List.getD_eq_getElem?_getD, List.getElem?_drop, ← List.getD_eq_getElem?_getD]

/-- Settles O27: every weight is 1 and the sum is put out as it is. -/
theorem boxcarOutputsAreWindowSums : Obligations.BoxcarOutputsAreWindowSums := by
  intro s hd hp hr hj
  refine ⟨_, rfl, fun k hk => ?_⟩
  rw [putDecimated_z, boxcar, accumOf_boundary hp hr hj, accumulate_getElem? (d := s.cfg.d) hd hk]
  simp only [weightedSum, getD_drop, mul_one]
  rfl

/-- Settles O28: the weights are the taps and the sum is put out with the gain normalised. -/
theorem firOutputsAreNormalisedWeightedSums : Obligations.FirOutputsAreNormalisedWeightedSums := by
  intro s hd hp hr hj
  refine ⟨_, rfl, fun k hk => ?_⟩
  rw [putDecimated_z, fir, accumOf_boundary hp hr hj, accumulate_getElem? (d := s.cfg.d) hd hk]
  simp only [weightedSum, getD_drop, Nat.zero_add, mul_comm _ (tapWeight _ _)]
  rfl

end Sys2Proof.Machine
end

section
/-! SUPPORT. The demodulators' outputs (42_demodulators.md R248 to R256), with the integer square root of 00_scope.md R12. -/

namespace Sys2Proof.Machine

/-! FM. -/

theorem discriminate_eq_zipWith (atan : Int → Int → Int) (p : Sample) (z : List Sample) :
    discriminate atan p z = List.zipWith (fun p z => atan (productIm p z) (productRe p z)) (p :: z) z := by
  induction z generalizing p with
  | nil => rfl
  | cons x z ih => rw [discriminate, ih, List.zipWith_cons_cons]

/-- Settles O36: the three operations are `demodFm` of their arctangents, whose outputs pair each sample with the one before. -/
theorem fmOutputsAreProductAngles : Obligations.FmOutputsAreProductAngles := by
  intro s op atan hop
  have hexec : exec op s = .next (demodFm atan s) := by
    simp only [List.mem_cons, Prod.mk.injEq, List.not_mem_nil, or_false] at hop
    rcases hop with ⟨rfl, rfl⟩ | ⟨rfl, rfl⟩ | ⟨rfl, rfl⟩ <;> rfl
  rw [hexec, demodFm, discriminate_eq_zipWith]
  rfl

/-! AM. -/

/-- R12. Each bit tried halves what the root can be short of. -/
theorem isqrtFrom_spec {v k r : Nat} (hlow : r * r ≤ v) (hhigh : v < (r + 2 ^ k) * (r + 2 ^ k)) :
    isqrtFrom v k r * isqrtFrom v k r ≤ v ∧ v < (isqrtFrom v k r + 1) * (isqrtFrom v k r + 1) := by
  induction k generalizing r with
  | zero => exact ⟨hlow, hhigh⟩
  | succ k ih =>
    rw [isqrtFrom]
    split
    · next hfits =>
      refine ih hfits ?_
      rwa [Nat.add_assoc, ← Nat.two_mul, ← Nat.pow_succ']
    · next hfits => exact ih hlow (Nat.lt_of_not_le hfits)

theorem isqrt_spec (v : Nat) : isqrt v * isqrt v ≤ v ∧ v < (isqrt v + 1) * (isqrt v + 1) := by
  refine isqrtFrom_spec (Nat.zero_le _) ?_
  calc v < 2 ^ (Nat.log2 v + 1) := Nat.lt_log2_self
    _ ≤ 2 ^ (Nat.log2 v / 2 + 1 + (Nat.log2 v / 2 + 1)) := Nat.pow_le_pow_right (by decide) (by omega)
    _ = (0 + 2 ^ (Nat.log2 v / 2 + 1)) * (0 + 2 ^ (Nat.log2 v / 2 + 1)) := by rw [Nat.zero_add, Nat.pow_add]

theorem sat16_of_nonneg {v : Int} (h : 0 ≤ v) : sat16 v = min 32767 v := by
  rw [sat16, max_eq_right (by omega)]

/-- Settles O37: the root is the greatest with its square within, and the product is not negative. -/
theorem amOutputsAreScaledMagnitudes : Obligations.AmOutputsAreScaledMagnitudes := by
  intro s
  refine ⟨s.work.z.map (amValue s.cfg.scale), rfl, List.length_map _, fun k z hz => ?_⟩
  have hpower : 0 ≤ z.i * z.i + z.q * z.q := Int.add_nonneg (mul_self_nonneg _) (mul_self_nonneg _)
  obtain ⟨v, hv⟩ := Int.eq_ofNat_of_zero_le hpower
  obtain ⟨hlow, hhigh⟩ := isqrt_spec v
  refine ⟨isqrt v, ?_, ?_, ?_⟩
  · rw [hv]
    exact_mod_cast hlow
  · rw [hv]
    exact_mod_cast hhigh
  · rw [List.getElem?_map, hz, Option.map_some, amValue, hv, Int.toNat_natCast, sat16_of_nonneg (by positivity)]
    rfl

/-! USB, LSB and RAW. -/

theorem rawValues_eq_flatMap (z : List Sample) : rawValues z = z.flatMap fun x => [sat16 x.i, sat16 x.q] := by
  induction z with
  | nil => rfl
  | cons x z ih => rw [rawValues, ih, List.flatMap_cons, List.cons_append, List.cons_append, List.nil_append]

/-- Settles O38: USB and LSB map their value over the samples; RAW lists the two rails of each. -/
theorem ssbAndRawOutputs : Obligations.SsbAndRawOutputs := by
  intro s
  have hraw : exec .demodRaw s = .next { s with work := { s.work with y := rawValues s.work.z } } := rfl
  rw [hraw, rawValues_eq_flatMap]
  exact ⟨rfl, rfl, rfl⟩

end Sys2Proof.Machine
end

section
/-! SUPPORT. A constant signal under the squelch (43_squelch.md R298, R299). -/

namespace Sys2Proof.Machine

/-- R291. A constant rail deviates nowhere from its mean. -/
theorem mad_const {v : List Int} {c : Int} (h : ∀ x ∈ v, x = c) : mad v = 0 := by
  by_cases hv : v = []
  · rw [hv, mad_nil]
  · have hlen : (v.length : Int) ≠ 0 := by simpa using hv
    have hmean : railMean v = c := by
      rw [railMean, tdiv, List.sum_eq_card_nsmul v c h, nsmul_eq_mul, Int.mul_tdiv_cancel_left _ hlen]
    have hsum : (v.map fun x => (x - railMean v).natAbs).sum = 0 := List.sum_eq_zero fun d hd => by
      obtain ⟨x, hx, rfl⟩ := List.mem_map.mp hd
      rw [hmean, h x hx, Int.sub_self, Int.natAbs_zero]
    rw [mad_of_ne_nil hv, hsum, Nat.zero_div]

/-- R299. A constant signal is inactive at a level of at least 1. -/
theorem not_measuredActive_of_const {s : State} {x : Sample} (hlevel : 1 ≤ s.cfg.sqLevel.toNat)
    (h : ∀ w ∈ measured s, w = x) : ¬measuredActive s := by
  have hrail : ∀ rail : Sample → Int, mad ((measured s).map rail) = 0 := fun rail => mad_const (c := rail x) fun v hv => by
    obtain ⟨w, hw, rfl⟩ := List.mem_map.mp hv
    rw [h w hw]
  have hne : s.cfg.level ≠ 0 := Nat.ne_of_gt hlevel
  simp [measuredActive_iff, madRails, hrail, hne]

/-- The state after SQUELCH, of a single-channel block that is not active: R293's two cases of it. -/
def quietState (s : State) : State :=
  putSquelch (nextHits s.dp.hits s.cfg.thresh.natAbs)
    (if s.cfg.thresh.natAbs < nextHits s.dp.hits s.cfg.thresh.natAbs then List.replicate s.work.y.length 0 else s.work.y)
    (if s.cfg.thresh.natAbs < nextHits s.dp.hits s.cfg.thresh.natAbs then flagsMuted (decide (s.cfg.thresh < 0))
      else flagsTolerated)
    (madRails (measured s)) s

theorem exec_squelch_quiet {s : State} (ha : ¬measuredActive s) (hm : s.cfg.ctrl.multichan = false) :
    exec .squelch s = .next (quietState s) := by
  unfold quietState
  split_ifs with hh
  · exact exec_squelch_muted ha hh hm
  · exact exec_squelch_tolerated ha (Nat.le_of_not_lt hh)

theorem quietState_hits (s : State) : (quietState s).dp.hits = nextHits s.dp.hits s.cfg.thresh.natAbs := rfl

theorem quietState_muted {s : State} (h : s.cfg.thresh.natAbs < (quietState s).dp.hits) :
    (quietState s).work.flags.muted = true ∧ ∀ v ∈ (quietState s).work.y, v = 0 := by
  simp only [quietState, putSquelch_work, if_pos (quietState_hits s ▸ h)]
  exact ⟨rfl, fun v hv => List.eq_of_mem_replicate hv⟩

/-- What SQUELCH on a quiet block leaves for the next one. -/
theorem iterate_quietState (s : State) (k : Nat) :
    (quietState^[k] s).cfg = s.cfg ∧ measured (quietState^[k] s) = measured s := by
  induction k with
  | zero => exact ⟨rfl, rfl⟩
  | succ k ih =>
    rw [Function.iterate_succ_apply']
    exact ih

theorem iterate_quietState_hits (s : State) (k : Nat) :
    (quietState^[k + 1] s).dp.hits = min (s.dp.hits + k + 1) (s.cfg.thresh.natAbs + 1) := by
  induction k with
  | zero => rfl
  | succ k ih =>
    rw [Function.iterate_succ_apply', quietState_hits, ih, (iterate_quietState s _).1, nextHits]
    omega

/-- Settles O41: every evaluation is of a quiet block, so the counter goes up by one until it saturates. -/
theorem constantInputIsMutedAfterTheThreshold : Obligations.ConstantInputIsMutedAfterTheThreshold := by
  intro s x hlevel hmulti hconst
  refine ⟨fun k => quietState^[k] s, rfl, fun k => ?_, fun k => ⟨iterate_quietState_hits s k, fun hpast => ?_⟩⟩
  · obtain ⟨hcfg, hmeasured⟩ := iterate_quietState s k
    have hactive : ¬measuredActive (quietState^[k] s) :=
      not_measuredActive_of_const (x := x) (hcfg ▸ hlevel) (hmeasured ▸ hconst)
    exact (exec_squelch_quiet hactive (hcfg ▸ hmulti)).trans (by rw [← Function.iterate_succ_apply' quietState k s])
  · have hhits := iterate_quietState_hits s k
    have hpast' : s.cfg.thresh.natAbs < s.dp.hits + k + 1 := hpast
    rw [Function.iterate_succ_apply'] at hhits
    have hmuted : s.cfg.thresh.natAbs < (quietState (quietState^[k] s)).dp.hits := by
      rw [hhits]
      omega
    rw [← (iterate_quietState s k).1] at hmuted
    have hafter := quietState_muted hmuted
    rwa [← Function.iterate_succ_apply' quietState k s] at hafter

end Sys2Proof.Machine
end

section
/-! SUPPORT. De-emphasis (44_postprocess.md R321 to R324). -/

namespace Sys2Proof.Machine

/-- The filtered values are the averages after the first. -/
theorem deemphValues_eq_scanl (a : Nat) (avg : Int) (y : List Int) :
    deemphValues a avg y = (List.scanl (deemphStep a) avg y).tail := by
  induction y generalizing avg with
  | nil => rfl
  | cons v y ih =>
    rw [deemphValues, ih, List.scanl_cons, List.tail_cons]
    cases y <;> simp

/-- Settles O42: the statement's move is `deemphStep`. -/
theorem deemphFollowsItsRecurrence : Obligations.DeemphFollowsItsRecurrence := by
  intro s a move
  have hexec : exec .deemph s =
      .next
        { s with
          dp := { s.dp with deemphAvg := deemphAfter a s.dp.deemphAvg s.work.y },
          work := { s.work with y := deemphValues a s.dp.deemphAvg s.work.y } } := rfl
  rw [hexec, deemphValues_eq_scanl]
  rfl

/-! Rounding (R12). -/

theorem rhaz_of_nonneg {n : Int} (a : Nat) (h : 0 ≤ n) : rhaz n a = ((n.natAbs + a / 2) / a : Nat) := by
  rcases h.eq_or_lt with rfl | hpos
  · have hzero : (0 + a / 2) / a = 0 := by
      rcases Nat.eq_zero_or_pos a with rfl | ha
      · rfl
      · exact Nat.div_eq_of_lt (by omega)
    rw [Int.natAbs_zero, hzero]
    simp [rhaz]
  · simp [rhaz, Int.sign_eq_one_of_pos hpos]

theorem rhaz_neg (n q : Int) : rhaz (-n) q = -rhaz n q := by simp [rhaz]

section
variable {a m : Nat}

theorem roundedDiv_le (ha : 1 ≤ a) : (m + a / 2) / a ≤ m := by
  have hm : m ≤ m * a := Nat.le_mul_of_pos_right m ha
  have hlt : (m + a / 2) / a < m + 1 := by
    rw [Nat.div_lt_iff_lt_mul ha, Nat.succ_mul]
    omega
  omega

theorem roundedDiv_eq_zero_iff (ha : 1 ≤ a) : (m + a / 2) / a = 0 ↔ 2 * m < a := by
  rw [Nat.div_eq_zero_iff]
  omega

end

/-- R322, for a value not below the average. -/
theorem deemphStep_of_le {a : Nat} {avg v : Int} (h : avg ≤ v) :
    deemphStep a avg v = avg + (((v - avg).natAbs + a / 2) / a : Nat) := by
  rw [deemphStep, rhaz_of_nonneg a (by omega)]

/-- R322, for a value not above the average. -/
theorem deemphStep_of_ge {a : Nat} {avg v : Int} (h : v ≤ avg) :
    deemphStep a avg v = avg - (((v - avg).natAbs + a / 2) / a : Nat) := by
  rw [deemphStep, ← Int.neg_sub avg v, rhaz_neg, rhaz_of_nonneg a (by omega), Int.natAbs_neg]
  rfl

theorem deemphStep_between {a : Nat} (ha : 1 ≤ a) (avg v : Int) :
    min avg v ≤ deemphStep a avg v ∧ deemphStep a avg v ≤ max avg v := by
  have hle := roundedDiv_le (m := (v - avg).natAbs) ha
  rcases Int.le_total avg v with h | h
  · rw [deemphStep_of_le h]
    generalize ((v - avg).natAbs + a / 2) / a = move at hle ⊢
    omega
  · rw [deemphStep_of_ge h]
    generalize ((v - avg).natAbs + a / 2) / a = move at hle ⊢
    omega

/-- Settles O43: the average moves by the distance over `a`, rounded, which is at most the distance and 0 in the dead band. -/
theorem deemphStepBounds : Obligations.DeemphStepBounds := by
  intro a avg v ha
  obtain ⟨hlow, hhigh⟩ := deemphStep_between ha avg v
  have hzero := roundedDiv_eq_zero_iff (m := (v - avg).natAbs) ha
  refine ⟨hlow, hhigh, ?_, ?_⟩
  · rw [← hzero]
    rcases Int.le_total avg v with h | h
    · rw [deemphStep_of_le h]
      omega
    · rw [deemphStep_of_ge h]
      omega
  · rcases Int.le_total avg v with h | h
    · rw [deemphStep_of_le h, Nat.div_one]
      omega
    · rw [deemphStep_of_ge h, Nat.div_one]
      omega

end Sys2Proof.Machine
end

section
/-! SUPPORT. Ranges of what the datapath computes, function by function: the accumulators and the decimated samples (41_decimation.md
R212), the outputs (30_encoding.md R129), the measured deviations (43_squelch.md R291), the averages (44_postprocess.md). -/

namespace Sys2Proof.Machine

/-! Quotients and means. -/

theorem tdiv_le_of_le_mul {n q m : Int} (hq : 0 < q) (h : n ≤ m * q) : tdiv n q ≤ m := by
  have hmono : tdiv n q ≤ Int.tdiv (m * q) q := Int.tdiv_le_tdiv hq h
  rwa [Int.mul_tdiv_cancel m hq.ne'] at hmono

theorem le_tdiv_of_mul_le {n q m : Int} (hq : 0 < q) (h : m * q ≤ n) : m ≤ tdiv n q := by
  have hmono : Int.tdiv (m * q) q ≤ tdiv n q := Int.tdiv_le_tdiv hq h
  rwa [Int.mul_tdiv_cancel m hq.ne'] at hmono

/-- The truncated mean of values in an interval lies in it. -/
theorem mean_range {v : List Int} {lo hi : Int} (hv : v ≠ []) (h : ∀ x ∈ v, lo ≤ x ∧ x ≤ hi) :
    lo ≤ tdiv v.sum v.length ∧ tdiv v.sum v.length ≤ hi := by
  have hlen : 0 < (v.length : Int) := by exact_mod_cast List.length_pos_iff.mpr hv
  have hlow : v.length • lo ≤ v.sum := List.card_nsmul_le_sum v lo fun x hx => (h x hx).1
  have hhigh : v.sum ≤ v.length • hi := List.sum_le_card_nsmul v hi fun x hx => (h x hx).2
  rw [nsmul_eq_mul, mul_comm] at hlow hhigh
  exact ⟨le_tdiv_of_mul_le hlen hlow, tdiv_le_of_le_mul hlen hhigh⟩

/-- R291. Values in an interval deviate from their mean by at most its length. -/
theorem mad_le {v : List Int} {lo hi : Int} (h : ∀ x ∈ v, lo ≤ x ∧ x ≤ hi) : mad v ≤ (hi - lo).toNat := by
  by_cases hv : v = []
  · simp [hv]
  · have hmean := mean_range hv h
    have hsum : (v.map fun x => (x - railMean v).natAbs).sum ≤ v.length * (hi - lo).toNat := by
      have hterm : ∀ d ∈ v.map fun x => (x - railMean v).natAbs, d ≤ (hi - lo).toNat := fun d hd => by
        obtain ⟨x, hx, rfl⟩ := List.mem_map.mp hd
        have hrange := h x hx
        rw [railMean]
        omega
      simpa using List.sum_le_card_nsmul _ _ hterm
    rw [mad_of_ne_nil hv]
    exact Nat.div_le_of_le_mul hsum

theorem inOutputRange_zero : inOutputRange 0 := ⟨by decide, by decide⟩

theorem inDecimatedRange_zero : inDecimatedRange 0 := ⟨by decide, by decide⟩

theorem sat16_range (v : Int) : inOutputRange (sat16 v) := by
  rw [sat16, inOutputRange]
  omega

theorem dcBlend_range {avg : Int} {y : List Int} (hy : y ≠ []) (hrange : ∀ v ∈ y, inOutputRange v)
    (havg : inOutputRange avg) : inOutputRange (dcBlend avg y) := by
  obtain ⟨hlow, hhigh⟩ := mean_range hy hrange
  obtain ⟨havgLow, havgHigh⟩ := havg
  exact ⟨le_tdiv_of_mul_le (by decide) (by omega), tdiv_le_of_le_mul (by decide) (by omega)⟩

/-! De-emphasis (R322). -/

theorem deemphStep_range {a : Nat} (ha : 1 ≤ a) {avg v : Int} (havg : inOutputRange avg) (hv : inOutputRange v) :
    inOutputRange (deemphStep a avg v) := by
  obtain ⟨hlow, hhigh⟩ := deemphStep_between ha avg v
  exact ⟨(le_min havg.1 hv.1).trans hlow, hhigh.trans (max_le havg.2 hv.2)⟩

theorem deemph_range {a : Nat} (ha : 1 ≤ a) {avg : Int} (havg : inOutputRange avg) {y : List Int}
    (hy : ∀ v ∈ y, inOutputRange v) :
    inOutputRange (deemphAfter a avg y) ∧ ∀ v ∈ deemphValues a avg y, inOutputRange v := by
  induction y generalizing avg with
  | nil => exact ⟨havg, List.forall_mem_nil _⟩
  | cons x y ih =>
    obtain ⟨hx, hy⟩ := List.forall_mem_cons.mp hy
    have hstep := deemphStep_range ha havg hx
    obtain ⟨hafter, hvalues⟩ := ih hstep hy
    exact ⟨hafter, List.forall_mem_cons.mpr ⟨hstep, hvalues⟩⟩

@[simp] theorem deemphValues_length (a : Nat) (avg : Int) (y : List Int) : (deemphValues a avg y).length = y.length := by
  induction y generalizing avg with
  | nil => rfl
  | cons x y ih => rw [deemphValues, List.length_cons, ih, List.length_cons]

/-! The demodulators. -/

@[simp] theorem discriminate_length (atan : Int → Int → Int) (p : Sample) (z : List Sample) :
    (discriminate atan p z).length = z.length := by
  rw [discriminate_eq_zipWith, List.length_zipWith, List.length_cons]
  omega

theorem mem_discriminate {atan : Int → Int → Int} {p : Sample} {z : List Sample} {v : Int}
    (h : v ∈ discriminate atan p z) : ∃ y x, v = atan y x := by
  induction z generalizing p with
  | nil => cases h
  | cons x z ih =>
    rcases List.mem_cons.mp h with rfl | h
    · exact ⟨_, _, rfl⟩
    · exact ih h

theorem mem_rawValues {z : List Sample} {v : Int} (h : v ∈ rawValues z) : inOutputRange v := by
  rw [rawValues_eq_flatMap, List.mem_flatMap] at h
  obtain ⟨x, -, hv⟩ := h
  rcases List.mem_pair.mp hv with rfl | rfl <;> exact sat16_range _

theorem rawValues_length (z : List Sample) : (rawValues z).length = 2 * z.length := by
  induction z with
  | nil => rfl
  | cons x z ih => simp only [rawValues, List.length_cons, ih]; ring

/-- A sample with both components in the range of R212. -/
def decimatedSample (z : Sample) : Prop := inDecimatedRange z.i ∧ inDecimatedRange z.q

theorem historyAfter_range {p : Sample} {z : List Sample} (hp : decimatedSample p) (hz : ∀ x ∈ z, decimatedSample x) :
    decimatedSample (historyAfter p z) := by
  rcases List.eq_nil_or_concat z with rfl | ⟨z, x, rfl⟩
  · exact hp
  · rw [historyAfter, List.concat_eq_append, List.getLastD_concat]
    exact hz x (by simp)

/-! The samples loaded. -/

/-- A sample with both components in the range of R128. -/
def loadedSample (x : Sample) : Prop := inSampleRange x.i ∧ inSampleRange x.q

theorem inputSamples_range (s : State) (k n : Nat) : ∀ x ∈ inputSamples s k n, loadedSample x := by
  induction n generalizing k with
  | zero => exact List.forall_mem_nil _
  | succ n ih =>
    exact List.forall_mem_cons.mpr ⟨⟨recentred_inSampleRange _, recentred_inSampleRange _⟩, ih (k + 1)⟩

@[simp] theorem inputSamples_length (s : State) (k n : Nat) : (inputSamples s k n).length = n := by
  induction n generalizing k with
  | zero => rfl
  | succ n ih => rw [inputSamples, List.length_cons, ih]

theorem decimatedSample_of_loaded {x : Sample} (h : loadedSample x) : decimatedSample x := by
  obtain ⟨⟨hi1, hi2⟩, hq1, hq2⟩ := h
  exact ⟨⟨by omega, by omega⟩, by omega, by omega⟩

theorem madRails_le {l : List Sample} (h : ∀ x ∈ l, decimatedSample x) :
    (madRails l).1 ≤ 65280 ∧ (madRails l).2 ≤ 65280 := by
  have hrail : ∀ rail : Sample → Int, (∀ x ∈ l, inDecimatedRange (rail x)) → mad (l.map rail) ≤ 65280 :=
    fun rail hr => mad_le (lo := -32512) (hi := 32768) fun v hv => by
      obtain ⟨x, hx, rfl⟩ := List.mem_map.mp hv
      exact hr x hx
  exact ⟨hrail Sample.i fun x hx => (h x hx).1, hrail Sample.q fun x hx => (h x hx).2⟩

/-! The taps (R205, R161). -/

theorem tapTotal_append (a b : List Byte) : tapTotal (a ++ b) = tapTotal a + tapTotal b := by
  rw [tapTotal, List.map_append, List.sum_append, tapTotal, tapTotal]

@[simp] theorem tapTotal_zeros (n : Nat) : tapTotal (List.replicate n 0#8) = 0 := by simp [tapTotal]

theorem tapTotal_le (taps : List Byte) : tapTotal taps ≤ 255 * taps.length := by
  have hterm : ∀ t ∈ taps.map BitVec.toNat, t ≤ 255 := fun t ht => by
    obtain ⟨b, -, rfl⟩ := List.mem_map.mp ht
    exact Nat.le_of_lt_succ b.isLt
  have hsum := List.sum_le_card_nsmul _ _ hterm
  rw [List.length_map, smul_eq_mul] at hsum
  rw [tapTotal]
  omega

/-- The taps after one more are the total with one more weight. -/
theorem tapTotal_take_succ (taps : List Byte) (p : Nat) :
    ((tapTotal (taps.take (p + 1)) : Nat) : Int) = (tapTotal (taps.take p) : Nat) + tapWeight taps p := by
  rw [List.take_add_one, tapTotal_append, tapWeight, List.getD_eq_getElem?_getD]
  cases taps[p]? <;> simp [tapTotal]

theorem latchedTaps_fir {p : Config.Params} {c : ConfigRegs} (hfir : c.ctrl.firEn = true) (hd : c.d ≤ 256) :
    latchedTaps p c = firTaps p.firTaps c.d ++ List.replicate (256 - c.d) 0#8 := by
  obtain ⟨n, hn⟩ := Nat.exists_eq_add_of_le hd
  have hwindow : ∀ i ∈ List.range c.d, (if i < c.d then firTap p.firTaps c.d i else 0#8) = firTap p.firTaps c.d i :=
    fun i hi => if_pos (List.mem_range.mp hi)
  rw [latchedTaps, if_pos hfir, hn, List.range_add, List.map_append, List.map_map, firTaps, List.map_congr_left hwindow,
    Nat.add_sub_cancel_left]
  congr 1
  exact List.eq_replicate_iff.mpr ⟨by simp, fun b hb => by
    obtain ⟨i, -, rfl⟩ := List.mem_map.mp hb
    exact if_neg (Nat.not_lt.mpr (Nat.le_add_right _ _))⟩

theorem latchedTaps_off {p : Config.Params} {c : ConfigRegs} (hfir : c.ctrl.firEn = false) :
    latchedTaps p c = List.replicate 256 0#8 := by rw [latchedTaps, hfir]; rfl

/-- R56, R163. The latched sum is the sum of the latched taps. -/
theorem latchedTapSum_eq_tapTotal {p : Config.Params} {c : ConfigRegs} (hd : c.d ≤ 256) :
    latchedTapSum p c = tapTotal (latchedTaps p c) := by
  cases hfir : c.ctrl.firEn
  · rw [latchedTaps_off hfir, latchedTapSum, hfir, tapTotal_zeros]
    rfl
  · rw [latchedTaps_fir hfir hd, tapTotal_append, tapTotal_zeros, latchedTapSum, if_pos hfir, Nat.add_zero]

/-- R161. The taps of a whole window sum to the latched sum. -/
theorem tapTotal_take_window {p : Config.Params} {c : ConfigRegs} (hfir : c.ctrl.firEn = true) (hd : c.d ≤ 256) :
    tapTotal ((latchedTaps p c).take c.d) = latchedTapSum p c := by
  have hlen : (firTaps p.firTaps c.d).length = c.d := by simp [firTaps]
  rw [latchedTaps_fir hfir hd, List.take_left' hlen, latchedTapSum, if_pos hfir]

/-! The decimators (R50, R212). -/

/-- Empty accumulators hold no weight. -/
theorem accumulatorRange_zero {w : Int} (hw : 0 ≤ w) : accumulatorRange w 0 := ⟨by omega, by omega⟩

theorem accumulatorRange_mono {w w' v : Int} (h : w ≤ w') (hv : accumulatorRange w v) : accumulatorRange w' v := by
  obtain ⟨hlow, hhigh⟩ := hv
  exact ⟨by omega, by omega⟩

theorem accumulatorRange_add {w k r x : Int} (hk : 0 ≤ k) (hx : inSampleRange x) (hr : accumulatorRange w r) :
    accumulatorRange (w + k) (r + x * k) := by
  have hlow := mul_le_mul_of_nonneg_right hx.1 hk
  have hhigh := mul_le_mul_of_nonneg_right hx.2 hk
  obtain ⟨hr1, hr2⟩ := hr
  exact ⟨by linarith, by linarith⟩

/-- The loop of both decimators: the accumulators stay within the weight `held p` that they hold at phase `p`, and each output
is put out from sums within that of a whole window. -/
theorem accumulate_range {d : Nat} {weight : Nat → Int} {dump : Int → Int} {held : Nat → Int} (hzero : held 0 = 0)
    (hsucc : ∀ p, held (p + 1) = held p + weight p) (hpos : ∀ p, 0 ≤ weight p)
    (hdump : ∀ v, accumulatorRange (held d) v → inDecimatedRange (dump v)) {acc : Accum} {xs : List Sample}
    (hxs : ∀ x ∈ xs, loadedSample x) (hr : accumulatorRange (held acc.p) acc.r) (hj : accumulatorRange (held acc.p) acc.j) :
    (∀ z ∈ (accumulate d weight dump acc xs).1, decimatedSample z) ∧
      accumulatorRange (held (accumulate d weight dump acc xs).2.p) (accumulate d weight dump acc xs).2.r ∧
      accumulatorRange (held (accumulate d weight dump acc xs).2.p) (accumulate d weight dump acc xs).2.j := by
  induction xs generalizing acc with
  | nil => exact ⟨List.forall_mem_nil _, hr, hj⟩
  | cons x xs ih =>
    obtain ⟨⟨hi, hq⟩, hxs⟩ := List.forall_mem_cons.mp hxs
    have hr' := accumulatorRange_add (hpos acc.p) hi hr
    have hj' := accumulatorRange_add (hpos acc.p) hq hj
    rw [← hsucc] at hr' hj'
    by_cases hlast : acc.p + 1 = d
    · rw [accumulate_cons_last hlast]
      rw [hlast] at hr' hj'
      have hempty : accumulatorRange (held 0) 0 := accumulatorRange_zero hzero.ge
      obtain ⟨hout, hacc⟩ := ih (acc := { r := 0, j := 0, p := 0 }) hxs hempty hempty
      exact ⟨List.forall_mem_cons.mpr ⟨⟨hdump _ hr', hdump _ hj'⟩, hout⟩, hacc⟩
    · rw [accumulate_cons_inner hlast]
      exact ih hxs hr' hj'

theorem accumulate_length_le {d : Nat} {weight : Nat → Int} {dump : Int → Int} {acc : Accum} (hp : acc.p < d)
    (xs : List Sample) : (accumulate d weight dump acc xs).1.length ≤ xs.length := by
  rw [accumulate_length hp]
  rcases Nat.eq_zero_or_pos xs.length with hzero | hpos
  · rw [hzero, Nat.add_zero, Nat.div_eq_of_lt hp]
  · refine Nat.div_le_of_le_mul ?_
    have : d - 1 ≤ (d - 1) * xs.length := Nat.le_mul_of_pos_right _ hpos
    have : d * xs.length = (d - 1) * xs.length + xs.length := by
      rw [← Nat.succ_mul]
      congr 1
      omega
    omega

/-- R201, R202. A boxcar window of at most 256 samples. -/
theorem boxcar_dump_range {d : Nat} (hd : d ≤ 256) {v : Int} (hv : accumulatorRange d v) : inDecimatedRange v := by
  obtain ⟨hlow, hhigh⟩ := hv
  exact ⟨by omega, by omega⟩

/-- R204. Normalising the gain leaves `d` times the range of a sample. -/
theorem firGain_range {d tapSum : Nat} (hd : d ≤ 256) (hsum : 0 < tapSum) {v : Int} (hv : accumulatorRange tapSum v) :
    inDecimatedRange (firGain d tapSum v) := by
  have hd0 : (0 : Int) ≤ d := Int.natCast_nonneg d
  have hq : (0 : Int) < tapSum := by exact_mod_cast hsum
  have hlow := mul_le_mul_of_nonneg_right hv.1 hd0
  have hhigh := mul_le_mul_of_nonneg_right hv.2 hd0
  have hgainLow : -127 * (d : Int) ≤ firGain d tapSum v := le_tdiv_of_mul_le hq (by linarith)
  have hgainHigh : firGain d tapSum v ≤ 128 * (d : Int) := tdiv_le_of_le_mul hq (by linarith)
  exact ⟨by omega, by omega⟩

end Sys2Proof.Machine
end

section
/-! SUPPORT. The datapath invariant (10_state.md section 3): what every stage of a block keeps, that the stages' outputs fit
16 bits, and that every step keeps the invariant. -/

namespace Sys2Proof.Machine

/-! What the stages keep, whichever they are and in whatever order: the lists in work and the datapath state in their ranges. -/

/-- The ranges inside a block, under a checked configuration with its taps latched. -/
structure StageInv (s : State) : Prop where
  checked : configOk s.params s.cfg = true
  atanParams : AtanParamsOk s.params
  tapsLatched : s.dp.taps = latchedTaps s.params s.cfg ∧ s.dp.tapSum = latchedTapSum s.params s.cfg
  phase : s.dp.prevIndex < s.cfg.d
  held : accumulatorRange (heldWeight s) s.dp.nowR ∧ accumulatorRange (heldWeight s) s.dp.nowJ
  history : decimatedSample (historyOf s)
  deemphAvg : inOutputRange s.dp.deemphAvg
  dcAvg : inOutputRange s.dp.dcAvg
  hits : s.dp.hits ≤ s.cfg.thresh.natAbs + 1
  loaded : ∀ x ∈ s.work.xs, loadedSample x
  decimated : ∀ z ∈ s.work.z, decimatedSample z
  decimatedLength : s.work.z.length ≤ s.work.xs.length
  outputs : ∀ v ∈ s.work.y, inOutputRange v
  outputsLength : s.work.y.length ≤ 2 * s.work.xs.length
  rails : ∀ m, s.work.mad = some m → m.1 ≤ 65280 ∧ m.2 ≤ 65280

theorem d_range_of_configOk {p : Config.Params} {c : ConfigRegs} (h : configOk p c = true) : 1 ≤ c.d ∧ c.d ≤ 256 :=
  ((configOkIsTheSevenChecks p c).mp h).1

/-- R162, check 6. -/
theorem divisor_pos_of_configOk {p : Config.Params} {c : ConfigRegs} (h : configOk p c = true)
    (hen : c.ctrl.deemphEn = true) : 1 ≤ c.divisor := by
  obtain ⟨-, -, -, -, -, hdeemph, -⟩ := (configOkIsTheSevenChecks p c).mp h
  by_contra hzero
  exact hdeemph ⟨hen, BitVec.eq_of_toNat_eq (Nat.lt_one_iff.mp (Nat.lt_of_not_le hzero))⟩

/-- R162, check 7. -/
theorem latchedTapSum_pos {p : Config.Params} {c : ConfigRegs} (h : configOk p c = true) (hfir : c.ctrl.firEn = true) :
    0 < latchedTapSum p c := by
  obtain ⟨-, -, -, -, -, -, htaps⟩ := (configOkIsTheSevenChecks p c).mp h
  rw [latchedTapSum_eq_sum, if_pos hfir]
  exact Nat.pos_of_ne_zero fun hzero => htaps ⟨hfir, hzero⟩

/-- R162, check 4: the threshold's magnitude plus one is a count below `2^31`. -/
theorem thresh_of_configOk {p : Config.Params} {c : ConfigRegs} (h : configOk p c = true) :
    c.thresh.natAbs + 1 ≤ 2 ^ 31 := by
  obtain ⟨-, -, -, hthresh, -⟩ := (configOkIsTheSevenChecks p c).mp h
  have hne : c.sqThresh.toInt ≠ (0x80000000#32).toInt := mt BitVec.eq_of_toInt_eq hthresh
  have hlow := BitVec.le_toInt c.sqThresh
  have hhigh := BitVec.toInt_lt (x := c.sqThresh)
  simp only [BitVec.reduceToInt] at hne
  rw [ConfigRegs.thresh]
  omega

namespace StageInv

variable {s t : State}

/-- A decimator that is the loop of `accumulate`, with the weights held and outputs as `accumulate_range` asks. -/
theorem putDecimated (h : StageInv s) {weight : Nat → Int} {dump : Int → Int} {held : Nat → Int} (hzero : held 0 = 0)
    (hsucc : ∀ p, held (p + 1) = held p + weight p) (hpos : ∀ p, 0 ≤ weight p)
    (hdump : ∀ v, accumulatorRange (held s.cfg.d) v → inDecimatedRange (dump v))
    (hheld : ∀ acc : Accum, heldWeight { s with dp := { s.dp with prevIndex := acc.p } } = held acc.p) :
    StageInv (putDecimated (accumulate s.cfg.d weight dump (accumOf s) s.work.xs) s) := by
  have hphase : (accumOf s).p < s.cfg.d := h.phase
  have hstart : heldWeight s = held (accumOf s).p := hheld (accumOf s)
  obtain ⟨hheldR, hheldJ⟩ := h.held
  rw [hstart] at hheldR hheldJ
  obtain ⟨hout, hr, hj⟩ := accumulate_range hzero hsucc hpos hdump h.loaded hheldR hheldJ
  rw [← hheld] at hr hj
  exact { h with
    phase := by
      rw [putDecimated_dp, putDecimated_cfg, accumulate_phase hphase]
      exact Nat.mod_lt _ (d_range_of_configOk h.checked).1
    held := ⟨hr, hj⟩
    decimated := hout
    decimatedLength := accumulate_length_le hphase _ }

theorem boxcar (h : StageInv s) (hfir : s.cfg.ctrl.firEn = false) :
    StageInv (Machine.putDecimated (Machine.boxcar s.cfg.d (accumOf s) s.work.xs) s) :=
  h.putDecimated (held := fun p => p) rfl (fun p => by push_cast; rfl) (fun _ => by decide)
    (fun _ hv => boxcar_dump_range (d_range_of_configOk h.checked).2 hv) (fun acc => by simp [heldWeight, hfir])

theorem fir (h : StageInv s) (hfir : s.cfg.ctrl.firEn = true) :
    StageInv (Machine.putDecimated (Machine.fir s.cfg.d s.dp.taps s.dp.tapSum (accumOf s) s.work.xs) s) := by
  obtain ⟨htaps, hsum⟩ := h.tapsLatched
  have hd := (d_range_of_configOk h.checked).2
  refine h.putDecimated (held := fun p => (tapTotal (s.dp.taps.take p) : Nat)) rfl (tapTotal_take_succ s.dp.taps)
    (fun p => Int.natCast_nonneg _) (fun v hv => ?_) (fun acc => by simp [heldWeight, hfir])
  rw [htaps, tapTotal_take_window hfir hd, ← hsum] at hv
  exact firGain_range hd (hsum ▸ latchedTapSum_pos h.checked hfir) hv

theorem demodFm (h : StageInv s) {atan : Int → Int → Int} (hatan : ∀ y x, -16384 ≤ atan y x ∧ atan y x ≤ 16384) :
    StageInv (demodFm atan s) :=
  { h with
    history := historyAfter_range h.history h.decimated
    outputs := fun v hv => by
      obtain ⟨y, x, rfl⟩ := mem_discriminate hv
      have hrange := hatan y x
      exact ⟨by omega, by omega⟩
    outputsLength := by
      have hz := h.decimatedLength
      simp only [demodFm_work, discriminate_length]
      omega }

theorem demodEach (h : StageInv s) {f : Sample → Int} (hf : ∀ z, inOutputRange (f z)) : StageInv (demodEach f s) :=
  { h with
    outputs := fun v hv => by
      obtain ⟨z, -, rfl⟩ := List.mem_map.mp hv
      exact hf z
    outputsLength := by
      have hz := h.decimatedLength
      simp only [demodEach_work, List.length_map]
      omega }

theorem demodRaw (h : StageInv s) : StageInv { s with work := { s.work with y := rawValues s.work.z } } :=
  { h with
    outputs := fun _ hv => mem_rawValues hv
    outputsLength := by
      have hz := h.decimatedLength
      simp only [rawValues_length]
      omega }

/-- R293. The squelch keeps the values or replaces them by zeros. -/
theorem putSquelch (h : StageInv s) {hits : Nat} {y : List Int} {flags : BlockFlags}
    (hhits : hits ≤ s.cfg.thresh.natAbs + 1) (hlen : y.length = s.work.y.length) (hy : ∀ v ∈ y, v ∈ s.work.y ∨ v = 0) :
    StageInv (putSquelch hits y flags (madRails (measured s)) s) :=
  { h with
    hits := hhits
    outputs := fun v hv => by
      rcases hy v hv with hold | rfl
      · exact h.outputs v hold
      · exact inOutputRange_zero
    outputsLength := hlen.trans_le h.outputsLength
    rails := fun m hm => by
      cases hm
      refine madRails_le fun x hx => ?_
      rw [measured] at hx
      split at hx
      · exact h.decimated x hx
      · exact decimatedSample_of_loaded (h.loaded x hx) }

theorem squelch (h : StageInv s) (hexec : exec .squelch s = .next t) : StageInv t := by
  have hhits : nextHits s.dp.hits s.cfg.thresh.natAbs ≤ s.cfg.thresh.natAbs + 1 := Nat.min_le_right _ _
  simp only [exec, execSquelch] at hexec
  split_ifs at hexec <;> cases hexec
  · exact h.putSquelch (Nat.zero_le _) rfl fun v hv => .inl hv
  · exact h.putSquelch hhits rfl fun v hv => .inl hv
  · exact h.putSquelch hhits rfl fun v hv => .inl hv
  · refine h.putSquelch hhits (List.length_map _) fun v hv => ?_
    rw [muted_eq_replicate] at hv
    exact .inr (List.eq_of_mem_replicate hv)

theorem deemph (h : StageInv s) (hen : s.cfg.ctrl.deemphEn = true) (hexec : exec .deemph s = .next t) : StageInv t := by
  obtain ⟨hafter, hvalues⟩ := deemph_range (divisor_pos_of_configOk h.checked hen) h.deemphAvg h.outputs
  cases hexec
  exact { h with
    deemphAvg := hafter
    outputs := hvalues
    outputsLength := (deemphValues_length _ _ _).trans_le h.outputsLength }

theorem dcblock (h : StageInv s) (hexec : exec .dcblock s = .next t) : StageInv t := by
  by_cases hy : s.work.y = []
  · rw [exec_dcblock_empty hy] at hexec
    cases hexec
    exact h
  · rw [exec_dcblock_nonempty hy] at hexec
    cases hexec
    exact { h with
      dcAvg := dcBlend_range hy h.outputs h.dcAvg
      outputs := fun v hv => by
        obtain ⟨x, -, rfl⟩ := List.mem_map.mp hv
        exact sat16_range _
      outputsLength := (List.length_map _).trans_le h.outputsLength }

/-- Every operation that CTRL selects keeps the ranges. -/
theorem exec (h : StageInv s) {i : Instr} (hi : isDatapath i) (hsel : selects (ctrlWord s.cfg.ctrl) i = true)
    (hexec : exec i s = .next t) : StageInv t := by
  simp only [isDatapath, datapathOps, List.mem_cons, List.not_mem_nil, or_false] at hi
  rcases hi with rfl | rfl | rfl | rfl | rfl | rfl | rfl | rfl | rfl | rfl | rfl | rfl
  · cases hexec
    exact h.boxcar (by simpa [selects_decimator s.cfg.ctrl (i := .decimBoxcar) (fir := false) rfl] using hsel)
  · cases hexec
    exact h.fir (by simpa [selects_decimator s.cfg.ctrl (i := .decimFir) (fir := true) rfl] using hsel)
  · cases hexec
    exact h.demodFm h.atanParams.exactRange
  · cases hexec
    exact h.demodFm h.atanParams.fastRange
  · cases hexec
    exact h.demodFm h.atanParams.lutRange
  · cases hexec
    exact h.demodEach fun _ => sat16_range _
  · cases hexec
    exact h.demodEach fun _ => sat16_range _
  · cases hexec
    exact h.demodEach fun _ => sat16_range _
  · cases hexec
    exact h.demodRaw
  · exact h.squelch hexec
  · refine h.deemph ?_ hexec
    rw [selects_later s.cfg.ctrl (i := .deemph) (deemph := true) (dc := false) rfl, decide_eq_true_eq] at hsel
    exact hsel.2.1 rfl
  · exact h.dcblock hexec

theorem runStages {l : List Instr} (hl : ∀ i ∈ l, isDatapath i ∧ selects (ctrlWord s.cfg.ctrl) i = true)
    (h : StageInv s) (hrun : runStages l s = .next t) : StageInv t := by
  induction l generalizing s with
  | nil => cases hrun; exact h
  | cons i l ih =>
    obtain ⟨⟨hi, hsel⟩, hl⟩ := List.forall_mem_cons.mp hl
    obtain ⟨u, hu, hf⟩ := datapath_frame hi s
    simp only [Machine.runStages, hu] at hrun
    exact ih (hf.cfg ▸ hl) (h.exec hi hsel hu) hrun

end StageInv

theorem stages_selected {w : Word} {i : Instr} (h : i ∈ stages w) : isDatapath i ∧ selects w i = true :=
  List.mem_filter.mp h

/-! A block under the datapath invariant. -/

namespace DatapathInv

variable {s t u : State}

/-- R167. The loaded block is in the ranges, in a run. -/
theorem loadBlock (h : DatapathInv s) (hrun : s.status.running = true) (len : Nat) : StageInv (loadBlock len s) where
  checked := h.control.runChecked hrun
  atanParams := h.atanParams
  tapsLatched := h.tapsLatched hrun
  phase := h.phaseInWindow hrun
  held := h.nowHeld hrun
  history := h.history
  deemphAvg := h.averages.1
  dcAvg := h.averages.2
  hits := h.hitsInRun hrun
  loaded := inputSamples_range s 0 (len / 2)
  decimated := List.forall_mem_nil _
  decimatedLength := Nat.zero_le _
  outputs := List.forall_mem_nil _
  outputsLength := Nat.zero_le _
  rails := fun m hm => by cases hm

/-- What PROCESS_BLOCK completes is in the ranges. -/
theorem processBlock (h : DatapathInv s) (hrun : s.status.running = true) (len : Nat) :
    ∃ u, StageFrame (Machine.loadBlock len s) u ∧ StageInv u ∧ processBlock len s = .next (completeBlock u) := by
  by_cases hl : len = 0
  · exact ⟨Machine.loadBlock len s, .refl _, h.loadBlock hrun len, hl ▸ processBlock_zero s⟩
  · obtain ⟨u, hu, hf, hblock⟩ := processBlock_nonempty hl (reservedSelection_of_configOk (h.control.runChecked hrun))
    exact ⟨u, hf, (h.loadBlock hrun len).runStages (fun i hi => stages_selected hi) hu, hblock⟩

end DatapathInv

/-- Settles O48: the stages of a due block keep the ranges, of which one is the outputs'. -/
theorem storedOutputsFitSixteenBits : Obligations.StoredOutputsFitSixteenBits := by
  intro s j hinv hj hw hl
  have hrun := hinv.control.busyRuns (busy_eq_true.mpr ⟨j, hj⟩)
  obtain ⟨u, hu, -, hblock⟩ := processBlock_nonempty hl (reservedSelection_of_configOk (hinv.control.runChecked hrun))
  have hinv' := (hinv.loadBlock hrun j.len).runStages (fun i hi => stages_selected hi) hu
  exact ⟨u, hu, (step_due hj hw).trans hblock, hinv'.outputs⟩

/-! Every step keeps the invariant. -/

/-- R50. What phase up to 255 can hold. -/
theorem heldWeight_le {s : State} (h : s.dp.prevIndex ≤ 255) : heldWeight s ≤ 255 * 255 := by
  rw [heldWeight]
  split
  · have htotal := tapTotal_le (s.dp.taps.take s.dp.prevIndex)
    have hlen : (s.dp.taps.take s.dp.prevIndex).length ≤ s.dp.prevIndex := List.length_take_le _ _
    omega
  · omega

namespace DatapathInv

variable {s t u : State}

/-- A step that leaves datapath state, memory and report as they are, and the configuration in a run. -/
theorem mono (h : DatapathInv s) (hc : ControlInv t) (hp : t.params = s.params) (hd : t.dp = s.dp) (hm : t.mem = s.mem)
    (hr : t.report = s.report) (hrun : t.status.running = true → s.status.running = true ∧ t.cfg = s.cfg) :
    DatapathInv t where
  control := hc
  atanParams := hp ▸ h.atanParams
  memSorted := hm ▸ h.memSorted
  memInside := by rw [hm, hp]; exact h.memInside
  tapsLength := hd ▸ h.tapsLength
  tapSumTotal := hd ▸ h.tapSumTotal
  tapsLatched := fun ht => by rw [hd, hp, (hrun ht).2]; exact h.tapsLatched (hrun ht).1
  phaseBound := hd ▸ h.phaseBound
  phaseInWindow := fun ht => by rw [hd, (hrun ht).2]; exact h.phaseInWindow (hrun ht).1
  nowHeld := fun ht => by rw [heldWeight, hd, (hrun ht).2]; exact h.nowHeld (hrun ht).1
  nowBound := hd ▸ h.nowBound
  history := hd ▸ h.history
  averages := hd ▸ h.averages
  hitsBound := hd ▸ h.hitsBound
  hitsInRun := fun ht => by rw [hd, (hrun ht).2]; exact h.hitsInRun (hrun ht).1
  outLenBound := by rw [hr, hp]; exact h.outLenBound
  madBound := hr ▸ h.madBound

/-- R62, R161. A state whose datapath state and report are reset's, but for taps that a run has latched. -/
theorem of_fresh {taps : List Byte} {tapSum : Nat} (hc : ControlInv t) (hp : AtanParamsOk t.params) (hm : t.mem.wf)
    (hi : ∀ c ∈ t.mem, inBuffers t.params c.1) (hd : t.dp = { Datapath.reset with taps := taps, tapSum := tapSum })
    (hr : t.report = Report.reset) (hlen : taps.length = 256) (hsum : tapSum = tapTotal taps)
    (hrun : t.status.running = true → taps = latchedTaps t.params t.cfg ∧ tapSum = latchedTapSum t.params t.cfg) :
    DatapathInv t where
  control := hc
  atanParams := hp
  memSorted := hm
  memInside := hi
  tapsLength := by rw [hd]; exact hlen
  tapSumTotal := by rw [hd]; exact hsum
  tapsLatched := by rw [hd]; exact hrun
  phaseBound := by rw [hd]; exact Nat.zero_le _
  phaseInWindow := fun ht => by rw [hd]; exact (d_range_of_configOk (hc.runChecked ht)).1
  nowHeld := fun _ => by
    have hempty : heldWeight t = 0 := by rw [heldWeight, hd]; split <;> rfl
    rw [hempty, hd]
    exact ⟨accumulatorRange_zero le_rfl, accumulatorRange_zero le_rfl⟩
  nowBound := by rw [hd]; exact ⟨accumulatorRange_zero (by decide), accumulatorRange_zero (by decide)⟩
  history := by rw [hd]; exact ⟨inDecimatedRange_zero, inDecimatedRange_zero⟩
  averages := by rw [hd]; exact ⟨inOutputRange_zero, inOutputRange_zero⟩
  hitsBound := by rw [hd]; exact Nat.zero_le _
  hitsInRun := fun _ => by rw [hd]; exact Nat.zero_le _
  outLenBound := by rw [hr]; exact Nat.zero_le _
  madBound := by rw [hr]; exact ⟨Nat.zero_le _, Nat.zero_le _⟩

theorem taken (h : DatapathInv s) : DatapathInv (taken s) :=
  h.mono h.control.taken rfl rfl rfl rfl fun hrun => ⟨hrun, rfl⟩

theorem hostEffect (h : DatapathInv s) (he : HostEffect s t) : DatapathInv t := by
  have hc := h.control.hostEffect he
  cases he
  case error => exact h.mono hc rfl rfl rfl rfl fun hrun => ⟨(setErr_running _ _).symm.trans hrun, rfl⟩
  case readError => exact h.mono hc rfl rfl rfl rfl fun hrun => ⟨(setErr_running _ _).symm.trans hrun, rfl⟩
  case configured hr => exact h.mono hc rfl rfl rfl rfl fun hrun => absurd hrun (Bool.eq_false_iff.mp hr)
  case stopped => exact h.mono hc rfl rfl rfl rfl fun hrun => by cases hrun
  case stored hbase hend =>
    exact { h with
      control := hc
      memSorted := Memory.storeLE_wf h.memSorted _ _ _
      memInside := fun c hc => by
        rcases Memory.mem_storeLE hc with hold | ⟨hlow, hhigh⟩
        · exact h.memInside c hold
        · exact .inl ⟨hbase.trans hlow, hhigh.trans_le hend⟩ }
  case started hchecked =>
    exact of_fresh hc h.atanParams h.memSorted h.memInside rfl rfl (latchedTaps_length _ _)
      (latchedTapSum_eq_tapTotal (d_range_of_configOk hchecked).2) fun _ => ⟨rfl, rfl⟩
  case reset =>
    exact of_fresh hc h.atanParams List.Pairwise.nil (List.forall_mem_nil _) rfl rfl List.length_replicate
      (tapTotal_zeros 256).symm fun hrun => by cases hrun
  all_goals exact h.mono hc rfl rfl rfl rfl fun hrun => ⟨hrun, rfl⟩

/-- R168. The completion of a block in the ranges, of a length that was accepted. -/
theorem completeBlock {len : Nat} (h : DatapathInv s) (hlen : len ≤ s.params.inBufBytes)
    (hf : StageFrame (Machine.loadBlock len s) u) (hu : StageInv u) : DatapathInv (completeBlock u) := by
  have hparams : u.params = s.params := hf.params
  have hsize : u.params.inBufBytes ≤ 2 ^ 24 := hparams ▸ h.control.bufferSize.2.2
  have hout : u.work.y.length ≤ u.params.inBufBytes := by
    have hxs : u.work.xs.length = len / 2 := by rw [hf.xs, loadBlock_work, inputSamples_length]
    have := hu.outputsLength
    rw [hparams]
    omega
  have hphase : u.dp.prevIndex ≤ 255 := by
    have := (d_range_of_configOk hu.checked).2
    have := hu.phase
    omega
  have hheld := heldWeight_le hphase
  refine
    { control := h.control.completeBlock hf
      atanParams := hu.atanParams
      memSorted := storeOutputs_wf (hf.mem ▸ h.memSorted) _ _
      memInside := fun c hc => ?_
      tapsLength := hf.taps ▸ h.tapsLength
      tapSumTotal := by rw [completeBlock_dp, hf.tapSum, hf.taps]; exact h.tapSumTotal
      tapsLatched := fun _ => hu.tapsLatched
      phaseBound := hphase
      phaseInWindow := fun _ => hu.phase
      nowHeld := fun _ => hu.held
      nowBound := ⟨accumulatorRange_mono hheld hu.held.1, accumulatorRange_mono hheld hu.held.2⟩
      history := hu.history
      averages := ⟨hu.deemphAvg, hu.dcAvg⟩
      hitsBound := hu.hits.trans (thresh_of_configOk hu.checked)
      hitsInRun := fun _ => hu.hits
      outLenBound := ?_
      madBound := ?_ }
  · rw [completeBlock_params]
    rcases mem_storeOutputs hc with hold | ⟨hlow, hhigh⟩
    · rw [hparams]
      exact h.memInside c (hf.mem ▸ hold)
    · exact .inr ⟨hlow, by omega⟩
  · have hword : (BitVec.ofNat 32 u.work.y.length).toNat = u.work.y.length := Nat.mod_eq_of_lt (by omega)
    have hreported : (reportAfter u.work u.report).outLen = BitVec.ofNat 32 u.work.y.length := by
      unfold reportAfter
      split <;> rfl
    rw [completeBlock_report, completeBlock_params, hreported, hword]
    exact hout
  · have hold : u.report = s.report := hf.report
    rw [completeBlock_report, reportAfter]
    split
    · next mi mq hmad =>
      obtain ⟨hmi, hmq⟩ := hu.rails _ hmad
      exact ⟨(Nat.mod_le _ _).trans hmi, (Nat.mod_le _ _).trans hmq⟩
    · rw [hold]
      exact h.madBound

end DatapathInv

/-- Settles O51: the outside leaves the datapath or resets it; a completion is of a block in the ranges. -/
theorem stepKeepsDatapathInv : Obligations.StepKeepsDatapathInv := by
  intro s t hinv hstep
  rcases step_cases hstep with ⟨-, he⟩ | ⟨j, hj, hw, -⟩
  · exact hinv.taken.hostEffect he
  · have hrun := hinv.control.busyRuns (busy_eq_true.mpr ⟨j, hj⟩)
    obtain ⟨-, -, hlen⟩ := hinv.control.jobAccepted j hj
    obtain ⟨u, hf, hu, hblock⟩ := hinv.processBlock hrun j.len
    cases hstep.symm.trans ((step_due hj hw).trans hblock)
    exact hinv.completeBlock hlen hf hu

theorem controlInv_reset : ControlInv State.reset where
  bufferSize := by decide
  workEmpty := rfl
  busyRuns := fun hb => by cases hb
  jobAccepted := fun j hj => by cases hj
  runChecked := fun hrun => by cases hrun

/-- Settles O52: nothing runs, and datapath, memory and report are fresh. -/
theorem resetMeetsTheInvariants : Obligations.ResetMeetsTheInvariants :=
  ⟨.of_fresh controlInv_reset (defaultParams_atanParamsOk _ rfl rfl rfl) List.Pairwise.nil (List.forall_mem_nil _) rfl rfl
    List.length_replicate (tapTotal_zeros 256).symm (fun hrun => by cases hrun), List.Pairwise.nil⟩

end Sys2Proof.Machine
end

section
/-! SUPPORT. The chain of a block (30_encoding.md R124; 40_host_commands.md R167): each stage as one equation that holds for every
CTRL, and the completing step as the five of them in order. -/

namespace Sys2Proof.Machine

theorem runStages_cons {i : Instr} {l : List Instr} {s t : State} (h : exec i s = .next t) :
    runStages (i :: l) s = runStages l t := by simp only [runStages, h]

/-! The stages, each for every CTRL. -/

/-- R201, R203. The decimator of FIR_EN. -/
def decimated (s : State) : List Sample × Accum :=
  if s.cfg.ctrl.firEn then fir s.cfg.d s.dp.taps s.dp.tapSum (accumOf s) s.work.xs
  else boxcar s.cfg.d (accumOf s) s.work.xs

theorem exec_decimatorOf (s : State) :
    exec (if s.cfg.ctrl.firEn then .decimFir else .decimBoxcar) s = .next (putDecimated (decimated s) s) := by
  unfold decimated
  split <;> rfl

/-- R250 to R252. The arctangent of ATAN_SEL. -/
def atanOf (s : State) : Int → Int → Int :=
  if s.cfg.ctrl.atanSel = 0#2 then atanExact s.params
  else if s.cfg.ctrl.atanSel = 1#2 then atanFast s.params
  else atanLut s.params

/-- R248 to R255. The outputs of the demodulator of DEMOD, RAW apart. -/
def demodulated (s : State) : List Int :=
  if s.cfg.ctrl.demod = 0#3 then discriminate (atanOf s) (historyOf s) s.work.z
  else if s.cfg.ctrl.demod = 1#3 then s.work.z.map (amValue s.cfg.scale)
  else if s.cfg.ctrl.demod = 2#3 then s.work.z.map (usbValue s.cfg.scale)
  else s.work.z.map (lsbValue s.cfg.scale)

/-- R249. FM alone moves the history. -/
def historyOn (s : State) : Sample :=
  if s.cfg.ctrl.demod = 0#3 then historyAfter (historyOf s) s.work.z else historyOf s

/-- The demodulator's result put into the state. -/
def putDemodulated (s : State) : State :=
  { s with
    dp := { s.dp with preR := (historyOn s).i, preJ := (historyOn s).q },
    work := { s.work with y := demodulated s } }

theorem exec_demodOp {s : State} (hr : reservedSelection (ctrlWord s.cfg.ctrl) = false) (hraw : s.cfg.ctrl.demod ≠ 4#3) :
    exec (demodOp s.cfg.ctrl) s = .next (putDemodulated s) := by
  have hlegal : ¬5 ≤ s.cfg.ctrl.demod.toNat := fun h =>
    Bool.eq_false_iff.mp hr ((reservedSelection_ctrlWord _).mpr (.inl h))
  have hlsb : ∀ n : BitVec 3, ¬5 ≤ n.toNat → n ≠ 4#3 → n ≠ 0#3 → n ≠ 1#3 → n ≠ 2#3 → n = 3#3 := by decide
  unfold putDemodulated historyOn demodulated demodOp
  by_cases h0 : s.cfg.ctrl.demod = 0#3
  · simp only [if_pos h0]
    unfold atanOf
    split_ifs <;> rfl
  · by_cases h1 : s.cfg.ctrl.demod = 1#3
    · simp only [if_neg h0, if_pos h1]
      rfl
    · by_cases h2 : s.cfg.ctrl.demod = 2#3
      · simp only [if_neg h0, if_neg h1, if_pos h2]
        rfl
      · simp only [if_neg h0, if_neg h1, if_neg h2, if_pos (hlsb _ hlegal hraw h0 h1 h2)]
        rfl

/-- R294, as SQUELCH evaluates it. -/
def activeOf (s : State) : Bool := isActive s.cfg.level (madRails (measured s)).1 (madRails (measured s)).2

/-- R298. The counter after SQUELCH. -/
def hitsAfter (s : State) : Nat := if activeOf s then 0 else nextHits s.dp.hits s.cfg.thresh.natAbs

/-- R293. The block is inactive and the counter has passed the threshold. -/
def pastThreshold (s : State) : Bool := !activeOf s && decide (s.cfg.thresh.natAbs < hitsAfter s)

/-- R295. The block is muted. -/
def muting (s : State) : Bool := pastThreshold s && !s.cfg.ctrl.multichan

/-- R293, R296, R297. The flags after SQUELCH. -/
def squelchFlags (s : State) : BlockFlags :=
  { active := activeOf s, muted := muting s, hop := pastThreshold s && s.cfg.ctrl.multichan,
    term := muting s && decide (s.cfg.thresh < 0), sqEval := true }

theorem exec_squelch_eq (s : State) :
    exec .squelch s =
      .next (putSquelch (hitsAfter s) (if muting s then muted s.work.y else s.work.y) (squelchFlags s)
        (madRails (measured s)) s) := by
  have hexec : exec .squelch s = execSquelch s := rfl
  rw [hexec, execSquelch]
  unfold squelchFlags muting pastThreshold hitsAfter
  cases hactive : activeOf s <;> unfold activeOf at hactive
  · simp only [hactive, Bool.false_eq_true, if_false]
    by_cases hh : nextHits s.dp.hits s.cfg.thresh.natAbs ≤ s.cfg.thresh.natAbs
    · simp [hh, Nat.not_lt.mpr hh, flagsTolerated]
    · cases hm : s.cfg.ctrl.multichan <;> simp [hh, Nat.lt_of_not_le hh, flagsHop, flagsMuted]
  · simp [hactive, flagsActive]

/-- R321. The result of DEEMPH where it is enabled. -/
def putDeemph (s : State) : State :=
  { s with
    dp :=
      { s.dp with
        deemphAvg := if s.cfg.ctrl.deemphEn then deemphAfter s.cfg.divisor s.dp.deemphAvg s.work.y else s.dp.deemphAvg },
    work :=
      { s.work with
        y := if s.cfg.ctrl.deemphEn then deemphValues s.cfg.divisor s.dp.deemphAvg s.work.y else s.work.y } }

theorem runStages_deemph (s : State) :
    runStages (if s.cfg.ctrl.deemphEn then [.deemph] else []) s = .next (putDeemph s) := by
  unfold putDeemph
  split <;> rfl

/-- R326, R328. DCBLOCK is enabled and there is a value. -/
def dcOn (s : State) : Bool := s.cfg.ctrl.dcEn && !s.work.y.isEmpty

/-- R326. The result of DCBLOCK where it is on. -/
def putDcblock (s : State) : State :=
  { s with
    dp := { s.dp with dcAvg := if dcOn s then dcBlend s.dp.dcAvg s.work.y else s.dp.dcAvg },
    work :=
      { s.work with
        y := if dcOn s then s.work.y.map fun v => sat16 (v - dcBlend s.dp.dcAvg s.work.y) else s.work.y } }

theorem runStages_dcblock (s : State) :
    runStages (if s.cfg.ctrl.dcEn then [.dcblock] else []) s = .next (putDcblock s) := by
  unfold putDcblock
  cases hen : s.cfg.ctrl.dcEn
  · have hoff : dcOn s = false := by simp [dcOn, hen]
    rw [hoff]
    rfl
  · by_cases hy : s.work.y = []
    · have hoff : dcOn s = false := by simp [dcOn, hy]
      rw [hoff]
      exact runStages_cons (exec_dcblock_empty hy)
    · have hon : dcOn s = true := by simp [dcOn, hen, hy]
      rw [hon]
      exact runStages_cons (exec_dcblock_nonempty hy)

/-! The chain. -/

theorem runStages_append {a b : List Instr} {s t : State} (h : runStages a s = .next t) :
    runStages (a ++ b) s = runStages b t := by
  induction a generalizing s with
  | nil => cases h; rfl
  | cons i a ih =>
    rw [List.cons_append, runStages]
    rw [runStages] at h
    split at h
    · exact ih h
    · cases h
    · cases h

/-- The step of a due non-empty block, by what its stages lead to. -/
theorem step_of_stages {s u : State} {j : Job} (hj : s.inFlight = some j) (hw : j.wait = 0) (hl : j.len ≠ 0)
    (hr : reservedSelection (ctrlWord s.cfg.ctrl) = false)
    (hu : runStages ([if s.cfg.ctrl.firEn then .decimFir else .decimBoxcar, demodOp s.cfg.ctrl] ++ laterOps s.cfg.ctrl)
      (loadBlock j.len s) = .next u) : step s = .next (completeBlock u) := by
  rw [← stages_ctrlWord hr] at hu
  rw [step_due hj hw, processBlock, if_neg hl, hr, hu]
  rfl

/-- Settles O45: RAW has the first two stages, every other mode all five. -/
theorem completionFollowsTheStageChain : Obligations.CompletionFollowsTheStageChain := by
  intro s j hj hw hl hr
  have hdecim := exec_decimatorOf (loadBlock j.len s)
  refine ⟨fun hraw => ?_, fun hraw => ?_⟩
  · have hop : demodOp s.cfg.ctrl = .demodRaw := by simp [demodOp, hraw]
    have hchain := runStages_cons (l := [.demodRaw]) hdecim
    have hstep := step_of_stages hj hw hl hr (by rw [hop, laterOps, if_pos hraw]; exact hchain)
    exact hstep
  · have hdemod := exec_demodOp (s := putDecimated (decimated (loadBlock j.len s)) (loadBlock j.len s)) hr hraw
    have hpost : ∀ u : State, runStages ((if u.cfg.ctrl.deemphEn then [.deemph] else []) ++
        (if u.cfg.ctrl.dcEn then [.dcblock] else [])) u = .next (putDcblock (putDeemph u)) := fun u =>
      (runStages_append (runStages_deemph u)).trans (runStages_dcblock (putDeemph u))
    have hchain := (runStages_cons hdecim).trans <| (runStages_cons hdemod).trans <|
      (runStages_cons (exec_squelch_eq _)).trans (hpost _)
    have hstep := step_of_stages hj hw hl hr (by rw [laterOps, if_neg hraw]; exact hchain)
    rw [hstep]
    simp only [completeBlock, putDcblock, dcOn, putDeemph, putSquelch, squelchFlags, muting, pastThreshold, hitsAfter,
      activeOf, nextHits, muted, measured, putDemodulated, demodulated, historyOn, historyAfter, historyOf, atanOf,
      putDecimated, decimated, accumOf, loadBlock]
    rfl

end Sys2Proof.Machine
end

section
/-! SUPPORT. Real angles (42_demodulators.md R241 to R246): the angle of a point in the model's unit, its quadrants, and the exact
count of half turns behind ATAN_EXACT and the default lookup table. -/

namespace Sys2Proof.Machine

/-- The angle of the point `x + i y` in units of which pi has `2^14`. -/
noncomputable def realAngle (y x : Int) : ℝ := 2 ^ 14 / Real.pi * Complex.arg ((x : ℂ) + (y : ℂ) * Complex.I)

/-! The point in its coordinates. -/

theorem point_re (y x : Int) : ((x : ℂ) + (y : ℂ) * Complex.I).re = x := by simp

theorem point_im (y x : Int) : ((x : ℂ) + (y : ℂ) * Complex.I).im = y := by simp

theorem point_ne_zero {y x : Int} (h : ¬(x = 0 ∧ y = 0)) : (x : ℂ) + (y : ℂ) * Complex.I ≠ 0 := fun h0 => by
  have hx : (x : ℝ) = 0 := by rw [← point_re y x, h0, Complex.zero_re]
  have hy : (y : ℝ) = 0 := by rw [← point_im y x, h0, Complex.zero_im]
  exact h ⟨by exact_mod_cast hx, by exact_mod_cast hy⟩

theorem unit_pos : (0 : ℝ) < 2 ^ 14 / Real.pi := div_pos (by norm_num) Real.pi_pos

theorem unit_mul_pi : 2 ^ 14 / Real.pi * Real.pi = 2 ^ 14 := div_mul_cancel₀ _ Real.pi_ne_zero

theorem realAngle_range (y x : Int) : -2 ^ 14 < realAngle y x ∧ realAngle y x ≤ 2 ^ 14 := by
  have hlow := mul_lt_mul_of_pos_left (Complex.neg_pi_lt_arg ((x : ℂ) + (y : ℂ) * Complex.I)) unit_pos
  have hhigh := mul_le_mul_of_nonneg_left (Complex.arg_le_pi ((x : ℂ) + (y : ℂ) * Complex.I)) unit_pos.le
  rw [mul_neg, unit_mul_pi] at hlow
  rw [unit_mul_pi] at hhigh
  exact ⟨hlow, hhigh⟩

/-- On the negative real axis the angle is plus a half turn. -/
theorem realAngle_negative_axis {x : Int} (hx : x < 0) : realAngle 0 x = 2 ^ 14 := by
  have harg : Complex.arg ((x : ℂ) + ((0 : Int) : ℂ) * Complex.I) = Real.pi :=
    Complex.arg_eq_pi_iff.mpr ⟨by rw [point_re]; exact_mod_cast hx, by rw [point_im, Int.cast_zero]⟩
  rw [realAngle, harg, unit_mul_pi]

/-- R246. Below the real axis the angle is minus that of the mirrored point. -/
theorem realAngle_eq_ySign_mul (y x : Int) : realAngle y x = ySign y * realAngle y.natAbs x := by
  rcases lt_or_ge y 0 with hy | hy
  · have hconj : (x : ℂ) + (y : ℂ) * Complex.I = (starRingEnd ℂ) ((x : ℂ) + ((y.natAbs : Int) : ℂ) * Complex.I) := by
      rw [Int.ofNat_natAbs_of_nonpos hy.le]
      simp
    have hne : Complex.arg ((x : ℂ) + ((y.natAbs : Int) : ℂ) * Complex.I) ≠ Real.pi := fun h => by
      have him := (Complex.arg_eq_pi_iff.mp h).2
      rw [point_im] at him
      have : (y.natAbs : Int) = 0 := by exact_mod_cast him
      omega
    rw [realAngle, realAngle, hconj, Complex.arg_conj, if_neg hne, ySign, if_pos hy]
    push_cast
    ring
  · rw [ySign, if_neg (Int.not_lt.mpr hy), Int.natAbs_of_nonneg hy]
    simp

/-! The count of half turns. -/

/-- For a point of the upper half plane at the angle `t`, the count is the whole part of `2^n * t / pi`: doubling the angle, less a
half turn where there is one, squares the point or its negative. -/
theorem halfTurns_spec (n : Nat) {a b : Int} {r t : ℝ} (hr : 0 < r) (ht0 : 0 ≤ t) (htpi : t ≤ Real.pi)
    (ha : (a : ℝ) = r * Real.cos t) (hb : (b : ℝ) = r * Real.sin t) :
    (halfTurns n a b : ℝ) ≤ 2 ^ n * (t / Real.pi) ∧ 2 ^ n * (t / Real.pi) < halfTurns n a b + 1 := by
  have hpi := Real.pi_pos
  induction n generalizing a b r t with
  | zero =>
    by_cases haxis : t = Real.pi
    · have ha' : a < 0 := by
        have : (a : ℝ) < 0 := by rw [ha, haxis, Real.cos_pi]; linarith
        exact_mod_cast this
      have hb' : b = 0 := by
        have : (b : ℝ) = 0 := by rw [hb, haxis, Real.sin_pi, mul_zero]
        exact_mod_cast this
      rw [halfTurns, if_pos ⟨hb', ha'⟩, haxis, div_self hpi.ne']
      norm_num
    · have hlt : t / Real.pi < 1 := (div_lt_one hpi).mpr (lt_of_le_of_ne htpi haxis)
      have hnot : ¬(b = 0 ∧ a < 0) := fun ⟨hb0, ha0⟩ => by
        have hsin : Real.sin t = 0 := by
          have : r * Real.sin t = 0 := by rw [← hb, hb0, Int.cast_zero]
          exact (mul_eq_zero.mp this).resolve_left hr.ne'
        have hzero : t = 0 := by
          by_contra hne
          exact (Real.sin_pos_of_pos_of_lt_pi (lt_of_le_of_ne ht0 (Ne.symm hne)) (lt_of_le_of_ne htpi haxis)).ne' hsin
        rw [hzero, Real.cos_zero, mul_one] at ha
        have : (a : ℝ) < 0 := by exact_mod_cast ha0
        linarith
      rw [halfTurns, if_neg hnot]
      have := div_nonneg ht0 hpi.le
      norm_num
      exact ⟨this, hlt⟩
  | succ n ih =>
    have hcos : (a : ℝ) * a - b * b = r ^ 2 * Real.cos (2 * t) := by rw [ha, hb, Real.cos_two_mul']; ring
    have hsin : 2 * (a : ℝ) * b = r ^ 2 * Real.sin (2 * t) := by rw [ha, hb, Real.sin_two_mul]; ring
    rw [halfTurns]
    split
    · next hpos =>
      have hhalf : t < Real.pi / 2 := by
        by_contra hge
        have hnonpos := Real.cos_nonpos_of_pi_div_two_le_of_le (not_lt.mp hge) (by linarith)
        have : (0 : ℝ) < a := by exact_mod_cast hpos
        nlinarith
      have hdouble : 2 ^ (n + 1) * (t / Real.pi) = 2 ^ n * (2 * t / Real.pi) := by rw [pow_succ]; ring
      rw [hdouble]
      exact ih (r := r ^ 2) (t := 2 * t) (by positivity) (by linarith) (by linarith) (by push_cast; linarith)
        (by push_cast; linarith)
    · next hneg =>
      have hhalf : Real.pi / 2 ≤ t := by
        by_contra hlt
        have hcospos := Real.cos_pos_of_mem_Ioo ⟨by linarith, not_le.mp hlt⟩
        have : (a : ℝ) ≤ 0 := by exact_mod_cast not_lt.mp hneg
        nlinarith
      have hdouble : 2 ^ (n + 1) * (t / Real.pi) = 2 ^ n + 2 ^ n * ((2 * t - Real.pi) / Real.pi) := by
        rw [sub_div, div_self hpi.ne', pow_succ]
        ring
      obtain ⟨hlow, hhigh⟩ := ih (a := b * b - a * a) (b := -(2 * a * b)) (r := r ^ 2) (t := 2 * t - Real.pi) (by positivity)
        (by linarith) (by linarith) (by rw [Real.cos_sub_pi]; push_cast; linarith)
        (by rw [Real.sin_sub_pi]; push_cast; linarith)
      rw [hdouble]
      push_cast
      exact ⟨by linarith, by linarith⟩

/-- The count at a point of the upper half plane, by its angle. -/
theorem halfTurns_realAngle {y x : Int} (hy : 0 ≤ y) (h : ¬(x = 0 ∧ y = 0)) :
    (halfTurns 15 x y : ℝ) ≤ 2 * realAngle y x ∧ 2 * realAngle y x < halfTurns 15 x y + 1 := by
  have harg : 0 ≤ Complex.arg ((x : ℂ) + (y : ℂ) * Complex.I) :=
    Complex.arg_nonneg_iff.mpr (by rw [point_im]; exact_mod_cast hy)
  have hspec := halfTurns_spec 15 (norm_pos_iff.mpr (point_ne_zero h)) harg (Complex.arg_le_pi _)
    (by rw [Complex.norm_mul_cos_arg, point_re]) (by rw [Complex.norm_mul_sin_arg, point_im])
  have hunit : 2 ^ 15 * (Complex.arg ((x : ℂ) + (y : ℂ) * Complex.I) / Real.pi) = 2 * realAngle y x := by
    rw [realAngle]
    ring
  rwa [hunit] at hspec

/-- Rounding a count of halves up leaves an integer within a half. -/
theorem abs_half_sub_le {N : Nat} {v : ℝ} (hlow : (N : ℝ) ≤ 2 * v) (hhigh : 2 * v < N + 1) :
    |(((N + 1) / 2 : Nat) : ℝ) - v| ≤ 1 / 2 := by
  have hdiv := Nat.div_add_mod (N + 1) 2
  have hmod := Nat.mod_lt (N + 1) (by decide : 0 < 2)
  have hcast : (2 : ℝ) * ((N + 1) / 2 : Nat) + ((N + 1) % 2 : Nat) = N + 1 := by exact_mod_cast hdiv
  have hrem : (((N + 1) % 2 : Nat) : ℝ) ≤ 1 := by exact_mod_cast Nat.le_of_lt_succ hmod
  have hrem0 : (0 : ℝ) ≤ ((N + 1) % 2 : Nat) := Nat.cast_nonneg _
  rw [abs_le]
  constructor <;> linarith

/-- R242, R244. -/
theorem nearestAngle_spec {y x : Int} (h : ¬(x = 0 ∧ y = 0)) : |(nearestAngle y x : ℝ) - realAngle y x| ≤ 1 / 2 := by
  have habs : ¬(x = 0 ∧ (y.natAbs : Int) = 0) := fun ⟨hx, hy⟩ => h ⟨hx, by omega⟩
  obtain ⟨hlow, hhigh⟩ := halfTurns_realAngle (Int.natCast_nonneg y.natAbs) habs
  have hround := abs_half_sub_le hlow hhigh
  have hsign : |(ySign y : ℝ)| = 1 := by
    rw [ySign]
    split <;> norm_num
  have hcast : (nearestAngle y x : ℝ) = ySign y * (((halfTurns 15 x y.natAbs + 1) / 2 : Nat) : ℝ) := by
    rw [nearestAngle]
    push_cast
    rfl
  rw [realAngle_eq_ySign_mul, hcast, ← mul_sub, abs_mul, hsign, one_mul]
  exact hround

theorem atanExact_origin (p : Config.Params) : atanExact p 0 0 = 0 := if_pos ⟨rfl, rfl⟩

theorem atanExact_spec {p : Config.Params} (hlaw : ExactLaw p) {y x : Int} (h : ¬(x = 0 ∧ y = 0)) :
    |(atanExact p y x : ℝ) - realAngle y x| ≤ 1 / 2 := by
  rw [atanExact, if_neg h]
  split
  · next t ht =>
    obtain ⟨hy, hx⟩ : t.y = y ∧ t.x = x := by simpa using List.find?_some ht
    have hgiven := hlaw t (List.mem_of_find?_eq_some ht)
    rwa [hy, hx] at hgiven
  · exact nearestAngle_spec h

/-- Settles O31: a given value is within the law, and the count of half turns is exact. -/
theorem atanExactIsTheNearestInteger : Obligations.AtanExactIsTheNearestInteger :=
  fun p hlaw => ⟨atanExact_origin p, fun _ _ h => atanExact_spec hlaw h⟩

/-! The first quadrant by the arctangent of the ratio. -/

theorem realAngle_of_pos {x : Int} (y : Int) (hx : 0 < x) :
    realAngle y x = 2 ^ 14 / Real.pi * Real.arctan ((y : ℝ) / x) := by
  have hre : 0 < ((x : ℂ) + (y : ℂ) * Complex.I).re := by rw [point_re]; exact_mod_cast hx
  have hne : (x : ℂ) + (y : ℂ) * Complex.I ≠ 0 := point_ne_zero fun h => hx.ne' h.1
  obtain ⟨hlow, hhigh⟩ := abs_lt.mp ((Complex.abs_arg_lt_pi_div_two_iff.mpr (.inl hre)))
  rw [realAngle, ← Real.arctan_tan hlow hhigh, Complex.tan_arg, point_re, point_im]

/-! The default lookup table (R244, R57). -/

theorem lutEntry_default (k : Nat) : lutEntry Config.defaultLut k = nearestAngle k (2 ^ 14) := rfl

theorem lutLaw_default (k : Nat) : LutLaw Config.defaultLut k := by
  have hspec := nearestAngle_spec (y := k) (x := 2 ^ 14) fun h => absurd h.1 (by decide)
  rw [realAngle_of_pos _ (by decide), Int.cast_natCast, Int.cast_pow, Int.cast_ofNat] at hspec
  exact hspec

/-- A greater ratio has no smaller entry. -/
theorem lutEntry_default_mono {k l : Nat} (h : k ≤ l) :
    lutEntry Config.defaultLut k ≤ lutEntry Config.defaultLut l := by
  have hne : ∀ y : Int, ¬((2 ^ 14 : Int) = 0 ∧ y = 0) := fun y h => absurd h.1 (by decide)
  obtain ⟨hlow, -⟩ := halfTurns_realAngle (Int.natCast_nonneg k) (hne k)
  obtain ⟨-, hhigh⟩ := halfTurns_realAngle (Int.natCast_nonneg l) (hne l)
  have hangle : realAngle k (2 ^ 14) ≤ realAngle l (2 ^ 14) := by
    rw [realAngle_of_pos _ (by decide), realAngle_of_pos _ (by decide)]
    refine mul_le_mul_of_nonneg_left (Real.arctan_le_arctan_iff.mpr ?_) unit_pos.le
    gcongr
  have hcount : halfTurns 15 (2 ^ 14) k < halfTurns 15 (2 ^ 14) l + 1 := by
    have : (halfTurns 15 (2 ^ 14) k : ℝ) < halfTurns 15 (2 ^ 14) l + 1 := by linarith
    exact_mod_cast this
  have hsign : ∀ n : Nat, ySign n = 1 := fun n => if_neg (by omega)
  simp only [lutEntry_default, nearestAngle, hsign, Int.natAbs_natCast]
  omega

/-- Settles O32: every entry is a nearest angle of the first quadrant, and they rise to the last. -/
theorem defaultLutTableIsTheNearestIntegers : Obligations.DefaultLutTableIsTheNearestIntegers := by
  have h0 : lutEntry Config.defaultLut 0 = 0 := by decide +kernel
  have hlast : lutEntry Config.defaultLut (2 ^ 18 - 1) = 7866 := by decide +kernel
  refine ⟨rfl, rfl, fun k hk => ⟨lutLaw_default k, ?_, ?_⟩, h0, by decide +kernel, by decide +kernel, hlast⟩
  · exact h0 ▸ lutEntry_default_mono (Nat.zero_le k)
  · exact hlast ▸ lutEntry_default_mono (Nat.le_sub_one_of_lt hk)

end Sys2Proof.Machine
end

section
/-! SUPPORT. The quadrant correction, rounding, and bounds of the real arctangent (00_scope.md R12, 42_demodulators.md R246), and with
them the accuracy of ATAN_LUT (R245, R247). -/

namespace Sys2Proof.Machine

/-! Quadrants (R246). -/

/-- Left of the imaginary axis the angle is a half turn less that of the mirrored point. -/
theorem realAngle_reflect {y x : Int} (hy : 0 ≤ y) (hx : x < 0) : realAngle y x = 2 ^ 14 - realAngle y (-x) := by
  have hnorm : 0 < ‖((-x : Int) : ℂ) + (y : ℂ) * Complex.I‖ := norm_pos_iff.mpr (point_ne_zero fun h => by omega)
  have harg : 0 ≤ Complex.arg (((-x : Int) : ℂ) + (y : ℂ) * Complex.I) :=
    Complex.arg_nonneg_iff.mpr (by rw [point_im]; exact_mod_cast hy)
  have hpi := Complex.arg_le_pi (((-x : Int) : ℂ) + (y : ℂ) * Complex.I)
  have hcos := Complex.norm_mul_cos_arg (((-x : Int) : ℂ) + (y : ℂ) * Complex.I)
  have hsin := Complex.norm_mul_sin_arg (((-x : Int) : ℂ) + (y : ℂ) * Complex.I)
  rw [point_re] at hcos
  rw [point_im] at hsin
  rw [realAngle, realAngle]
  generalize ‖((-x : Int) : ℂ) + (y : ℂ) * Complex.I‖ = r at hnorm hcos hsin
  generalize Complex.arg (((-x : Int) : ℂ) + (y : ℂ) * Complex.I) = t at harg hpi hcos hsin ⊢
  have hpoint : (x : ℂ) + (y : ℂ) * Complex.I = r * (Real.cos (Real.pi - t) + Real.sin (Real.pi - t) * Complex.I) := by
    rw [Real.cos_pi_sub, Real.sin_pi_sub]
    apply Complex.ext
    · rw [point_re, Complex.re_ofReal_mul, Complex.add_re, Complex.ofReal_re, Complex.re_ofReal_mul, Complex.I_re]
      push_cast at hcos
      linarith
    · rw [point_im, Complex.im_ofReal_mul, Complex.add_im, Complex.ofReal_im, Complex.im_ofReal_mul, Complex.I_im]
      linarith
  have hmem : Real.pi - t ∈ Set.Ioc (-Real.pi) Real.pi := ⟨by linarith [Real.pi_pos], by linarith⟩
  rw [hpoint, Complex.ofReal_cos, Complex.ofReal_sin, Complex.arg_mul_cos_add_sin_mul_I hnorm hmem, mul_sub, unit_mul_pi]

/-- The quadrant correction of any first-quadrant value is as near to the angle as the value to the first-quadrant angle. -/
theorem abs_quad_sub_realAngle (a0 y x : Int) :
    |(quad a0 y x : ℝ) - realAngle y x| = |(a0 : ℝ) - realAngle y.natAbs x.natAbs| := by
  have hsign : |(ySign y : ℝ)| = 1 := by
    rw [ySign]
    split <;> norm_num
  rw [realAngle_eq_ySign_mul, quad, Int.cast_mul, ← mul_sub, abs_mul, hsign, one_mul]
  split
  · next hx => rw [Int.natAbs_of_nonneg hx]
  · next hx =>
    have habs : (x.natAbs : Int) = -x := by omega
    rw [realAngle_reflect (Int.natCast_nonneg _) (by omega), habs, abs_sub_comm]
    push_cast
    congr 1
    ring

/-- Above the real axis the angle is a quarter turn less the arctangent of the inverse ratio. -/
theorem realAngle_of_im_pos {y x : Int} (hy : 0 < y) (hx : 0 ≤ x) :
    realAngle y x = 2 ^ 13 - 2 ^ 14 / Real.pi * Real.arctan ((x : ℝ) / y) := by
  have hquarter : 2 ^ 14 / Real.pi * (Real.pi / 2) = 2 ^ 13 := by rw [← mul_div_assoc, unit_mul_pi]; norm_num
  rcases hx.eq_or_lt with rfl | hx
  · have harg : Complex.arg (((0 : Int) : ℂ) + (y : ℂ) * Complex.I) = Real.pi / 2 :=
      Complex.arg_eq_pi_div_two_iff.mpr ⟨by rw [point_re, Int.cast_zero], by rw [point_im]; exact_mod_cast hy⟩
    rw [realAngle, harg, hquarter, Int.cast_zero, zero_div, Real.arctan_zero, mul_zero, sub_zero]
  · have hratio : (0 : ℝ) < x / y := div_pos (by exact_mod_cast hx) (by exact_mod_cast hy)
    have hinv : (y : ℝ) / x = ((x : ℝ) / y)⁻¹ := (inv_div _ _).symm
    rw [realAngle_of_pos _ hx, hinv, Real.arctan_inv_of_pos hratio, mul_sub, hquarter]

/-! Rounding (R12). -/

theorem rhaz_spec_of_nonneg {n : Int} {q : Nat} (hn : 0 ≤ n) (hq : 0 < q) : |(rhaz n q : ℝ) - n / q| ≤ 1 / 2 := by
  obtain ⟨m, rfl⟩ := Int.eq_ofNat_of_zero_le hn
  have hqr : (0 : ℝ) < q := by exact_mod_cast hq
  have hle := Nat.div_mul_le_self (m + q / 2) q
  have hlt := Nat.lt_div_mul_add (a := m + q / 2) hq
  have hhalf := Nat.div_add_mod q 2
  have hlow : 2 * ((m + q / 2) / q * q) ≤ 2 * m + q := by omega
  have hhigh : 2 * m ≤ 2 * ((m + q / 2) / q * q) + q := by omega
  rw [rhaz_of_nonneg q hn, Int.natAbs_natCast, Int.cast_natCast, Int.cast_natCast]
  generalize (m + q / 2) / q = k at hlow hhigh ⊢
  have hlow' : 2 * ((k : ℝ) * q) ≤ 2 * m + q := by exact_mod_cast hlow
  have hhigh' : 2 * (m : ℝ) ≤ 2 * (k * q) + q := by exact_mod_cast hhigh
  have hle' : (m : ℝ) / q ≤ k + 1 / 2 := (div_le_iff₀ hqr).mpr (by linarith)
  have hge' : (k : ℝ) - 1 / 2 ≤ m / q := (le_div_iff₀ hqr).mpr (by linarith)
  rw [abs_le]
  constructor <;> linarith

theorem rhaz_spec (n : Int) {q : Int} (hq : 0 < q) : |(rhaz n q : ℝ) - n / q| ≤ 1 / 2 := by
  obtain ⟨q, rfl⟩ := Int.eq_ofNat_of_zero_le hq.le
  have hq' : 0 < q := by exact_mod_cast hq
  rcases Int.le_total 0 n with hn | hn
  · exact rhaz_spec_of_nonneg hn hq'
  · have hneg := rhaz_spec_of_nonneg (n := -n) (by omega) hq'
    rw [rhaz_neg, Int.cast_neg, Int.cast_neg, neg_div, ← neg_sub', abs_neg] at hneg
    exact hneg

/-! The real arctangent. -/

/-- The first `n` terms of the arctangent's power series. -/
noncomputable def arctanSum (n : Nat) (s : ℝ) : ℝ := ∑ k ∈ Finset.range n, (-1) ^ k * (s ^ (2 * k + 1) / (2 * k + 1))

theorem hasDerivAt_arctanSum (n : Nat) (s : ℝ) : HasDerivAt (arctanSum n) (∑ k ∈ Finset.range n, (-s ^ 2) ^ k) s := by
  unfold arctanSum
  refine HasDerivAt.fun_sum fun k _ => ?_
  have hterm : (-s ^ 2) ^ k = (-1) ^ k * (((2 * k + 1 : Nat) : ℝ) * s ^ (2 * k + 1 - 1) / (2 * k + 1)) := by
    rw [neg_pow, Nat.add_sub_cancel, ← pow_mul]
    push_cast
    rw [mul_div_cancel_left₀ _ (by positivity)]
  rw [hterm]
  exact ((hasDerivAt_pow (2 * k + 1) s).div_const _).const_mul _

/-- The arctangent less its first `n` terms has the derivative `(-s^2)^n / (1 + s^2)`, the remainder of the geometric series. -/
theorem monotone_arctan_sub_arctanSum (n : Nat) : Monotone fun s => (-1) ^ n * (Real.arctan s - arctanSum n s) := by
  refine monotone_of_hasDerivAt_nonneg (f' := fun s => s ^ (2 * n) / (1 + s ^ 2)) (fun s => ?_) fun s => by
    have := (even_two_mul n).pow_nonneg s
    positivity
  have hgeom := geom_sum_mul_neg (-s ^ 2) n
  rw [sub_neg_eq_add] at hgeom
  have hsum : ∑ k ∈ Finset.range n, (-s ^ 2) ^ k = (1 - (-s ^ 2) ^ n) / (1 + s ^ 2) :=
    (eq_div_iff (by positivity)).mpr hgeom
  have hval : s ^ (2 * n) / (1 + s ^ 2) = (-1) ^ n * (1 / (1 + s ^ 2) - ∑ k ∈ Finset.range n, (-s ^ 2) ^ k) := by
    rw [hsum, ← sub_div, sub_sub_cancel, ← mul_div_assoc, ← mul_pow, neg_one_mul, neg_neg, pow_mul]
  rw [hval]
  exact ((Real.hasDerivAt_arctan s).sub (hasDerivAt_arctanSum n s)).const_mul _

/-- The series alternates around the arctangent. -/
theorem arctanSum_alternates (n : Nat) {s : ℝ} (hs : 0 ≤ s) : 0 ≤ (-1) ^ n * (Real.arctan s - arctanSum n s) := by
  have hzero : arctanSum n 0 = 0 := Finset.sum_eq_zero fun k _ => by rw [zero_pow (Nat.succ_ne_zero _), zero_div, mul_zero]
  have hmono := monotone_arctan_sub_arctanSum n hs
  simp only [Real.arctan_zero, hzero, sub_zero, mul_zero] at hmono
  exact hmono

/-- The arctangent rises by no more than its argument. -/
theorem arctan_sub_le {u v : ℝ} (h : u ≤ v) : Real.arctan v - Real.arctan u ≤ v - u := by
  have hmono := monotone_arctan_sub_arctanSum 1 h
  norm_num [arctanSum] at hmono
  linarith

theorem arctan_le_self {s : ℝ} (hs : 0 ≤ s) : Real.arctan s ≤ s := by
  have := arctan_sub_le hs
  rw [Real.arctan_zero] at this
  linarith

theorem sub_cubic_le_arctan {s : ℝ} (hs : 0 ≤ s) : s - s ^ 3 / 3 ≤ Real.arctan s := by
  have halt := arctanSum_alternates 2 hs
  norm_num [arctanSum, Finset.sum_range_succ] at halt
  linarith

theorem unit_bounds : (5215.1891 : ℝ) < 2 ^ 14 / Real.pi ∧ 2 ^ 14 / Real.pi < 5215.1893 := by
  constructor
  · rw [lt_div_iff₀ Real.pi_pos]
    linarith [Real.pi_lt_d20]
  · rw [div_lt_iff₀ Real.pi_pos]
    linarith [Real.pi_gt_d20]

/-! ATAN_LUT (R245). -/

/-- An index rounded down loses less than a step of the table. -/
theorem lut_index_error {k : Nat} {s : ℝ} (hlow : (k : ℝ) ≤ s * 2 ^ 14) (hhigh : s * 2 ^ 14 < k + 1) :
    |2 ^ 14 / Real.pi * Real.arctan ((k : ℝ) / 2 ^ 14) - 2 ^ 14 / Real.pi * Real.arctan s| ≤ 0.32 := by
  have hstep : (k : ℝ) / 2 ^ 14 ≤ s := by
    rw [div_le_iff₀ (by positivity)]
    exact hlow
  have hlip := arctan_sub_le hstep
  have hmono := Real.arctan_le_arctan_iff.mpr hstep
  have hwidth : s - (k : ℝ) / 2 ^ 14 ≤ 1 / 2 ^ 14 := by
    rw [sub_le_iff_le_add, ← add_div, le_div_iff₀ (by positivity)]
    linarith
  have hunit : 2 ^ 14 / Real.pi * (1 / 2 ^ 14) ≤ 0.32 := by
    have := unit_bounds.2
    linarith
  rw [← mul_sub, abs_mul, abs_of_pos unit_pos, abs_sub_comm, abs_of_nonneg (by linarith)]
  exact (mul_le_mul_of_nonneg_left (hlip.trans hwidth) unit_pos.le).trans hunit

/-- The linear fallback below the ratio 1/16. -/
theorem lut_fallback_error {s : ℝ} (h0 : 0 ≤ s) (h16 : s ≤ 1 / 16) :
    |5215 * s - 2 ^ 14 / Real.pi * Real.arctan s| ≤ 0.43 := by
  obtain ⟨hlow, hhigh⟩ := unit_bounds
  have hle := arctan_le_self h0
  have hge := sub_cubic_le_arctan h0
  have hcube : s ^ 3 ≤ (1 / 16) ^ 3 := pow_le_pow_left₀ h0 h16 3
  have hnonneg : 0 ≤ Real.arctan s := Real.arctan_nonneg.mpr h0
  have hdown : 5215 * Real.arctan s ≤ 2 ^ 14 / Real.pi * Real.arctan s := mul_le_mul_of_nonneg_right (by linarith) hnonneg
  have hup : 2 ^ 14 / Real.pi * Real.arctan s ≤ 5215.2 * Real.arctan s := mul_le_mul_of_nonneg_right (by linarith) hnonneg
  rw [abs_le]
  constructor <;> linarith

theorem lutAngle_spec {c : Config.LutParams} (hcoef : c.coef = 14) (hsize : c.size = 2 ^ 18) (hfallback : c.fallback = 5215)
    {ay ax : Nat} (h : ¬((ax : Int) = 0 ∧ (ay : Int) = 0)) (hlaw : LutReadLawful c ay ax) :
    |(lutAngle c ay ax : ℝ) - realAngle ay ax| < 0.94 := by
  rw [lutAngle, hcoef, hsize]
  rw [LutReadLawful, hcoef, hsize, Int.natAbs_natCast, Int.natAbs_natCast] at hlaw
  split
  · next hin =>
    obtain ⟨hax, hk⟩ := hin
    have hentry := hlaw (by omega) hk
    rw [LutLaw, hcoef] at hentry
    have haxr : (0 : ℝ) < ax := by exact_mod_cast hax
    have hle := Nat.div_mul_le_self (ay * 2 ^ 14) ax
    have hlt := Nat.lt_div_mul_add (a := ay * 2 ^ 14) hax
    generalize ay * 2 ^ 14 / ax = k at hentry hle hlt ⊢
    have hindex := lut_index_error (k := k) (s := (ay : ℝ) / ax)
      (by rw [div_mul_eq_mul_div, le_div_iff₀ haxr]; exact_mod_cast hle)
      (by rw [div_mul_eq_mul_div, div_lt_iff₀ haxr, add_one_mul]; exact_mod_cast hlt)
    rw [realAngle_of_pos _ (by exact_mod_cast hax), Int.cast_natCast, Int.cast_natCast]
    refine (abs_sub_le _ _ _).trans_lt ((add_le_add hentry hindex).trans_lt ?_)
    norm_num
  · next hout =>
    have hay : 0 < ay ∧ 16 * ax ≤ ay := by
      rcases Nat.eq_zero_or_pos ax with rfl | hax
      · omega
      · have hge : 2 ^ 18 ≤ ay * 2 ^ 14 / ax := by
          by_contra hlt
          exact hout ⟨hax, by omega⟩
        have := (Nat.le_div_iff_mul_le hax).mp hge
        omega
    have hayr : (0 : ℝ) < ay := by exact_mod_cast hay.1
    have hround := rhaz_spec (5215 * ax) (q := ay) (by exact_mod_cast hay.1)
    have hfall := lut_fallback_error (s := (ax : ℝ) / ay) (by positivity) (by
      rw [div_le_div_iff₀ hayr (by norm_num), one_mul, mul_comm]
      exact_mod_cast hay.2)
    rw [realAngle_of_im_pos (by exact_mod_cast hay.1) (by positivity), hfallback]
    push_cast at hround ⊢
    rw [mul_div_assoc] at hround
    have hsum := (abs_sub_le _ _ _).trans (add_le_add hround hfall)
    rw [abs_sub_comm, abs_lt]
    rw [abs_le] at hsum
    constructor <;> linarith

theorem lutReadLawful_natAbs {c : Config.LutParams} {y x : Int} (h : LutReadLawful c y x) :
    LutReadLawful c y.natAbs x.natAbs := by
  intro hx
  rw [Int.natAbs_natCast, Int.natAbs_natCast]
  exact h (by omega)

/-- Settles O33: an entry is off by a half and less than a step, the fallback by a half and the cubic term. -/
theorem atanLutIsWithinItsBound : Obligations.AtanLutIsWithinItsBound := by
  intro p hcoef hsize hfallback y x h _ _ hlaw
  rw [atanLut, if_neg h]
  refine (abs_quad_sub_realAngle _ y x).trans_lt ?_
  exact lutAngle_spec hcoef hsize hfallback (by omega) (lutReadLawful_natAbs hlaw)

end Sys2Proof.Machine
end

section
/-! SUPPORT. The ranges of the three arctangents (42_demodulators.md R241, R246, R248). -/

namespace Sys2Proof.Machine

/-! Rounding to within a half keeps integer bounds. -/

theorem le_of_abs_sub_half {v m : Int} {a : ℝ} (h : |(v : ℝ) - a| ≤ 1 / 2) (hm : (m : ℝ) ≤ a) : m ≤ v := by
  have hlt : ((m - 1 : Int) : ℝ) < v := by push_cast; linarith [(abs_le.mp h).1]
  exact Int.le_of_sub_one_lt (Int.cast_lt.mp hlt)

theorem ge_of_abs_sub_half {v m : Int} {a : ℝ} (h : |(v : ℝ) - a| ≤ 1 / 2) (hm : a ≤ m) : v ≤ m := by
  have hlt : (v : ℝ) < ((m + 1 : Int) : ℝ) := by push_cast; linarith [(abs_le.mp h).2]
  exact Int.lt_add_one_iff.mp (Int.cast_lt.mp hlt)

/-! The ranges. -/

/-- On the negative real axis the quadrant correction of 0 is plus a half turn. -/
theorem quad_zero_of_negative_axis {x : Int} (hx : x < 0) : quad 0 0 x = 16384 := by
  rw [quad, ySign, if_neg (lt_irrefl 0), if_neg (Int.not_le.mpr hx)]
  rfl

theorem atanExact_range {p : Config.Params} (hlaw : ExactLaw p) (y x : Int) :
    -16384 ≤ atanExact p y x ∧ atanExact p y x ≤ 16384 := by
  by_cases h : x = 0 ∧ y = 0
  · rw [atanExact, if_pos h]
    decide
  · have hspec := atanExact_spec hlaw h
    obtain ⟨hmin, hmax⟩ := realAngle_range y x
    exact ⟨le_of_abs_sub_half hspec (by push_cast; linarith), ge_of_abs_sub_half hspec (by push_cast; linarith)⟩

theorem atanExact_negative_axis {p : Config.Params} (hlaw : ExactLaw p) {x : Int} (hx : x < 0) : atanExact p 0 x = 16384 := by
  have hspec := atanExact_spec (y := 0) hlaw fun h => hx.ne h.1
  rw [realAngle_negative_axis hx] at hspec
  exact le_antisymm (ge_of_abs_sub_half hspec (by norm_num)) (le_of_abs_sub_half hspec (by norm_num))

/-- ATAN_FAST reads no parameter but its coefficients, so the range at all defaults is its range. -/
theorem atanFast_default_range {p : Config.Params} (hfast : p.fast = Config.defaultFast) (y x : Int) :
    -16384 ≤ atanFast p y x ∧ atanFast p y x ≤ 16384 :=
  (defaultParams_atanParamsOk { p with exactPoints := [], lut := Config.defaultLut } rfl rfl hfast).fastRange y x

theorem fastRounded_zero (c : Config.FastParams) (q : Int) : fastRounded c 0 q = 0 := by
  rw [fastRounded, fastNumerator, zero_mul]
  exact Int.zero_mul _

theorem atanFast_negative_axis (p : Config.Params) {x : Int} (hx : x < 0) : atanFast p 0 x = 16384 := by
  rw [atanFast, if_neg fun h => hx.ne h.1, Int.natAbs_zero, Int.natCast_zero]
  simp only [Int.natCast_nonneg, if_true, fastRounded_zero, quad_zero_of_negative_axis hx]

/-- An entry within the law is the rounding of an angle of the first quadrant. -/
theorem lutEntry_range {c : Config.LutParams} {k : Nat} (hlaw : LutLaw c k) : 0 ≤ lutEntry c k ∧ lutEntry c k ≤ 8192 := by
  have hmin : 0 ≤ 2 ^ 14 / Real.pi * Real.arctan ((k : ℝ) / 2 ^ c.coef) :=
    mul_nonneg unit_pos.le (Real.arctan_nonneg.mpr (by positivity))
  have hmax := mul_le_mul_of_nonneg_left (Real.arctan_lt_pi_div_two ((k : ℝ) / 2 ^ c.coef)).le unit_pos.le
  rw [← mul_div_assoc, unit_mul_pi] at hmax
  exact ⟨le_of_abs_sub_half hlaw (by push_cast; linarith), ge_of_abs_sub_half hlaw (by push_cast; linarith)⟩

theorem lutEntry_zero {c : Config.LutParams} (hlaw : LutLaw c 0) : lutEntry c 0 = 0 := by
  rw [LutLaw, Nat.cast_zero, zero_div, Real.arctan_zero, mul_zero] at hlaw
  exact le_antisymm (ge_of_abs_sub_half hlaw (by norm_num)) (le_of_abs_sub_half hlaw (by norm_num))

/-- The fallback reads no entry, so it stays in the range it has at the default table. -/
theorem lutAngle_range {c : Config.LutParams} (hcoef : c.coef = 14) (hsize : c.size = 2 ^ 18) (hfallback : c.fallback = 5215)
    {ay ax : Nat} (h : ¬(ax = 0 ∧ ay = 0)) (hlaw : LutReadLawful c ay ax) : 0 ≤ lutAngle c ay ax ∧ lutAngle c ay ax ≤ 8192 := by
  by_cases hin : 0 < ax ∧ ay * 2 ^ c.coef / ax < c.size
  · rw [lutAngle, if_pos hin]
    exact lutEntry_range (hlaw (Int.natCast_ne_zero.mpr hin.1.ne') hin.2)
  · have hdefault : lutAngle c ay ax = lutAngle Config.defaultLut ay ax := by
      rw [lutAngle, lutAngle, if_neg hin, if_neg (by rwa [hcoef, hsize] at hin), hfallback]
      rfl
    rw [hdefault]
    exact lutAngle_default_range ay ax h

theorem atanLut_range {p : Config.Params} (hcoef : p.lut.coef = 14) (hsize : p.lut.size = 2 ^ 18) (hfallback : p.lut.fallback = 5215)
    {y x : Int} (hlaw : LutReadLawful p.lut y x) : -16384 ≤ atanLut p y x ∧ atanLut p y x ≤ 16384 := by
  rw [atanLut]
  split
  · decide
  · next h =>
    obtain ⟨hlow, hhigh⟩ := lutAngle_range hcoef hsize hfallback (by omega) (lutReadLawful_natAbs hlaw)
    exact quad_range y x hlow (by omega)

theorem atanLut_negative_axis {p : Config.Params} (hsize : p.lut.size = 2 ^ 18) {x : Int} (hx : x < 0)
    (hlaw : LutReadLawful p.lut 0 x) : atanLut p 0 x = 16384 := by
  have hindex : Int.natAbs 0 * 2 ^ p.lut.coef / x.natAbs = 0 := by rw [Int.natAbs_zero, Nat.zero_mul, Nat.zero_div]
  have hsize0 : 0 < p.lut.size := by rw [hsize]; decide
  have hentry := hlaw hx.ne (by rwa [hindex])
  rw [hindex] at hentry
  rw [atanLut, if_neg fun h => hx.ne h.1, lutAngle, hindex, if_pos ⟨Int.natAbs_pos.mpr hx.ne, hsize0⟩, lutEntry_zero hentry,
    quad_zero_of_negative_axis hx]

/-- Settles O35. -/
theorem arctangentRanges : Obligations.ArctangentRanges := by
  refine fun p => ⟨⟨atanExact_origin p, if_pos ⟨rfl, rfl⟩, if_pos ⟨rfl, rfl⟩⟩, fun hlaw y x => ?_, fun hfast y x => ?_,
    fun hcoef hsize hfallback y x hlaw => ?_⟩
  · obtain ⟨hlow, hhigh⟩ := atanExact_range hlaw y x
    exact ⟨hlow, hhigh, fun hy hx => hy ▸ atanExact_negative_axis hlaw hx⟩
  · obtain ⟨hlow, hhigh⟩ := atanFast_default_range hfast y x
    exact ⟨hlow, hhigh, fun hy hx => hy ▸ atanFast_negative_axis p hx⟩
  · obtain ⟨hlow, hhigh⟩ := atanLut_range hcoef hsize hfallback hlaw
    exact ⟨hlow, hhigh, fun hy hx => hy ▸ atanLut_negative_axis hsize hx (hy ▸ hlaw)⟩

end Sys2Proof.Machine
end

section
/-! SUPPORT. The accuracy of ATAN_FAST (42_demodulators.md R243, R247): the polynomial less the angle, as a function of the ratio of
the coordinates, rises and falls in turn between the near-roots of its slope, so it is bounded by its values there. -/

namespace Sys2Proof.Machine

/-- R243. The polynomial of ATAN_FAST over the reals, at the default coefficients. -/
noncomputable def fastPoly (t : ℝ) : ℝ :=
  5214.490 * t - 1722.574 * t ^ 3 + 939.469 * t ^ 5 - 443.985 * t ^ 7 + 108.659 * t ^ 9

noncomputable def fastError (t : ℝ) : ℝ := fastPoly t - 2 ^ 14 / Real.pi * Real.arctan t

/-- The derivative of `fastError`, times `1 + t^2`, as a polynomial in `u = t^2`. -/
noncomputable def fastSlope (u : ℝ) : ℝ :=
  (1 + u) * (5214.490 - 5167.722 * u + 4697.345 * u ^ 2 - 3107.895 * u ^ 3 + 977.931 * u ^ 4) - 2 ^ 14 / Real.pi

theorem hasDerivAt_fastError (t : ℝ) : HasDerivAt fastError (fastSlope (t ^ 2) / (1 + t ^ 2)) t := by
  have hpoly : HasDerivAt fastPoly
      (5214.490 * 1 - 1722.574 * (((3 : Nat) : ℝ) * t ^ 2) + 939.469 * (((5 : Nat) : ℝ) * t ^ 4)
        - 443.985 * (((7 : Nat) : ℝ) * t ^ 6) + 108.659 * (((9 : Nat) : ℝ) * t ^ 8)) t :=
    (((((hasDerivAt_id t).const_mul _).sub ((hasDerivAt_pow 3 t).const_mul _)).add ((hasDerivAt_pow 5 t).const_mul _)).sub
      ((hasDerivAt_pow 7 t).const_mul _)).add ((hasDerivAt_pow 9 t).const_mul _)
  have hval : fastSlope (t ^ 2) / (1 + t ^ 2) =
      5214.490 * 1 - 1722.574 * (((3 : Nat) : ℝ) * t ^ 2) + 939.469 * (((5 : Nat) : ℝ) * t ^ 4)
        - 443.985 * (((7 : Nat) : ℝ) * t ^ 6) + 108.659 * (((9 : Nat) : ℝ) * t ^ 8)
        - 2 ^ 14 / Real.pi * (1 / (1 + t ^ 2)) := by
    rw [fastSlope, sub_div, mul_div_cancel_left₀ _ (by positivity)]
    push_cast
    ring
  rw [hval]
  exact hpoly.sub ((Real.hasDerivAt_arctan t).const_mul _)

/-! Between two of the points chosen. -/

/-- Where the slope, or its negative, is nearly nowhere below 0, the error stays between its values at the ends. -/
theorem abs_fastError_le {σ a b t : ℝ} (hσ : |σ| = 1) (ha : 0 ≤ a) (hb : b ≤ a + 0.28)
    (hslope : ∀ u, a ^ 2 ≤ u → u ≤ b ^ 2 → -0.02 ≤ σ * fastSlope u)
    (hleft : |fastError a| ≤ 0.063) (hright : |fastError b| ≤ 0.063) (hat : a ≤ t) (htb : t ≤ b) : |fastError t| < 0.07 := by
  have hderiv : ∀ s, HasDerivAt (fun s => σ * fastError s + 0.02 * s) (σ * (fastSlope (s ^ 2) / (1 + s ^ 2)) + 0.02 * 1) s :=
    fun s => ((hasDerivAt_fastError s).const_mul σ).add ((hasDerivAt_id s).const_mul _)
  have hmono : MonotoneOn (fun s => σ * fastError s + 0.02 * s) (Set.Icc a b) := by
    refine monotoneOn_of_deriv_nonneg (convex_Icc a b) (fun s _ => (hderiv s).continuousAt.continuousWithinAt)
      (fun s _ => (hderiv s).differentiableAt.differentiableWithinAt) fun s hs => ?_
    rw [interior_Icc] at hs
    have hsq := hslope (s ^ 2) (pow_le_pow_left₀ ha hs.1.le 2) (pow_le_pow_left₀ (ha.trans hs.1.le) hs.2.le 2)
    have hquot : -0.02 ≤ σ * fastSlope (s ^ 2) / (1 + s ^ 2) :=
      (le_div_iff₀ (by positivity)).mpr (by linarith [sq_nonneg s])
    rw [(hderiv s).deriv, ← mul_div_assoc]
    linarith
  have hup := hmono ⟨le_refl a, hat.trans htb⟩ ⟨hat, htb⟩ hat
  have hdown := hmono ⟨hat, htb⟩ ⟨hat.trans htb, le_refl b⟩ htb
  have habs : ∀ s, |fastError s| = |σ * fastError s| := fun s => by rw [abs_mul, hσ, one_mul]
  rw [habs, abs_le] at hleft hright
  rw [habs, abs_lt]
  simp only at hup hdown
  constructor <;> linarith

/-- The Bernstein products of degree 5 on an interval. -/
theorem bernstein_nonneg {A B u : ℝ} (hA : A ≤ u) (hB : u ≤ B) :
    0 ≤ (B - u) ^ 5 ∧ 0 ≤ (u - A) * (B - u) ^ 4 ∧ 0 ≤ (u - A) ^ 2 * (B - u) ^ 3 ∧ 0 ≤ (u - A) ^ 3 * (B - u) ^ 2 ∧
    0 ≤ (u - A) ^ 4 * (B - u) ∧ 0 ≤ (u - A) ^ 5 := by
  have hA' := sub_nonneg.mpr hA
  have hB' := sub_nonneg.mpr hB
  refine ⟨?_, ?_, ?_, ?_, ?_, ?_⟩ <;> positivity

/-! The signs of the slope between the points chosen, by Bernstein's form. -/

theorem fastSlope_sign_first {u : ℝ} (hA : 0 ^ 2 ≤ u) (hB : u ≤ 0.134 ^ 2) : -0.02 ≤ -1 * fastSlope u := by
  obtain ⟨b0, b1, b2, b3, b4, b5⟩ := bernstein_nonneg hA hB
  obtain ⟨hlow, hhigh⟩ := unit_bounds
  rw [fastSlope]
  linarith

theorem fastSlope_sign_second {u : ℝ} (hA : 0.134 ^ 2 ≤ u) (hB : u ≤ 0.396 ^ 2) : -0.02 ≤ 1 * fastSlope u := by
  obtain ⟨b0, b1, b2, b3, b4, b5⟩ := bernstein_nonneg hA hB
  obtain ⟨hlow, hhigh⟩ := unit_bounds
  rw [fastSlope]
  linarith

theorem fastSlope_sign_third {u : ℝ} (hA : 0.396 ^ 2 ≤ u) (hB : u ≤ 0.635 ^ 2) : -0.02 ≤ -1 * fastSlope u := by
  obtain ⟨b0, b1, b2, b3, b4, b5⟩ := bernstein_nonneg hA hB
  obtain ⟨hlow, hhigh⟩ := unit_bounds
  rw [fastSlope]
  linarith

theorem fastSlope_sign_fourth {u : ℝ} (hA : 0.635 ^ 2 ≤ u) (hB : u ≤ 0.829 ^ 2) : -0.02 ≤ 1 * fastSlope u := by
  obtain ⟨b0, b1, b2, b3, b4, b5⟩ := bernstein_nonneg hA hB
  obtain ⟨hlow, hhigh⟩ := unit_bounds
  rw [fastSlope]
  linarith

theorem fastSlope_sign_fifth {u : ℝ} (hA : 0.829 ^ 2 ≤ u) (hB : u ≤ 0.9557 ^ 2) : -0.02 ≤ -1 * fastSlope u := by
  obtain ⟨b0, b1, b2, b3, b4, b5⟩ := bernstein_nonneg hA hB
  obtain ⟨hlow, hhigh⟩ := unit_bounds
  rw [fastSlope]
  linarith

theorem fastSlope_sign_last {u : ℝ} (hA : 0.9557 ^ 2 ≤ u) (hB : u ≤ 1 ^ 2) : -0.02 ≤ 1 * fastSlope u := by
  obtain ⟨b0, b1, b2, b3, b4, b5⟩ := bernstein_nonneg hA hB
  obtain ⟨hlow, hhigh⟩ := unit_bounds
  rw [fastSlope]
  linarith

/-! The values at the points chosen. -/

/-- The angle of a ratio, between sums of the series. -/
theorem unit_mul_arctan_bounds {s : ℝ} (hs : 0 ≤ s) (hsum : 0 ≤ arctanSum 6 s) :
    5215.1891 * arctanSum 6 s ≤ 2 ^ 14 / Real.pi * Real.arctan s ∧
    2 ^ 14 / Real.pi * Real.arctan s ≤ 5215.1893 * arctanSum 7 s := by
  obtain ⟨hlow, hhigh⟩ := unit_bounds
  have hge := arctanSum_alternates 6 hs
  have hle := arctanSum_alternates 7 hs
  norm_num only at hge hle
  exact ⟨mul_le_mul hlow.le (by linarith) hsum unit_pos.le,
    mul_le_mul hhigh.le (by linarith) (Real.arctan_nonneg.mpr hs) (by norm_num)⟩

theorem abs_fastError_of_small {t : ℝ} (ht : 0 ≤ t) (hsum : 0 ≤ arctanSum 6 t)
    (hlow : -0.063 ≤ fastPoly t - 5215.1893 * arctanSum 7 t) (hhigh : fastPoly t - 5215.1891 * arctanSum 6 t ≤ 0.063) :
    |fastError t| ≤ 0.063 := by
  obtain ⟨hge, hle⟩ := unit_mul_arctan_bounds ht hsum
  rw [fastError, abs_le]
  constructor <;> linarith

/-- A ratio and `(1 - t) / (1 + t)` have an eighth of a turn between them. -/
theorem fastError_eq_reflected {t s : ℝ} (hmul : t * s < 1) (hs : t + s = 1 - t * s) :
    fastError t = fastPoly t - 4096 + 2 ^ 14 / Real.pi * Real.arctan s := by
  have hadd := Real.arctan_add hmul
  rw [hs, div_self (sub_pos.mpr hmul).ne', Real.arctan_one] at hadd
  have hunit : 2 ^ 14 / Real.pi * (Real.pi / 4) = 4096 := by rw [← mul_div_assoc, unit_mul_pi]; norm_num
  rw [fastError, eq_sub_of_add_eq hadd, mul_sub, hunit]
  ring

theorem abs_fastError_of_large {t s : ℝ} (hmul : t * s < 1) (hst : t + s = 1 - t * s) (hs : 0 ≤ s) (hsum : 0 ≤ arctanSum 6 s)
    (hlow : -0.063 ≤ fastPoly t - 4096 + 5215.1891 * arctanSum 6 s)
    (hhigh : fastPoly t - 4096 + 5215.1893 * arctanSum 7 s ≤ 0.063) : |fastError t| ≤ 0.063 := by
  obtain ⟨hge, hle⟩ := unit_mul_arctan_bounds hs hsum
  rw [fastError_eq_reflected hmul hst, abs_le]
  constructor <;> linarith

theorem abs_fastError_zero : |fastError 0| ≤ 0.063 := by
  norm_num [fastError, fastPoly]

theorem abs_fastError_0134 : |fastError 0.134| ≤ 0.063 := by
  refine abs_fastError_of_small (by norm_num) ?_ ?_ ?_ <;> norm_num [fastPoly, arctanSum, Finset.sum_range_succ]

theorem abs_fastError_0396 : |fastError 0.396| ≤ 0.063 := by
  refine abs_fastError_of_small (by norm_num) ?_ ?_ ?_ <;> norm_num [fastPoly, arctanSum, Finset.sum_range_succ]

theorem abs_fastError_0635 : |fastError 0.635| ≤ 0.063 := by
  refine abs_fastError_of_large (s := 73 / 327) (by norm_num) (by norm_num) (by norm_num) ?_ ?_ ?_ <;>
    norm_num [fastPoly, arctanSum, Finset.sum_range_succ]

theorem abs_fastError_0829 : |fastError 0.829| ≤ 0.063 := by
  refine abs_fastError_of_large (s := 171 / 1829) (by norm_num) (by norm_num) (by norm_num) ?_ ?_ ?_ <;>
    norm_num [fastPoly, arctanSum, Finset.sum_range_succ]

theorem abs_fastError_09557 : |fastError 0.9557| ≤ 0.063 := by
  refine abs_fastError_of_large (s := 443 / 19557) (by norm_num) (by norm_num) (by norm_num) ?_ ?_ ?_ <;>
    norm_num [fastPoly, arctanSum, Finset.sum_range_succ]

theorem abs_fastError_one : |fastError 1| ≤ 0.063 := by
  refine abs_fastError_of_large (s := 0) (by norm_num) (by norm_num) (by norm_num) ?_ ?_ ?_ <;>
    norm_num [fastPoly, arctanSum, Finset.sum_range_succ]

/-- R247. The polynomial alone is within 0.07 of the angle in the first eighth of a turn. -/
theorem abs_fastError_lt {t : ℝ} (h0 : 0 ≤ t) (h1 : t ≤ 1) : |fastError t| < 0.07 := by
  rcases le_total t 0.134 with h134 | h134
  · exact abs_fastError_le (σ := -1) (by norm_num) (by norm_num) (by norm_num) (fun _ => fastSlope_sign_first)
      abs_fastError_zero abs_fastError_0134 h0 h134
  rcases le_total t 0.396 with h396 | h396
  · exact abs_fastError_le (σ := 1) (by norm_num) (by norm_num) (by norm_num) (fun _ => fastSlope_sign_second)
      abs_fastError_0134 abs_fastError_0396 h134 h396
  rcases le_total t 0.635 with h635 | h635
  · exact abs_fastError_le (σ := -1) (by norm_num) (by norm_num) (by norm_num) (fun _ => fastSlope_sign_third)
      abs_fastError_0396 abs_fastError_0635 h396 h635
  rcases le_total t 0.829 with h829 | h829
  · exact abs_fastError_le (σ := 1) (by norm_num) (by norm_num) (by norm_num) (fun _ => fastSlope_sign_fourth)
      abs_fastError_0635 abs_fastError_0829 h635 h829
  rcases le_total t 0.9557 with h9557 | h9557
  · exact abs_fastError_le (σ := -1) (by norm_num) (by norm_num) (by norm_num) (fun _ => fastSlope_sign_fifth)
      abs_fastError_0829 abs_fastError_09557 h829 h9557
  · exact abs_fastError_le (σ := 1) (by norm_num) (by norm_num) (by norm_num) (fun _ => fastSlope_sign_last)
      abs_fastError_09557 abs_fastError_one h9557 h1

/-! The rounded value (R243, R246). -/

/-- The fraction that ATAN_FAST rounds is the polynomial at the ratio. -/
theorem fastNumerator_default_div {n q : Int} (hq : 0 < q) :
    (fastNumerator Config.defaultFast n q : ℝ) / ((1000 * q ^ 9 : Int) : ℝ) = fastPoly ((n : ℝ) / q) := by
  have hqr : (q : ℝ) ≠ 0 := by exact_mod_cast hq.ne'
  simp only [fastNumerator, Config.defaultFast, fastPoly]
  push_cast
  field_simp
  ring

theorem fastRounded_default_spec {n q : Int} (hn : 0 ≤ n) (hq : 0 < q) (h : n ≤ q) :
    |(fastRounded Config.defaultFast n q : ℝ) - 2 ^ 14 / Real.pi * Real.arctan ((n : ℝ) / q)| < 0.57 := by
  have hqr : (0 : ℝ) < q := by exact_mod_cast hq
  have hnr : (0 : ℝ) ≤ n := by exact_mod_cast hn
  have hround := rhaz_spec (fastNumerator Config.defaultFast n q) (q := 1000 * q ^ 9) (by positivity)
  rw [fastNumerator_default_div hq] at hround
  have herror := abs_fastError_lt (div_nonneg hnr hqr.le) ((div_le_one hqr).mpr (by exact_mod_cast h))
  refine (abs_sub_le _ _ _).trans_lt ((add_lt_add_of_le_of_lt hround herror).trans_le ?_)
  norm_num

/-- Settles O34. -/
theorem atanFastIsWithinItsBound : Obligations.AtanFastIsWithinItsBound := by
  intro p hfast y x h _ _
  rw [atanFast, if_neg h, hfast]
  refine (abs_quad_sub_realAngle _ y x).trans_lt ?_
  split
  · next hle =>
    have hx : (0 : Int) < x.natAbs := by omega
    rw [realAngle_of_pos _ hx]
    exact fastRounded_default_spec (Int.natCast_nonneg _) hx hle
  · next hgt =>
    have hy : (0 : Int) < y.natAbs := by omega
    have hspec := fastRounded_default_spec (Int.natCast_nonneg x.natAbs) hy (by omega)
    rw [realAngle_of_im_pos hy (Int.natCast_nonneg _), abs_sub_comm]
    push_cast at hspec ⊢
    convert hspec using 2
    ring

end Sys2Proof.Machine
end

section
/-! SUPPORT. The cosine in fixed point (41_decimation.md R205, log 13): how far the scaled series is from the real cosine. -/

namespace Sys2Proof.Machine

theorem cosOne_cast : (cosOne : ℝ) = 10 ^ 15 := by norm_num [cosOne]

theorem abs_natDiv_sub_le (a : Nat) {q : Nat} (hq : 0 < q) : |((a / q : Nat) : ℝ) - (a : ℝ) / q| ≤ 1 := by
  have hqr : (0 : ℝ) < q := by exact_mod_cast hq
  have hlow : (a : ℝ) / q < (a / q : Nat) + 1 := (div_lt_iff₀ hqr).mpr (by
    rw [add_one_mul]
    exact_mod_cast Nat.lt_div_mul_add (a := a) hq)
  have hhigh : ((a / q : Nat) : ℝ) ≤ (a : ℝ) / q := Nat.cast_div_le
  rw [abs_le]
  constructor <;> linarith

/-! The series in integers. -/

/-- Term `k` of the cosine's series, as `cosSeries` steps it. -/
def cosTerm (t : Nat) : Nat → Nat
  | 0 => cosOne
  | k + 1 => cosTerm t k * t / cosOne / ((2 * k + 1) * (2 * k + 2))

theorem cosSeries_eq_sum (t n k : Nat) :
    cosSeries t n k (cosTerm t k) = ∑ j ∈ Finset.range n, (-1) ^ (k + j) * (cosTerm t (k + j) : Int) := by
  induction n generalizing k with
  | zero => rfl
  | succ n ih =>
    have hsign : (if k % 2 = 0 then (cosTerm t k : Int) else -(cosTerm t k : Int)) = (-1) ^ k * (cosTerm t k : Int) := by
      split
      · next h => rw [(Nat.even_iff.mpr h).neg_one_pow, one_mul]
      · next h => rw [(Nat.not_even_iff_odd.mp fun he => h (Nat.even_iff.mp he)).neg_one_pow, neg_one_mul]
    have hshift : ∀ j, k + 1 + j = k + (j + 1) := fun j => by omega
    rw [cosSeries, hsign, Finset.sum_range_succ', Nat.add_zero, add_comm]
    have hrest := ih (k + 1)
    simp only [hshift] at hrest
    exact congrArg (· + _) hrest

/-! The terms are those of the real series, rounded down at each step. -/

/-- The real term `k` of the cosine's series of the squared argument `u`, in the scale. -/
noncomputable def realCosTerm (u : ℝ) (k : Nat) : ℝ := 10 ^ 15 * (u ^ k / (2 * k).factorial)

theorem realCosTerm_succ (u : ℝ) (k : Nat) :
    realCosTerm u (k + 1) = realCosTerm u k * (u / ((2 * k + 1) * (2 * k + 2))) := by
  have hfactorial : ((2 * (k + 1)).factorial : ℝ) = (2 * k + 2) * ((2 * k + 1) * (2 * k).factorial) := by
    rw [show 2 * (k + 1) = 2 * k + 1 + 1 from by omega, Nat.factorial_succ, Nat.factorial_succ]
    push_cast
    ring
  rw [realCosTerm, realCosTerm, hfactorial, pow_succ u k]
  field_simp

theorem cosTerm_succ_sub (t k : Nat) :
    |(cosTerm t (k + 1) : ℝ) - cosTerm t k * ((t : ℝ) / 10 ^ 15 / ((2 * k + 1) * (2 * k + 2)))| ≤ 1 := by
  have hdiv := abs_natDiv_sub_le (cosTerm t k * t) (q := cosOne * ((2 * k + 1) * (2 * k + 2))) (by simp [cosOne])
  rw [← Nat.div_div_eq_div_mul] at hdiv
  have hquot : ((cosTerm t k * t : Nat) : ℝ) / (cosOne * ((2 * k + 1) * (2 * k + 2)) : Nat) =
      cosTerm t k * ((t : ℝ) / 10 ^ 15 / ((2 * k + 1) * (2 * k + 2))) := by
    push_cast
    rw [cosOne_cast, div_div, mul_div_assoc]
  rwa [hquot] at hdiv

/-- The error of a term: what the step rounds off, and the error before it shrunk by the next factor. -/
theorem cosTerm_error {t : Nat} (ht : t ≤ 10 ^ 16) (k : Nat) : |(cosTerm t k : ℝ) - realCosTerm (t / 10 ^ 15) k| ≤ 6 := by
  have htr : (t : ℝ) / 10 ^ 15 ≤ 10 := by
    have : (t : ℝ) ≤ 10 ^ 16 := by exact_mod_cast ht
    linarith
  induction k with
  | zero => norm_num [cosTerm, realCosTerm, cosOne_cast]
  | succ k ih =>
    have hstep := cosTerm_succ_sub t k
    have hfactor : 0 ≤ (t : ℝ) / 10 ^ 15 / ((2 * k + 1) * (2 * k + 2)) := by positivity
    have hcarried : |(cosTerm t k : ℝ) - realCosTerm (t / 10 ^ 15) k| * ((t : ℝ) / 10 ^ 15 / ((2 * k + 1) * (2 * k + 2))) ≤ 5 := by
      rcases k with _ | k
      · norm_num [cosTerm, realCosTerm, cosOne_cast]
      · have hshrunk : (t : ℝ) / 10 ^ 15 / ((2 * (k + 1 : Nat) + 1) * (2 * (k + 1 : Nat) + 2)) ≤ 10 / 12 := by
          have hk : (0 : ℝ) ≤ k := Nat.cast_nonneg k
          refine div_le_div₀ (by norm_num) htr (by norm_num) ?_
          push_cast
          nlinarith
        exact (mul_le_mul ih hshrunk hfactor (by norm_num)).trans (by norm_num)
    rw [realCosTerm_succ]
    have hscaled : |(cosTerm t k : ℝ) * ((t : ℝ) / 10 ^ 15 / ((2 * k + 1) * (2 * k + 2)))
        - realCosTerm (t / 10 ^ 15) k * ((t : ℝ) / 10 ^ 15 / ((2 * k + 1) * (2 * k + 2)))| ≤ 5 := by
      rwa [← sub_mul, abs_mul, abs_of_nonneg hfactor]
    refine (abs_sub_le _ _ _).trans ((add_le_add hstep hscaled).trans ?_)
    norm_num

theorem cosSeries_error {t : Nat} (ht : t ≤ 10 ^ 16) :
    |(cosSeries t 16 0 cosOne : ℝ) - ∑ k ∈ Finset.range 16, (-1) ^ k * realCosTerm (t / 10 ^ 15) k| ≤ 96 := by
  have hseries := cosSeries_eq_sum t 16 0
  simp only [Nat.zero_add] at hseries
  rw [show cosOne = cosTerm t 0 from rfl, hseries]
  push_cast
  rw [← Finset.sum_sub_distrib]
  refine (Finset.abs_sum_le_sum_abs _ _).trans ((Finset.sum_le_card_nsmul _ _ 6 fun k _ => ?_).trans (by norm_num))
  rw [← mul_sub, abs_mul, abs_neg_one_pow, one_mul]
  exact cosTerm_error ht k

/-! Sixteen terms are enough. -/

/-- The terms of the cosine's series fall at least as `16^-k`, for `(4 x)^(2 k) / (2 k)!` is at most `exp (4 x)`. -/
theorem cos_term_le {x : ℝ} (hx0 : 0 ≤ x) (hx : x ≤ 13 / 4) (k : Nat) :
    ‖(-1) ^ k * x ^ (2 * k) / (2 * k).factorial‖ ≤ 450000 * (1 / 16) ^ k := by
  have hexp : Real.exp (4 * x) ≤ 450000 := by
    calc Real.exp (4 * x) ≤ Real.exp ((13 : Nat) : ℝ) := Real.exp_le_exp.mpr (by push_cast; linarith)
      _ = Real.exp 1 ^ 13 := (Real.exp_one_pow 13).symm
      _ ≤ 2.7182818286 ^ 13 := pow_le_pow_left₀ (Real.exp_pos 1).le Real.exp_one_lt_d9.le 13
      _ ≤ 450000 := by norm_num
  have hpow := (Real.pow_div_factorial_le_exp (4 * x) (mul_nonneg zero_le_four hx0) (2 * k)).trans hexp
  rw [mul_pow, pow_mul 4 2 k] at hpow
  have hterm : ‖(-1) ^ k * x ^ (2 * k) / (2 * k).factorial‖ = x ^ (2 * k) / (2 * k).factorial := by
    rw [Real.norm_eq_abs, abs_div, abs_mul, abs_neg_one_pow, one_mul, abs_of_nonneg (by positivity), abs_of_nonneg (by positivity)]
  rw [hterm, one_div, inv_pow, ← div_eq_mul_inv, le_div_iff₀ (by positivity)]
  norm_num at hpow ⊢
  calc x ^ (2 * k) / (2 * k).factorial * 16 ^ k = 16 ^ k * x ^ (2 * k) / (2 * k).factorial := by ring
    _ ≤ 450000 := hpow

theorem realCosTerm_sum_error {u : ℝ} (h0 : 0 ≤ u) (hu : u ≤ 10) :
    |∑ k ∈ Finset.range 16, (-1) ^ k * realCosTerm u k - 10 ^ 15 * Real.cos √u| ≤ 100 := by
  have hsqrt : √u ≤ 13 / 4 := Real.sqrt_le_iff.mpr ⟨by norm_num, by linarith⟩
  have htail := norm_sub_le_of_geometric_bound_of_hasSum (by norm_num) (cos_term_le (Real.sqrt_nonneg u) hsqrt)
    (Real.hasSum_cos √u) 16
  have hsum : ∑ k ∈ Finset.range 16, (-1) ^ k * realCosTerm u k =
      10 ^ 15 * ∑ k ∈ Finset.range 16, (-1) ^ k * √u ^ (2 * k) / (2 * k).factorial := by
    rw [Finset.mul_sum]
    refine Finset.sum_congr rfl fun k _ => ?_
    rw [pow_mul, Real.sq_sqrt h0, realCosTerm]
    ring
  rw [hsum, ← mul_sub, abs_mul, abs_of_pos (by positivity), ← Real.norm_eq_abs]
  exact (mul_le_mul_of_nonneg_left htail (by positivity)).trans (by norm_num)

/-! The angle. -/

/-- Roots of near squares are near. -/
theorem abs_sqrt_sub_mul_le {u b : ℝ} (hu : 0 ≤ u) (hb : 0 ≤ b) : |√u - b| * b ≤ |u - b ^ 2| := by
  have hprod : |u - b ^ 2| = |√u - b| * (√u + b) := by
    calc |u - b ^ 2| = |(√u + b) * (√u - b)| := by rw [← sq_sub_sq, Real.sq_sqrt hu]
      _ = |√u - b| * (√u + b) := by rw [abs_mul, abs_of_nonneg (add_nonneg (Real.sqrt_nonneg u) hb), mul_comm]
  rw [hprod]
  exact mul_le_mul_of_nonneg_left (le_add_of_nonneg_left (Real.sqrt_nonneg u)) (abs_nonneg _)

theorem cosAngle_error {m n : Nat} (hn : 0 < n) (hm : m ≤ n) :
    |((cosPi * m / n : Nat) : ℝ) / 10 ^ 15 - Real.pi * (m / n)| ≤ 2 / 10 ^ 15 := by
  have hratio : (m : ℝ) / n ≤ 1 := (div_le_one (by exact_mod_cast hn)).mpr (by exact_mod_cast hm)
  have hratio0 : (0 : ℝ) ≤ m / n := by positivity
  obtain ⟨hlow, hhigh⟩ := abs_le.mp (abs_natDiv_sub_le (cosPi * m) hn)
  have hquot : ((cosPi * m : Nat) : ℝ) / n = 3141592653589793 * (m / n) := by
    rw [cosPi]
    push_cast
    ring
  rw [hquot] at hlow hhigh
  have hpi : Real.pi * (m / n) ≤ 3.141592653589794 * (m / n) :=
    mul_le_mul_of_nonneg_right (by linarith [Real.pi_lt_d20]) hratio0
  have hpi' : 3.141592653589793 * (m / n) ≤ Real.pi * (m / n) :=
    mul_le_mul_of_nonneg_right (by linarith [Real.pi_gt_d20]) hratio0
  rw [abs_le]
  constructor <;> linarith

/-- The squared angle, in the scale, is within a few units of its real value. -/
theorem cosAngle_sq_error {m n : Nat} (hn : 0 < n) (hm : m ≤ n) :
    |((cosPi * m / n * (cosPi * m / n) / cosOne : Nat) : ℝ) / 10 ^ 15 - (Real.pi * (m / n)) ^ 2| ≤ 2 / 10 ^ 14 := by
  have hangle := cosAngle_error hn hm
  have hdiv := abs_natDiv_sub_le (cosPi * m / n * (cosPi * m / n)) (q := cosOne) (by decide)
  have hratio : (m : ℝ) / n ≤ 1 := (div_le_one (by exact_mod_cast hn)).mpr (by exact_mod_cast hm)
  have hb : Real.pi * (m / n) ≤ 3.15 := by nlinarith [Real.pi_pos, Real.pi_lt_d2]
  have hb0 : 0 ≤ Real.pi * ((m : ℝ) / n) := by positivity
  have ha0 : (0 : ℝ) ≤ (cosPi * m / n : Nat) / 10 ^ 15 := by positivity
  rw [Nat.cast_mul, cosOne_cast] at hdiv
  generalize cosPi * m / n * (cosPi * m / n) / cosOne = t at hdiv ⊢
  generalize Real.pi * ((m : ℝ) / n) = b at hangle hb hb0 ⊢
  generalize ((cosPi * m / n : Nat) : ℝ) = α at hdiv hangle ha0
  have hround : |(t : ℝ) / 10 ^ 15 - (α / 10 ^ 15) ^ 2| ≤ 1 / 10 ^ 15 := by
    rw [div_pow, pow_two, pow_two, ← div_div, ← sub_div, abs_div, abs_of_pos (by positivity : (0 : ℝ) < 10 ^ 15)]
    exact div_le_div_of_nonneg_right hdiv (by positivity)
  have hsum : |α / 10 ^ 15 + b| ≤ 6.5 := by
    rw [abs_of_nonneg (add_nonneg ha0 hb0)]
    linarith [(abs_le.mp hangle).2]
  have hsquare : |(α / 10 ^ 15) ^ 2 - b ^ 2| ≤ 6.5 * (2 / 10 ^ 15) := by
    rw [sq_sub_sq, abs_mul]
    exact mul_le_mul hsum hangle (abs_nonneg _) (by norm_num)
  refine (abs_sub_le _ _ _).trans ((add_le_add hround hsquare).trans ?_)
  norm_num

/-- For the angles of the tap tables, the fixed-point cosine is exact to twelve digits. -/
theorem cosScaled_error {m n : Nat} (hm0 : 0 < m) (hm : m ≤ n) (hn : n ≤ 255) :
    |(cosScaled m n : ℝ) - 10 ^ 15 * Real.cos (Real.pi * (m / n))| ≤ 2000 := by
  have hn0 : 0 < n := hm0.trans_le hm
  have hle : cosPi * m / n ≤ cosPi := Nat.div_le_of_le_mul (by rw [mul_comm]; exact Nat.mul_le_mul_right _ hm)
  have ht : cosPi * m / n * (cosPi * m / n) / cosOne ≤ 10 ^ 16 :=
    (Nat.div_le_div_right (Nat.mul_le_mul hle hle)).trans (by decide)
  have htr : ((cosPi * m / n * (cosPi * m / n) / cosOne : Nat) : ℝ) / 10 ^ 15 ≤ 10 := by
    rw [div_le_iff₀ (by positivity)]
    exact_mod_cast ht
  have hangle : 3 / 255 ≤ Real.pi * ((m : ℝ) / n) := by
    have hratio : (1 : ℝ) / 255 ≤ m / n :=
      div_le_div₀ (Nat.cast_nonneg m) (by exact_mod_cast hm0) (by exact_mod_cast hn0) (by exact_mod_cast hn)
    nlinarith [Real.pi_gt_three]
  have hseries := cosSeries_error ht
  have hterms := realCosTerm_sum_error (by positivity) htr
  have hsquare := (abs_sqrt_sub_mul_le (by positivity) (by positivity)).trans (cosAngle_sq_error hn0 hm)
  have hroot := (mul_le_mul_of_nonneg_left hangle (abs_nonneg _)).trans hsquare
  have hcos := Real.abs_cos_sub_cos_le (√((cosPi * m / n * (cosPi * m / n) / cosOne : Nat) / 10 ^ 15)) (Real.pi * (m / n))
  have hscaled : |(10 : ℝ) ^ 15 * Real.cos √((cosPi * m / n * (cosPi * m / n) / cosOne : Nat) / 10 ^ 15)
      - 10 ^ 15 * Real.cos (Real.pi * (m / n))| ≤ 1800 := by
    rw [← mul_sub, abs_mul, abs_of_pos (by positivity)]
    linarith
  refine (abs_sub_le _ _ _).trans ((add_le_add hseries ((abs_sub_le _ _ _).trans (add_le_add hterms hscaled))).trans ?_)
  norm_num

end Sys2Proof.Machine
end

section
/-! SUPPORT. The default tap table (41_decimation.md R205). A tap is the floor of a function that falls with the ratio `m / n`, so it is
enough to know between which two neighbouring ratios of denominators up to 255 the function passes each integer, and that the
fixed-point value is clear of the integer at both. -/

namespace Sys2Proof.Machine

/-- The tap at the ratio `m / n`, times `100 * cosOne`, as the model computes it before it rounds down. -/
def tapValue (m n : Nat) : Int := 255 * (54 * (cosOne : Int) + 46 * cosScaled m n)

/-- R205. The tap at the ratio `x`, before rounding down. -/
noncomputable def realTap (x : ℝ) : ℝ := 255 * (0.54 + 0.46 * Real.cos (Real.pi * x))

theorem tapValue_error {m n : Nat} (hm0 : 0 < m) (hm : m ≤ n) (hn : n ≤ 255) :
    |(tapValue m n : ℝ) - 10 ^ 17 * realTap (m / n)| ≤ 255 * 46 * 2000 := by
  have hcos := cosScaled_error hm0 hm hn
  have hdiff : (tapValue m n : ℝ) - 10 ^ 17 * realTap (m / n) =
      255 * 46 * (cosScaled m n - 10 ^ 15 * Real.cos (Real.pi * (m / n))) := by
    rw [tapValue, realTap]
    push_cast [cosOne_cast]
    ring
  rw [hdiff, abs_mul, abs_of_pos (by norm_num)]
  linarith

theorem realTap_antitone {x y : ℝ} (hx : 0 ≤ x) (hxy : x ≤ y) (hy : y ≤ 1) : realTap y ≤ realTap x := by
  have hpi := Real.pi_pos
  have hcos := Real.cos_le_cos_of_nonneg_of_le_pi (mul_nonneg hpi.le hx) (mul_le_of_le_one_right hpi.le hy)
    (mul_le_mul_of_nonneg_left hxy hpi.le)
  rw [realTap, realTap]
  linarith

/-- The neighbouring ratios between which the function passes the integer `tap`: it is above it at `upNum / upDen`, where that is
not 0, and below it at `downNum / downDen`. -/
structure Crossing where
  tap : Nat
  upNum : Nat
  upDen : Nat
  downNum : Nat
  downDen : Nat

/-- The ratios are in range, neighbours among those of denominators up to 255, and clear of the integer. -/
def Crossing.Ok (c : Crossing) : Prop :=
  c.upNum ≤ c.upDen ∧ c.upDen ≤ 255 ∧ 0 < c.downNum ∧ c.downNum ≤ c.downDen ∧ c.downDen ≤ 255 ∧
  256 ≤ c.upDen + c.downDen ∧ c.downNum * c.upDen = c.upNum * c.downDen + 1 ∧
  (c.upNum = 0 ∨ (c.tap : Int) * 10 ^ 17 + 5 * 10 ^ 7 ≤ tapValue c.upNum c.upDen) ∧
  tapValue c.downNum c.downDen + 5 * 10 ^ 7 ≤ (c.tap : Int) * 10 ^ 17

def crossings : List Crossing :=
  [⟨21, 30, 31, 241, 249⟩, ⟨22, 233, 246, 18, 19⟩, ⟨23, 125, 134, 139, 149⟩, ⟨24, 198, 215, 233, 253⟩, ⟨25, 173, 190, 112, 123⟩,
   ⟨26, 73, 81, 210, 233⟩, ⟨27, 208, 233, 25, 28⟩, ⟨28, 215, 243, 192, 217⟩, ⟨29, 143, 163, 93, 106⟩, ⟨30, 208, 239, 47, 54⟩,
   ⟨31, 19, 22, 203, 235⟩, ⟨32, 6, 7, 217, 253⟩, ⟨33, 40, 47, 183, 215⟩, ⟨34, 202, 239, 71, 84⟩, ⟨35, 183, 218, 68, 81⟩,
   ⟨36, 5, 6, 211, 253⟩, ⟨37, 29, 35, 208, 251⟩, ⟨38, 205, 249, 14, 17⟩, ⟨39, 9, 11, 203, 248⟩, ⟨40, 196, 241, 61, 75⟩,
   ⟨41, 173, 214, 38, 47⟩, ⟨42, 131, 163, 86, 107⟩, ⟨43, 175, 219, 179, 224⟩, ⟨44, 58, 73, 147, 185⟩, ⟨45, 143, 181, 64, 81⟩,
   ⟨46, 194, 247, 11, 14⟩, ⟨47, 25, 32, 193, 247⟩, ⟨48, 129, 166, 136, 175⟩, ⟨49, 177, 229, 160, 207⟩, ⟨50, 143, 186, 153, 199⟩,
   ⟨51, 13, 17, 192, 251⟩, ⟨52, 124, 163, 159, 209⟩, ⟨53, 28, 37, 193, 255⟩, ⟨54, 131, 174, 64, 85⟩, ⟨55, 191, 255, 3, 4⟩,
   ⟨56, 117, 157, 79, 106⟩, ⟨57, 109, 147, 175, 236⟩, ⟨58, 166, 225, 121, 164⟩, ⟨59, 127, 173, 185, 252⟩, ⟨60, 84, 115, 103, 141⟩,
   ⟨61, 157, 216, 165, 227⟩, ⟨62, 115, 159, 149, 206⟩, ⟨63, 113, 157, 131, 182⟩, ⟨64, 53, 74, 154, 215⟩, ⟨65, 67, 94, 139, 195⟩,
   ⟨66, 61, 86, 144, 203⟩, ⟨67, 12, 17, 173, 245⟩, ⟨68, 111, 158, 137, 195⟩, ⟨69, 165, 236, 86, 123⟩, ⟨70, 167, 240, 151, 217⟩,
   ⟨71, 9, 13, 169, 244⟩, ⟨72, 51, 74, 173, 251⟩, ⟨73, 83, 121, 142, 207⟩, ⟨74, 170, 249, 99, 145⟩, ⟨75, 53, 78, 123, 181⟩,
   ⟨76, 117, 173, 140, 207⟩, ⟨77, 35, 52, 138, 205⟩, ⟨78, 136, 203, 67, 100⟩, ⟨79, 2, 3, 169, 253⟩, ⟨80, 148, 223, 75, 113⟩,
   ⟨81, 72, 109, 109, 165⟩, ⟨82, 167, 254, 48, 73⟩, ⟨83, 89, 136, 125, 191⟩, ⟨84, 99, 152, 71, 109⟩, ⟨85, 153, 236, 59, 91⟩,
   ⟨86, 20, 31, 151, 234⟩, ⟨87, 149, 232, 79, 123⟩, ⟨88, 101, 158, 140, 219⟩, ⟨89, 159, 250, 7, 11⟩, ⟨90, 145, 229, 19, 30⟩,
   ⟨91, 133, 211, 29, 46⟩, ⟨92, 133, 212, 32, 51⟩, ⟨93, 138, 221, 143, 229⟩, ⟨94, 156, 251, 23, 37⟩, ⟨95, 60, 97, 133, 215⟩,
   ⟨96, 157, 255, 149, 242⟩, ⟨97, 144, 235, 19, 31⟩, ⟨98, 111, 182, 86, 141⟩, ⟨99, 139, 229, 17, 28⟩, ⟨100, 148, 245, 29, 48⟩,
   ⟨101, 95, 158, 92, 153⟩, ⟨102, 76, 127, 79, 132⟩, ⟨103, 81, 136, 109, 183⟩, ⟨104, 147, 248, 131, 221⟩, ⟨105, 105, 178, 82, 139⟩,
   ⟨106, 91, 155, 64, 109⟩, ⟨107, 52, 89, 149, 255⟩, ⟨108, 25, 43, 132, 227⟩, ⟨109, 114, 197, 125, 216⟩, ⟨110, 19, 33, 129, 224⟩,
   ⟨111, 51, 89, 98, 171⟩, ⟨112, 142, 249, 73, 128⟩, ⟨113, 143, 252, 21, 37⟩, ⟨114, 48, 85, 109, 193⟩, ⟨115, 68, 121, 77, 137⟩,
   ⟨116, 85, 152, 118, 211⟩, ⟨117, 69, 124, 133, 239⟩, ⟨118, 98, 177, 67, 121⟩, ⟨119, 119, 216, 27, 49⟩, ⟨120, 91, 166, 108, 197⟩,
   ⟨121, 6, 11, 137, 251⟩, ⟨122, 108, 199, 127, 234⟩, ⟨123, 115, 213, 27, 50⟩, ⟨124, 137, 255, 36, 67⟩, ⟨125, 31, 58, 116, 217⟩,
   ⟨126, 92, 173, 117, 220⟩, ⟨127, 91, 172, 100, 189⟩, ⟨128, 10, 19, 129, 245⟩, ⟨129, 133, 254, 11, 21⟩, ⟨130, 25, 48, 112, 215⟩,
   ⟨131, 57, 110, 128, 247⟩, ⟨132, 50, 97, 83, 161⟩, ⟨133, 121, 236, 20, 39⟩, ⟨134, 127, 249, 76, 149⟩, ⟨135, 104, 205, 69, 136⟩,
   ⟨136, 55, 109, 109, 216⟩, ⟨137, 1, 2, 128, 255⟩, ⟨138, 127, 255, 1, 2⟩, ⟨139, 70, 141, 71, 143⟩, ⟨140, 79, 160, 119, 241⟩,
   ⟨141, 82, 167, 55, 112⟩, ⟨142, 104, 213, 21, 43⟩, ⟨143, 118, 243, 17, 35⟩, ⟨144, 14, 29, 113, 234⟩, ⟨145, 109, 227, 97, 202⟩,
   ⟨146, 74, 155, 53, 111⟩, ⟨147, 75, 158, 47, 99⟩, ⟨148, 59, 125, 76, 161⟩, ⟨149, 84, 179, 107, 228⟩, ⟨150, 118, 253, 7, 15⟩,
   ⟨151, 109, 235, 77, 166⟩, ⟨152, 77, 167, 83, 180⟩, ⟨153, 11, 24, 116, 253⟩, ⟨154, 77, 169, 113, 248⟩, ⟨155, 24, 53, 101, 223⟩,
   ⟨156, 9, 20, 113, 251⟩, ⟨157, 17, 38, 98, 219⟩, ⟨158, 4, 9, 113, 254⟩, ⟨159, 19, 43, 99, 224⟩, ⟨160, 18, 41, 101, 230⟩,
   ⟨161, 89, 204, 24, 55⟩, ⟨162, 62, 143, 49, 113⟩, ⟨163, 28, 65, 109, 253⟩, ⟨164, 107, 250, 3, 7⟩, ⟨165, 54, 127, 91, 214⟩,
   ⟨166, 49, 116, 79, 187⟩, ⟨167, 107, 255, 47, 112⟩, ⟨168, 5, 12, 103, 247⟩, ⟨169, 65, 157, 53, 128⟩, ⟨170, 81, 197, 44, 107⟩,
   ⟨171, 49, 120, 78, 191⟩, ⟨172, 88, 217, 73, 180⟩, ⟨173, 60, 149, 89, 221⟩, ⟨174, 101, 253, 2, 5⟩, ⟨175, 79, 199, 27, 68⟩,
   ⟨176, 67, 170, 54, 137⟩, ⟨177, 97, 248, 9, 23⟩, ⟨178, 40, 103, 87, 224⟩, ⟨179, 37, 96, 69, 179⟩, ⟨180, 57, 149, 44, 115⟩,
   ⟨181, 41, 108, 71, 187⟩, ⟨182, 55, 146, 81, 215⟩, ⟨183, 77, 206, 40, 107⟩, ⟨184, 89, 240, 56, 151⟩, ⟨185, 71, 193, 39, 106⟩,
   ⟨186, 27, 74, 77, 211⟩, ⟨187, 38, 105, 59, 163⟩, ⟨188, 89, 248, 14, 39⟩, ⟨189, 79, 222, 21, 59⟩, ⟨190, 85, 241, 6, 17⟩,
   ⟨191, 85, 243, 7, 20⟩, ⟨192, 43, 124, 60, 173⟩, ⟨193, 78, 227, 11, 32⟩, ⟨194, 78, 229, 31, 91⟩, ⟨195, 27, 80, 80, 237⟩,
   ⟨196, 1, 3, 85, 254⟩, ⟨197, 54, 163, 55, 166⟩, ⟨198, 21, 64, 64, 195⟩, ⟨199, 77, 237, 13, 40⟩, ⟨200, 37, 115, 65, 202⟩,
   ⟨201, 79, 248, 36, 113⟩, ⟨202, 35, 111, 76, 241⟩, ⟨203, 44, 141, 49, 157⟩, ⟨204, 67, 217, 21, 68⟩, ⟨205, 73, 239, 11, 36⟩,
   ⟨206, 42, 139, 55, 182⟩, ⟨207, 75, 251, 26, 87⟩, ⟨208, 70, 237, 13, 44⟩, ⟨209, 73, 250, 33, 113⟩, ⟨210, 43, 149, 71, 246⟩,
   ⟨211, 71, 249, 2, 7⟩, ⟨212, 69, 245, 20, 71⟩, ⟨213, 47, 169, 42, 151⟩, ⟨214, 14, 51, 67, 244⟩, ⟨215, 42, 155, 29, 107⟩,
   ⟨216, 27, 101, 50, 187⟩, ⟨217, 53, 201, 24, 91⟩, ⟨218, 59, 227, 13, 50⟩, ⟨219, 31, 121, 41, 160⟩, ⟨220, 26, 103, 51, 202⟩,
   ⟨221, 45, 181, 46, 185⟩, ⟨222, 58, 237, 35, 143⟩, ⟨223, 59, 245, 46, 191⟩, ⟨224, 9, 38, 59, 249⟩, ⟨225, 44, 189, 17, 73⟩,
   ⟨226, 51, 223, 43, 188⟩, ⟨227, 11, 49, 53, 236⟩, ⟨228, 13, 59, 54, 245⟩, ⟨229, 35, 162, 43, 199⟩, ⟨230, 29, 137, 47, 222⟩,
   ⟨231, 40, 193, 17, 82⟩, ⟨232, 15, 74, 44, 217⟩, ⟨233, 21, 106, 43, 217⟩, ⟨234, 47, 243, 6, 31⟩, ⟨235, 43, 228, 10, 53⟩,
   ⟨236, 9, 49, 43, 234⟩, ⟨237, 5, 28, 42, 235⟩, ⟨238, 17, 98, 38, 219⟩, ⟨239, 37, 220, 18, 107⟩, ⟨240, 41, 252, 7, 43⟩,
   ⟨241, 30, 191, 11, 70⟩, ⟨242, 18, 119, 23, 152⟩, ⟨243, 35, 241, 26, 179⟩, ⟨244, 5, 36, 31, 223⟩, ⟨245, 9, 68, 29, 219⟩,
   ⟨246, 32, 255, 31, 247⟩, ⟨247, 24, 203, 11, 93⟩, ⟨248, 20, 181, 21, 190⟩, ⟨249, 23, 225, 9, 88⟩, ⟨250, 18, 193, 7, 75⟩,
   ⟨251, 1, 12, 21, 251⟩, ⟨252, 15, 208, 7, 97⟩, ⟨253, 1, 17, 15, 254⟩, ⟨254, 10, 241, 1, 24⟩, ⟨255, 0, 1, 1, 255⟩]

theorem crossings_taps : crossings.map Crossing.tap = List.range' 21 235 := by decide +kernel

theorem crossings_ok : ∀ c ∈ crossings, c.Ok := by
  unfold Crossing.Ok
  decide +kernel

/-- No ratio of a denominator up to 255 is strictly between the two of a crossing. -/
theorem Crossing.Ok.ratio_split {c : Crossing} (h : c.Ok) {m n : Nat} (hn : n ≤ 255) :
    m * c.upDen ≤ c.upNum * n ∨ c.downNum * n ≤ m * c.downDen := by
  obtain ⟨-, -, -, -, -, hsum, hneighbours, -, -⟩ := h
  by_contra hbetween
  obtain ⟨hup, hdown⟩ := not_or.mp hbetween
  have hup' := Nat.succ_le_of_lt (Nat.lt_of_not_le hup)
  have hdown' := Nat.succ_le_of_lt (Nat.lt_of_not_le hdown)
  nlinarith [Nat.mul_le_mul_left c.downDen hup', Nat.mul_le_mul_left c.upDen hdown', congrArg (n * ·) hneighbours]

/-- At a greater ratio the tap is no greater, up to the error of the fixed-point cosine. -/
theorem tapValue_antitone {m n p q : Nat} (hm0 : 0 < m) (hm : m ≤ n) (hn : n ≤ 255) (hp0 : 0 < p) (hp : p ≤ q) (hq : q ≤ 255)
    (h : m * q ≤ p * n) :
    (tapValue p q : ℝ) < tapValue m n + 5 * 10 ^ 7 ∧ (tapValue p q : ℝ) < 10 ^ 17 * realTap (m / n) + 5 * 10 ^ 7 ∧
    10 ^ 17 * realTap (p / q) < tapValue m n + 5 * 10 ^ 7 := by
  have hnr : (0 : ℝ) < n := by exact_mod_cast hm0.trans_le hm
  have hqr : (0 : ℝ) < q := by exact_mod_cast hp0.trans_le hp
  have hratio : (m : ℝ) / n ≤ p / q := (div_le_div_iff₀ hnr hqr).mpr (by exact_mod_cast h)
  have hreal := realTap_antitone (by positivity) hratio ((div_le_one hqr).mpr (by exact_mod_cast hp))
  obtain ⟨hlow, hhigh⟩ := abs_le.mp (tapValue_error hm0 hm hn)
  obtain ⟨hlow', hhigh'⟩ := abs_le.mp (tapValue_error hp0 hp hq)
  refine ⟨?_, ?_, ?_⟩ <;> linarith

/-- Up to the upper ratio both functions have reached the integer, and from the lower one on neither has. -/
theorem Crossing.Ok.tap_le_iff {c : Crossing} (h : c.Ok) {m n : Nat} (hm0 : 0 < m) (hm : m ≤ n) (hn : n ≤ 255) :
    (c.tap : Int) * 10 ^ 17 ≤ tapValue m n ↔ (c.tap : ℝ) ≤ realTap (m / n) := by
  have hcast : (c.tap : Int) * 10 ^ 17 ≤ tapValue m n ↔ (c.tap : ℝ) * 10 ^ 17 ≤ tapValue m n := by exact_mod_cast Iff.rfl
  have hsplit := h.ratio_split (m := m) hn
  obtain ⟨hup, hupDen, hdown0, hdown, hdownDen, hsum, -, hclearUp, hclearDown⟩ := h
  rw [hcast]
  rcases hsplit with hle | hge
  · have hup0 : 0 < c.upNum := by
      by_contra hzero
      rw [Nat.eq_zero_of_not_pos hzero, Nat.zero_mul] at hle
      have := Nat.mul_pos hm0 (show 0 < c.upDen by omega)
      omega
    have hclear : (c.tap : ℝ) * 10 ^ 17 + 5 * 10 ^ 7 ≤ tapValue c.upNum c.upDen := by
      exact_mod_cast hclearUp.resolve_left hup0.ne'
    obtain ⟨hvalue, hreal, -⟩ := tapValue_antitone hm0 hm hn hup0 hup hupDen hle
    exact iff_of_true (by linarith) (by linarith)
  · have hclear : (tapValue c.downNum c.downDen : ℝ) + 5 * 10 ^ 7 ≤ c.tap * 10 ^ 17 := by exact_mod_cast hclearDown
    obtain ⟨hvalue, -, hreal⟩ := tapValue_antitone hdown0 hdown hdownDen hm0 hm hn hge
    exact iff_of_false (by linarith) (by linarith)

theorem exists_crossing {tap : Nat} (hlow : 21 ≤ tap) (hhigh : tap ≤ 255) : ∃ c ∈ crossings, c.tap = tap := by
  have hmem : tap ∈ crossings.map Crossing.tap := by
    rw [crossings_taps, List.mem_range'_1]
    omega
  simpa using hmem

theorem realTap_range (x : ℝ) : 20.4 ≤ realTap x ∧ realTap x ≤ 255 := by
  have hlow := Real.neg_one_le_cos (Real.pi * x)
  have hhigh := Real.cos_le_one (Real.pi * x)
  rw [realTap]
  constructor <;> linarith

/-- Rounding the fixed-point value down gives the floor of the real one: the same integers are at most both. -/
theorem tapValue_floor_of_pos {m n : Nat} (hm0 : 0 < m) (hm : m ≤ n) (hn : n ≤ 255) :
    tapValue m n / 10 ^ 17 = ⌊realTap (m / n)⌋ := by
  obtain ⟨hrlow, hrhigh⟩ := realTap_range (m / n)
  obtain ⟨hlow, hhigh⟩ := abs_le.mp (tapValue_error hm0 hm hn)
  refine eq_of_forall_le_iff fun tap => ?_
  rw [Int.le_ediv_iff_mul_le (by norm_num), Int.le_floor]
  have hcast : tap * 10 ^ 17 ≤ tapValue m n ↔ (tap : ℝ) * 10 ^ 17 ≤ tapValue m n := by exact_mod_cast Iff.rfl
  rcases le_or_gt tap 20 with hsmall | hbig
  · have hsmallr : (tap : ℝ) ≤ 20 := by exact_mod_cast hsmall
    rw [hcast]
    exact iff_of_true (by linarith) (by linarith)
  rcases le_or_gt tap 255 with hin | hlarge
  · obtain ⟨tap, rfl⟩ := Int.eq_ofNat_of_zero_le (show 0 ≤ tap by omega)
    obtain ⟨c, hc, rfl⟩ := exists_crossing (show 21 ≤ tap by omega) (show tap ≤ 255 by omega)
    exact (crossings_ok c hc).tap_le_iff hm0 hm hn
  · have hlarger : (256 : ℝ) ≤ tap := by exact_mod_cast hlarge
    rw [hcast]
    exact iff_of_false (by linarith) (by linarith)

/-- In the middle of the window the fixed-point cosine is exact. -/
theorem tapValue_zero (n : Nat) : tapValue 0 n = 255 * 10 ^ 17 := by
  have hcos : cosScaled 0 n = cosScaled 0 1 := by simp only [cosScaled, Nat.mul_zero, Nat.zero_div]
  rw [tapValue, hcos]
  decide +kernel

theorem realTap_zero : realTap 0 = 255 := by
  rw [realTap, mul_zero, Real.cos_zero]
  norm_num

theorem tapValue_floor {m n : Nat} (hm : m ≤ n) (hn : n ≤ 255) : tapValue m n / 10 ^ 17 = ⌊realTap (m / n)⌋ := by
  rcases Nat.eq_zero_or_pos m with rfl | hm0
  · rw [tapValue_zero, Nat.cast_zero, zero_div, realTap_zero, Int.floor_ofNat, Int.mul_ediv_cancel _ (by norm_num)]
  · exact tapValue_floor_of_pos hm0 hm hn

theorem hammingTap_eq_floor {d i : Nat} (hd2 : 2 ≤ d) (hd : d ≤ 256) (hi : i < d) :
    (hammingTap d i : Int) = ⌊realTap (((d : Int) - 1 - 2 * i).natAbs / (d - 1 : Nat))⌋ := by
  have hfloor := tapValue_floor (m := ((d : Int) - 1 - 2 * i).natAbs) (n := d - 1) (by omega) (by omega)
  have hscale : 100 * (cosOne : Int) = 10 ^ 17 := by decide
  have hnonneg : 0 ≤ ⌊realTap (((d : Int) - 1 - 2 * i).natAbs / (d - 1 : Nat))⌋ :=
    Int.floor_nonneg.mpr (by linarith [(realTap_range (((d : Int) - 1 - 2 * i).natAbs / (d - 1 : Nat))).1])
  rw [hammingTap, if_neg (by omega), hscale]
  exact (Int.toNat_of_nonneg (hfloor ▸ hnonneg)).trans hfloor

/-- Counted from the middle of the window, the cosine changes its sign. -/
theorem cos_from_middle {d : Nat} (hd : 2 ≤ d) (i : Nat) :
    Real.cos (Real.pi * (((d : Int) - 1 - 2 * i).natAbs / (d - 1 : Nat))) = -Real.cos (2 * Real.pi * i / ((d : ℝ) - 1)) := by
  have hden : ((d - 1 : Nat) : ℝ) = d - 1 := by rw [Nat.cast_sub (by omega), Nat.cast_one]
  have hpos : (0 : ℝ) < d - 1 := by rw [← hden]; exact_mod_cast (by omega : 0 < d - 1)
  have hnum : ((((d : Int) - 1 - 2 * i).natAbs : Nat) : ℝ) = |(d : ℝ) - 1 - 2 * i| := by
    rw [Nat.cast_natAbs, Int.cast_abs]
    push_cast
    rfl
  have hangle : Real.pi * (|(d : ℝ) - 1 - 2 * i| / (d - 1)) = |Real.pi - 2 * Real.pi * i / (d - 1)| := by
    rw [← abs_of_pos hpos, ← abs_div, ← abs_of_pos Real.pi_pos, ← abs_mul, abs_of_pos hpos, abs_of_pos Real.pi_pos]
    congr 1
    field_simp
  rw [hnum, hden, hangle, Real.cos_abs, Real.cos_pi_sub]

/-- Settles O30: the function of the window passes each integer between two neighbouring ratios, at both of which the fixed-point
value is clear of it. -/
theorem hammingTapsFollowTheFormula : Obligations.HammingTapsFollowTheFormula := by
  refine ⟨rfl, fun d i hd2 hd hi => ?_⟩
  have hfloor := hammingTap_eq_floor hd2 hd hi
  have hformula : realTap (((d : Int) - 1 - 2 * i).natAbs / (d - 1 : Nat)) =
      255 * (0.54 - 0.46 * Real.cos (2 * Real.pi * i / ((d : ℝ) - 1))) := by
    rw [realTap, cos_from_middle hd2]
    ring
  have hlt : hammingTap d i < 256 := by
    have : ⌊realTap (((d : Int) - 1 - 2 * i).natAbs / (d - 1 : Nat))⌋ < 256 :=
      Int.floor_lt.mpr (by push_cast; linarith [(realTap_range (((d : Int) - 1 - 2 * i).natAbs / (d - 1 : Nat))).2])
    omega
  rw [firTap, BitVec.toNat_ofNat, Nat.mod_eq_of_lt hlt, hfloor, hformula]

end Sys2Proof.Machine
end
